-- ==== Sys2Proof/Word.lean ====
section
/-! DEFINITION. The word types of the block's two ports and of the device's registers (R8, R120). -/

namespace Sys2Proof

/-- One device register, one wire byte, one lane of `a` or `q` (R23, R105). -/
abbrev Byte := BitVec 8

/-- A 16-bit composite of two adjacent registers (R103, R104), and the instruction word `iw` (R120). -/
abbrev Half := BitVec 16

/-- The pattern of an IEEE-754 binary32 value as it travels on the ports (R10). -/
abbrev F32 := BitVec 32

/-- The data operand `a[63:0]` of a command (R120). -/
abbrev Operand := BitVec 64

/-- The result `q[127:0]` of a response (R120). -/
abbrev Result := BitVec 128

end Sys2Proof
end

