-- ==== Sys2Proof/Config.lean ====
section
/-! DEFINITION. What the spec leaves to an implementation or leaves open: the quantiser switch `THR_QUANT` (R7, R226) and
the free values. A free value has no body: nothing can be proved of it. -/

namespace Sys2Proof.Config

/-- The switch `THR_QUANT` of R7 and R226. A machine has one of the two for good; the state carries it (log entry 3). -/
inductive ThrQuant where
  /-- the default: rounding toward zero -/
  | trunc
  /-- the alternative: to the nearest integer, halves away from zero -/
  | roundHalfAway
deriving DecidableEq, Repr

/-- FREE VALUE. What the device holds at a register address after its own power-on where no source gives it: R291 names
0x0C, 0x0D and 0x10 to 0x1C and asks a model to leave them arbitrary (log entry 4). -/
opaque powerOn : Nat → Byte

/-- FREE VALUE. The sign and payload bits of a NaN that a binary32 operation forms: IEEE-754 leaves them open and R216
says that no converter ever forms one (log entry 5). -/
opaque nanPayload : F32

end Sys2Proof.Config
end

