-- ==== Sys2Proof/Syntax.lean ====
section
/-! DEFINITION. The names the spec gives (registers, fields, variants, axes, range classes and bits, read lengths) and
`Instr`, one constructor per operation of the opcode map (R123). Selector sub-fields are turned into these names by the
decoder, so no operation sees a raw selector. -/

namespace Sys2Proof

/-- The 29 device registers by name (R24). Their addresses are `regCode` in Decode.lean. -/
inductive Reg where
  | deviceConfig1 | deviceConfig2 | sensorConfig1 | sensorConfig2
  | xThrConfig | yThrConfig | zThrConfig | tConfig | intConfig1
  | magGainConfig | magOffsetConfig1 | magOffsetConfig2 | i2cAddress
  | deviceId | manufacturerIdLsb | manufacturerIdMsb
  | tMsbResult | tLsbResult | xMsbResult | xLsbResult | yMsbResult | yLsbResult | zMsbResult | zLsbResult
  | convStatus | angleResultMsb | angleResultLsb | magnitudeResult | deviceStatus
deriving DecidableEq, Repr

/-- The 34 register fields by name, in `fid` order (R86). -/
inductive Field where
  | i2cRd | convAvg | magTempco
  | operatingMode | triggerMode | i2cGlitchFilter | lpLn | thrHyst
  | sleeptime | magChEn
  | zRange | xyRange | angleEn | magGainCh | magThrDir | thrxCount
  | tChEn
  | maskIntb | intMode | intState | thrsldInt | rsltInt
  | i2cAddressUpdateEn | i2cAddress
  | ver
  | resultStatus | diagStatus | por | setCount
  | vccUvEr | otpCrcEr | intEr | oscEr | intbRb
deriving DecidableEq, Repr

/-- The magnetic axes (R124, sub-field `axis`; the code 3 is illegal). -/
inductive Axis where
  | x | y | z
deriving DecidableEq, Repr

/-- The eight hardware variants, named by family letter and range class (R88). -/
inductive Variant where
  | a1 | a2 | b1 | b2 | c1 | c2 | d1 | d2
deriving DecidableEq, Repr

/-- The range class, sub-field `c` (R90, R124). -/
inductive RangeClass where
  | class1 | class2
deriving DecidableEq, Repr

/-- The range bit, sub-fields `r`, `rxy`, `rz` (R70, R71, R124). -/
inductive RangeBit where
  | low | high
deriving DecidableEq, Repr

/-- The read length, sub-field `len` (R124; the code 3 is illegal). -/
inductive ReadLen where
  | one | two | eight
deriving DecidableEq, Repr

/-- The 34 operations of the opcode map (R123) with the selector sub-fields of their formats (R122). The data operand `a`
is no part of the instruction (R120): it stays on the command port. -/
inductive Instr where
  /-- 0x01, declared default (R154) -/
  | rdef (reg : Reg)
  /-- 0x02, structural decode (R152) -/
  | rdec (reg : Reg)
  /-- 0x03, structural encode (R153) -/
  | renc (reg : Reg)
  /-- 0x04, whole-register semantic check (R155) -/
  | rchk (dual : Bool) (reg : Reg)
  /-- 0x05, semantic field accessor (R156) -/
  | fget (fid : Field)
  /-- 0x06, builder field insertion (R157) -/
  | fset (fid : Field)
  /-- 0x08, little-endian composition (R170) -/
  | pk16le
  /-- 0x09, big-endian composition (R171) -/
  | pk16be
  /-- 0x0A, little-endian split (R172) -/
  | up16le
  /-- 0x0B, big-endian split (R173) -/
  | up16be
  /-- 0x0C, write frame (R174) -/
  | wfrm (reg : Reg)
  /-- 0x0D, read frame (R175) -/
  | rfrm (len : ReadLen) (reg : Reg)
  /-- 0x10, default bus address of a variant (R185) -/
  | vaddr (v : Variant)
  /-- 0x11, expected device id of a variant (R186) -/
  | vdid (v : Variant)
  /-- 0x12, range class of a variant (R187) -/
  | vcls (v : Variant)
  /-- 0x13, range in millitesla (R188) -/
  | vrng (c : RangeClass) (r : RangeBit)
  /-- 0x14, manufacturer identity check (R191) -/
  | midchk
  /-- 0x15, device identity check (R192) -/
  | didchk (v : Variant)
  /-- 0x18, guard of a single-axis read (R200) -/
  | chaxis (axis : Axis)
  /-- 0x19, guard of the full-data burst (R201) -/
  | chall
  /-- 0x1A, enabled axis set (R202) -/
  | chset
  /-- 0x1B, temperature channel guard (R203) -/
  | tchk
  /-- 0x1C, angle guard (R204) -/
  | angchk
  /-- 0x1D, range bit of an axis (R205) -/
  | rngsel (axis : Axis)
  /-- 0x20, axis result to millitesla (R217) -/
  | cvmag (c : RangeClass) (r : RangeBit) (axis : Axis)
  /-- 0x21, temperature result to degrees Celsius (R219) -/
  | cvtemp
  /-- 0x22, angle result to degrees (R221) -/
  | cvang
  /-- 0x23, the full-data burst (R223) -/
  | cvburst (c : RangeClass) (rxy rz : RangeBit)
  /-- 0x24, millitesla to threshold byte (R225) -/
  | threnc (c : RangeClass) (r : RangeBit)
  /-- 0x25, threshold byte to millitesla (R228) -/
  | thrdec (c : RangeClass) (r : RangeBit)
  /-- 0x26, magnetic gain byte (R231) -/
  | gain
  /-- 0x27, magnitude byte (R232) -/
  | magn
  /-- 0x28, magnetic offset to raw, unimplemented (R233) -/
  | offenc
  /-- 0x29, raw to magnetic offset, unimplemented (R234) -/
  | offdec
deriving DecidableEq, Repr

end Sys2Proof
end

