-- ==== Sys2Proof/Machine/State.lean ====
section
/-! DEFINITION. The state as plain data. The block itself stores nothing (R20): what it has is its two ports (R120), here
`cmd` and `responses`. Around it stands what the spec names as environment: the host's program order (R113), its session
(R22), and the device's register file (R21), which the host sequences of 46_host_macros.md act on through the block. -/

namespace Sys2Proof.Machine

/-! ## The block's ports -/

/-- A command on the command port (R120). -/
structure Command where
  op : Byte
  sel : Byte
  a : Operand
deriving DecidableEq, Repr

/-- The instruction word `iw` = op, sel (R120). -/
def Command.iw (c : Command) : Half := c.op ++ c.sel

/-- A response: 4-bit status, 0 for success, and 128-bit result, 0 on a fault (R120). -/
structure Response where
  status : BitVec 4
  q : Result
deriving DecidableEq, Repr

/-- The kinds of fault of R270. A fault is a response value (R271): the machine goes on. -/
inductive FaultKind where
  /-- host only; never formed by the block (R270) -/
  | notConnected
  /-- MIDCHK, DIDCHK -/
  | wrongDevice
  /-- RCHK, FGET, CHAXIS, CHALL, CHSET -/
  | malformedRegister
  /-- CHAXIS, CHALL, OFFENC, OFFDEC -/
  | wrongMode
  /-- THRENC -/
  | outOfRange
  /-- CHAXIS, CHALL, TCHK, ANGCHK -/
  | channelDisabled
  /-- host only: a failed bus primitive -/
  | bus
  /-- OFFENC, OFFDEC -/
  | unimplemented
  /-- the decoder (R128) -/
  | illegalOp
  /-- RENC, FSET, WFRM, RFRM, THRENC -/
  | badOperand
deriving DecidableEq, Repr

/-- What an operation of the block answers before it is put on the port: a result or a fault (R11). -/
abbrev Reply := Except FaultKind Result

/-! ## The host: session, actions, what its calls return -/

/-- The host's session (R22, R240): the variant and the resolved 7-bit bus address. -/
structure Session where
  variant : Variant
  addr7 : BitVec 7
deriving DecidableEq, Repr

/-- The three configuration groups (R260 to R262). -/
inductive Group where
  | device | sensor | interrupt
deriving DecidableEq, Repr

/-- A configuration of a group: one code per member field, in the order of the group's registers and, within a register,
in ascending bit order (R258). -/
structure GroupConfig where
  group : Group
  codes : List Byte
deriving DecidableEq, Repr

/-- The pseudo-instructions of 46_host_macros.md, and the generic accessors of R240. None is an encoding (R131). -/
inductive HostCall where
  /-- R240 MemWrite(reg, 1, x) -/
  | memWrite (reg : Reg) (x : Byte)
  /-- R240 MemRead(reg, n) -/
  | memRead (reg : Reg) (len : ReadLen)
  /-- R240 writeRegister: encode the lanes, then write -/
  | writeRegister (reg : Reg) (lanes : Operand)
  /-- R240 readRegister: read one byte, then decode it -/
  | readRegister (reg : Reg)
  /-- R240 readDualRegister: read two bytes, compose, decode each half -/
  | readDualRegister (reg : Reg)
  /-- R241 -/
  | construct (v : Variant)
  /-- R242 -/
  | constructWithAddress (addr7 : BitVec 7) (v : Variant)
  /-- R243 -/
  | isConnected
  /-- R244 -/
  | initDefault
  /-- R245 -/
  | getDeviceId
  /-- R246 -/
  | getManufacturerId
  /-- R247 -/
  | setMagThreshold (threshold : F32) (axis : Axis)
  /-- R248 -/
  | getMagThreshold (axis : Axis)
  /-- R249 -/
  | setMagneticGain (x : Byte)
  /-- R250 -/
  | getMagneticGain
  /-- R251 -/
  | setMagneticOffset (offset : F32)
  /-- R252 -/
  | getMagneticOffset
  /-- R253 -/
  | getTemperature
  /-- R254 -/
  | getMagData (axis : Axis)
  /-- R255 -/
  | getAllData
  /-- R256 -/
  | getAngle
  /-- R257 -/
  | getMagnitude
  /-- R258 -/
  | setGroup (config : GroupConfig)
  /-- R259 -/
  | getGroup (group : Group)
deriving DecidableEq, Repr

/-- What the host does next, in its program order (R113, R121). -/
inductive HostAction where
  /-- present a command to the block (R121) -/
  | command (c : Command)
  /-- the bus primitive `write(address, bytes)` (R101) -/
  | busWrite (addr7 : BitVec 7) (bytes : List Byte)
  /-- the bus primitive `writeRead(address, out_bytes, in_buffer)` (R101) -/
  | busWriteRead (addr7 : BitVec 7) (out : List Byte) (n : Nat)
  /-- run a host sequence of 46_host_macros.md -/
  | call (h : HostCall)
deriving DecidableEq, Repr

/-- What a host sequence returns on success. -/
inductive HostValue where
  | unit
  | bool (b : Bool)
  | code (c : Byte)
  | half (h : Half)
  | float (x : F32)
  /-- x, y, z, temperature (R255) -/
  | quad (x y z t : F32)
  /-- bytes of a bus read, first wire byte first (R102) -/
  | bytes (bs : List Byte)
  /-- decoded lanes of one register -/
  | lanes (q : Result)
  /-- decoded lanes of the two registers of a pair -/
  | lanesPair (q0 q1 : Result)
  | config (c : GroupConfig)
deriving DecidableEq, Repr

/-- The end of a host sequence or bus primitive: a value, or the status code of the fault that ended it (R240). -/
inductive HostResult where
  | returned (v : HostValue)
  | failed (status : BitVec 4)
deriving DecidableEq, Repr

/-! ## The device and the bus -/

/-- The device's register file (R21): the registers that differ from what `unlisted` says, as (address, byte), addresses
strictly rising. -/
abbrev Memory := List Host.Cell

/-- What the world outside host and block does at one bus transaction: whether the transport fails (R240), and which
register bits the device itself has changed since the last one (R111). Plain data: every behaviour is some list. -/
structure EnvEvent where
  fails : Bool
  changes : List Host.Cell
deriving DecidableEq, Repr

/-- One bus transaction as the bus saw it (R101). -/
inductive BusEvent where
  /-- a write frame, and whether the transport carried it -/
  | wrote (addr7 : BitVec 7) (bytes : List Byte) (carried : Bool)
  /-- a pointer write and read, and the bytes returned where the transport carried it -/
  | read (addr7 : BitVec 7) (out : List Byte) (n : Nat) (reply : Option (List Byte))
deriving DecidableEq, Repr

/-! ## The state -/

/-- The state. `cmd` and `responses` are the block's ports; the rest is environment (R21, R22) or the model's own record. -/
structure State where
  /-- what the host still does, first action first -/
  inputs : List HostAction
  /-- the command port: the command being answered -/
  cmd : Command
  /-- the response port: every response so far, in command order (R300) -/
  responses : List Response
  /-- the fixed parameter `THR_QUANT` (R7, R226) -/
  thrQuant : Config.ThrQuant
  /-- the host's session; none before construction (R242) -/
  session : Option Session
  /-- what the host's bus primitives and sequences returned so far -/
  results : List HostResult
  /-- the device's registers `REG[0x00 .. 0x1C]` (R21) -/
  regs : Memory
  /-- the device has been put into an I2C read mode or bus address the spec says nothing about (U11, log entry 8) -/
  strayed : Bool
  /-- what device and transport do at the coming bus transactions -/
  env : List EnvEvent
  /-- every bus transaction so far -/
  trace : List BusEvent
deriving DecidableEq, Repr

/-- Why a step stops the machine. No command of the block raises one: a fault of the block is a response (R271). -/
inductive Fault where
  /-- SAFE. Raised by a bus primitive whose frame names a register address above 0x1C, where the spec says no register
  exists (R23, R109). -/
  | noSuchRegister (addr : Nat)
deriving DecidableEq, Repr

/-- Why a step has no meaning. -/
inductive Refusal where
  /-- SAFE. Raised by no arm of this model: the arm of an instruction without a meaning. -/
  | notModelled (mnemonic : String)
  /-- SAFE. The host does nothing more: there is no command to answer (R121). -/
  | noInput
  /-- SAFE. A host sequence other than a construction without a session (R292). -/
  | noSession
  /-- SAFE. A bus primitive whose bytes are no frame of R101, or a read of a width other than 1, 2, 8 (R107). -/
  | malformedFrame
  /-- SAFE. A raw write frame to a read-only register, past the block's refusal (R25, R174): what the device does is in no
  source. -/
  | readOnlyWrite
  /-- SAFE. A configuration that is not one code per member field (R258): a typed host cannot form it. -/
  | malformedConfig
deriving DecidableEq, Repr

/-- The machine right after reset (R95, R290, R291): the ports are empty, no session, the device's registers at what
`unlisted` says. -/
def State.reset : State where
  inputs := []
  cmd := { op := 0#8, sel := 0#8, a := 0#64 }
  responses := []
  thrQuant := .trunc
  session := none
  results := []
  regs := []
  strayed := false
  env := []
  trace := []

end Sys2Proof.Machine
end

