-- ==== Sys2Proof/Machine/Flags.lean ====
section
/-! DEFINITION. The block has no flags or condition codes (R20); what an operation reports besides its result is the
4-bit status of the response (R270). -/

namespace Sys2Proof.Machine

/-- The status codes of R270; 0 is success, 11 to 15 are never produced. -/
def statusCode : FaultKind → BitVec 4
  | .notConnected => 1#4
  | .wrongDevice => 2#4
  | .malformedRegister => 3#4
  | .wrongMode => 4#4
  | .outOfRange => 5#4
  | .channelDisabled => 6#4
  | .bus => 7#4
  | .unimplemented => 8#4
  | .illegalOp => 9#4
  | .badOperand => 10#4

/-- A reply as it stands on the response port: on a fault `q` is 0 (R11, R271). -/
def respond : Reply → Response
  | .ok q => { status := 0#4, q := q }
  | .error f => { status := statusCode f, q := 0#128 }

end Sys2Proof.Machine
end

