-- ==== Sys2Proof/WellFormed.lean ====
section
/-! DEFINITION. Which instructions an instruction word can hold. The types of Syntax.lean rule out a register above 0x1C,
an undefined field, the length code 3 and the axis code 3 (R124); the one check left is the pair rule of RCHK. -/

namespace Sys2Proof

/-- The registers that start a little-endian pair: `dual` = 1 is legal with these only (R124). -/
def Reg.startsPair : Reg → Bool
  | .deviceConfig1 => true
  | .sensorConfig1 => true
  | .manufacturerIdLsb => true
  | _ => false

/-- R124, R128: `dual` = 1 with a register outside 0x00, 0x02, 0x0E is no instruction. -/
def Instr.wellFormed : Instr → Bool
  | .rchk dual reg => !dual || reg.startsPair
  | .rdef _ | .rdec _ | .renc _ | .fget _ | .fset _ => true
  | .pk16le | .pk16be | .up16le | .up16be | .wfrm _ | .rfrm _ _ => true
  | .vaddr _ | .vdid _ | .vcls _ | .vrng _ _ | .midchk | .didchk _ => true
  | .chaxis _ | .chall | .chset | .tchk | .angchk | .rngsel _ => true
  | .cvmag _ _ _ | .cvtemp | .cvang | .cvburst _ _ _ | .threnc _ _ | .thrdec _ _ => true
  | .gain | .magn | .offenc | .offdec => true

end Sys2Proof
end

