-- ==== Sys2Proof/Decode.lean ====
section
/-! DEFINITION. The codes of the selector sub-fields (R24, R86, R88, R124), the decoder of the 16-bit instruction word
`iw` = op, sel (R120, R122, R123, R128) and, after it, the encoder. The decoder is total: a word that is no instruction
is rejected with the name of the test of R128 it fails. -/

namespace Sys2Proof

/-! ## Codes of the selector sub-fields -/

/-- The address map `REG_ADDR` that the spec decides on (R24). The decoder and the encoder take such a map as an argument
(R7, D6). -/
def regCode : Reg → BitVec 5
  | .deviceConfig1 => 0x00#5
  | .deviceConfig2 => 0x01#5
  | .sensorConfig1 => 0x02#5
  | .sensorConfig2 => 0x03#5
  | .xThrConfig => 0x04#5
  | .yThrConfig => 0x05#5
  | .zThrConfig => 0x06#5
  | .tConfig => 0x07#5
  | .intConfig1 => 0x08#5
  | .magGainConfig => 0x09#5
  | .magOffsetConfig1 => 0x0A#5
  | .magOffsetConfig2 => 0x0B#5
  | .i2cAddress => 0x0C#5
  | .deviceId => 0x0D#5
  | .manufacturerIdLsb => 0x0E#5
  | .manufacturerIdMsb => 0x0F#5
  | .tMsbResult => 0x10#5
  | .tLsbResult => 0x11#5
  | .xMsbResult => 0x12#5
  | .xLsbResult => 0x13#5
  | .yMsbResult => 0x14#5
  | .yLsbResult => 0x15#5
  | .zMsbResult => 0x16#5
  | .zLsbResult => 0x17#5
  | .convStatus => 0x18#5
  | .angleResultMsb => 0x19#5
  | .angleResultLsb => 0x1A#5
  | .magnitudeResult => 0x1B#5
  | .deviceStatus => 0x1C#5

/-- Every register, in ascending address order (R24). -/
def allRegs : List Reg :=
  [.deviceConfig1, .deviceConfig2, .sensorConfig1, .sensorConfig2, .xThrConfig, .yThrConfig, .zThrConfig, .tConfig,
   .intConfig1, .magGainConfig, .magOffsetConfig1, .magOffsetConfig2, .i2cAddress, .deviceId, .manufacturerIdLsb,
   .manufacturerIdMsb, .tMsbResult, .tLsbResult, .xMsbResult, .xLsbResult, .yMsbResult, .yLsbResult, .zMsbResult,
   .zLsbResult, .convStatus, .angleResultMsb, .angleResultLsb, .magnitudeResult, .deviceStatus]

/-- The register at an address of a map. -/
def regOfCodeWith (regAddr : Reg → BitVec 5) (c : BitVec 5) : Option Reg :=
  allRegs.find? fun r => regAddr r == c

/-- The register at an address: none for 0x1D to 0x1F (R23, R151). -/
def regOfCode (c : BitVec 5) : Option Reg := regOfCodeWith regCode c

/-- The `fid` column of R86 (R125). -/
def fieldCode : Field → BitVec 6
  | .i2cRd => 0x00#6
  | .convAvg => 0x01#6
  | .magTempco => 0x02#6
  | .operatingMode => 0x03#6
  | .triggerMode => 0x04#6
  | .i2cGlitchFilter => 0x05#6
  | .lpLn => 0x06#6
  | .thrHyst => 0x07#6
  | .sleeptime => 0x08#6
  | .magChEn => 0x09#6
  | .zRange => 0x0A#6
  | .xyRange => 0x0B#6
  | .angleEn => 0x0C#6
  | .magGainCh => 0x0D#6
  | .magThrDir => 0x0E#6
  | .thrxCount => 0x0F#6
  | .tChEn => 0x10#6
  | .maskIntb => 0x11#6
  | .intMode => 0x12#6
  | .intState => 0x13#6
  | .thrsldInt => 0x14#6
  | .rsltInt => 0x15#6
  | .i2cAddressUpdateEn => 0x16#6
  | .i2cAddress => 0x17#6
  | .ver => 0x18#6
  | .resultStatus => 0x19#6
  | .diagStatus => 0x1A#6
  | .por => 0x1B#6
  | .setCount => 0x1C#6
  | .vccUvEr => 0x1D#6
  | .otpCrcEr => 0x1E#6
  | .intEr => 0x1F#6
  | .oscEr => 0x20#6
  | .intbRb => 0x21#6

/-- Every field, in ascending `fid` order (R86). -/
def allFields : List Field :=
  [.i2cRd, .convAvg, .magTempco, .operatingMode, .triggerMode, .i2cGlitchFilter, .lpLn, .thrHyst, .sleeptime, .magChEn,
   .zRange, .xyRange, .angleEn, .magGainCh, .magThrDir, .thrxCount, .tChEn, .maskIntb, .intMode, .intState, .thrsldInt,
   .rsltInt, .i2cAddressUpdateEn, .i2cAddress, .ver, .resultStatus, .diagStatus, .por, .setCount, .vccUvEr, .otpCrcEr,
   .intEr, .oscEr, .intbRb]

/-- The field of a `fid`: none for 0x22 to 0x3F (R86). -/
def fieldOfCode (c : BitVec 6) : Option Field :=
  allFields.find? fun f => fieldCode f == c

/-- The class bit `c` (R90): 0 for class 1, 1 for class 2. -/
def classCode : RangeClass → BitVec 1
  | .class1 => 0#1
  | .class2 => 1#1

def classOfCode (c : BitVec 1) : RangeClass :=
  if c = 0#1 then .class1 else .class2

/-- The range bit `r` (R124): 0 = low, 1 = high. -/
def rangeBitCode : RangeBit → BitVec 1
  | .low => 0#1
  | .high => 1#1

def rangeBitOfCode (r : BitVec 1) : RangeBit :=
  if r = 0#1 then .low else .high

/-- The variant code `v` = family, class bit (R88). -/
def variantCode : Variant → BitVec 3
  | .a1 => 0#3
  | .a2 => 1#3
  | .b1 => 2#3
  | .b2 => 3#3
  | .c1 => 4#3
  | .c2 => 5#3
  | .d1 => 6#3
  | .d2 => 7#3

def allVariants : List Variant :=
  [.a1, .a2, .b1, .b2, .c1, .c2, .d1, .d2]

/-- Every variant code is legal (R124). -/
def variantOfCode (c : BitVec 3) : Variant :=
  (allVariants.find? fun v => variantCode v == c).getD .a1

/-- The axis code (R124). -/
def axisCode : Axis → BitVec 2
  | .x => 0#2
  | .y => 1#2
  | .z => 2#2

def axisOfCode (c : BitVec 2) : Option Axis :=
  [Axis.x, .y, .z].find? fun a => axisCode a == c

/-- The read length code (R124): 1 byte, 2 bytes, 8 bytes. -/
def lenCode : ReadLen → BitVec 2
  | .one => 0#2
  | .two => 1#2
  | .eight => 2#2

def lenOfCode (c : BitVec 2) : Option ReadLen :=
  [ReadLen.one, .two, .eight].find? fun l => lenCode l == c

/-! ## The decoder -/

/-- Why an instruction word is no instruction (R128). All of them answer IllegalOp. -/
inductive DecodeError where
  /-- R128 (a): `op` is not in the opcode map -/
  | undefinedOp
  /-- R128 (b): a bit the format marks MBZ is 1 -/
  | mustBeZero
  /-- R128 (c): `reg` above 0x1C -/
  | noSuchRegister
  /-- R128 (c): `fid` above 0x21 -/
  | noSuchField
  /-- R128 (c): `len` = 3 -/
  | badLength
  /-- R128 (c): `axis` = 3 -/
  | badAxis
  /-- R128 (c): `dual` = 1 with a register that starts no pair -/
  | badDual
deriving DecidableEq, Repr

abbrev Decoded := Except DecodeError Instr

/-- Format Z (R122): `sel` is all MBZ. -/
def decodeZ (i : Instr) (sel : Byte) : Decoded :=
  if sel = 0#8 then .ok i else .error .mustBeZero

/-- Formats R, RD and RL share `reg` = `sel[4:0]`, legal up to 0x1C (R151). -/
def withReg (regAddr : Reg → BitVec 5) (sel : Byte) (k : Reg → Decoded) : Decoded :=
  match regOfCodeWith regAddr (sel.extractLsb' 0 5) with
  | some r => k r
  | none => .error .noSuchRegister

/-- Format R (R122). -/
def decodeR (regAddr : Reg → BitVec 5) (mk : Reg → Instr) (sel : Byte) : Decoded :=
  if sel.extractLsb' 5 3 = 0#3 then withReg regAddr sel fun r => .ok (mk r) else .error .mustBeZero

/-- Format RD (R122), with the pair rule of `dual` (R124). -/
def decodeRD (regAddr : Reg → BitVec 5) (mk : Bool → Reg → Instr) (sel : Byte) : Decoded :=
  if sel.extractLsb' 5 2 = 0#2 then
    withReg regAddr sel fun r =>
      let dual := sel.getLsbD 7
      if dual && !r.startsPair then .error .badDual else .ok (mk dual r)
  else .error .mustBeZero

/-- Format RL (R122). -/
def decodeRL (regAddr : Reg → BitVec 5) (mk : ReadLen → Reg → Instr) (sel : Byte) : Decoded :=
  if sel.getLsbD 7 = false then
    withReg regAddr sel fun r =>
      match lenOfCode (sel.extractLsb' 5 2) with
      | some l => .ok (mk l r)
      | none => .error .badLength
  else .error .mustBeZero

/-- Format F (R122). -/
def decodeF (mk : Field → Instr) (sel : Byte) : Decoded :=
  if sel.extractLsb' 6 2 = 0#2 then
    match fieldOfCode (sel.extractLsb' 0 6) with
    | some f => .ok (mk f)
    | none => .error .noSuchField
  else .error .mustBeZero

/-- Format V (R122). -/
def decodeV (mk : Variant → Instr) (sel : Byte) : Decoded :=
  if sel.extractLsb' 3 5 = 0#5 then .ok (mk (variantOfCode (sel.extractLsb' 0 3))) else .error .mustBeZero

/-- Format S (R122). -/
def decodeS (mk : RangeClass → RangeBit → Instr) (sel : Byte) : Decoded :=
  if sel.extractLsb' 4 4 = 0#4 ∧ sel.extractLsb' 0 2 = 0#2 then
    .ok (mk (classOfCode (sel.extractLsb' 3 1)) (rangeBitOfCode (sel.extractLsb' 2 1)))
  else .error .mustBeZero

/-- `axis` = `sel[1:0]`, legal up to 2 (R124). -/
def withAxis (sel : Byte) (k : Axis → Instr) : Decoded :=
  match axisOfCode (sel.extractLsb' 0 2) with
  | some a => .ok (k a)
  | none => .error .badAxis

/-- Format SA (R122). -/
def decodeSA (mk : RangeClass → RangeBit → Axis → Instr) (sel : Byte) : Decoded :=
  if sel.extractLsb' 4 4 = 0#4 then
    withAxis sel fun a => mk (classOfCode (sel.extractLsb' 3 1)) (rangeBitOfCode (sel.extractLsb' 2 1)) a
  else .error .mustBeZero

/-- Format B (R122). -/
def decodeB (mk : RangeClass → RangeBit → RangeBit → Instr) (sel : Byte) : Decoded :=
  if sel.extractLsb' 4 4 = 0#4 ∧ sel.getLsbD 2 = false then
    .ok (mk (classOfCode (sel.extractLsb' 3 1)) (rangeBitOfCode (sel.extractLsb' 1 1))
      (rangeBitOfCode (sel.extractLsb' 0 1)))
  else .error .mustBeZero

/-- Format X (R122). -/
def decodeX (mk : Axis → Instr) (sel : Byte) : Decoded :=
  if sel.extractLsb' 2 6 = 0#6 then withAxis sel mk else .error .mustBeZero

/-- The opcode map (R123), read from `op` and `sel`. -/
def decodeOp (regAddr : Reg → BitVec 5) (op sel : Byte) : Decoded :=
  match op.toNat with
  | 0x01 => decodeR regAddr .rdef sel
  | 0x02 => decodeR regAddr .rdec sel
  | 0x03 => decodeR regAddr .renc sel
  | 0x04 => decodeRD regAddr .rchk sel
  | 0x05 => decodeF .fget sel
  | 0x06 => decodeF .fset sel
  | 0x08 => decodeZ .pk16le sel
  | 0x09 => decodeZ .pk16be sel
  | 0x0A => decodeZ .up16le sel
  | 0x0B => decodeZ .up16be sel
  | 0x0C => decodeR regAddr .wfrm sel
  | 0x0D => decodeRL regAddr .rfrm sel
  | 0x10 => decodeV .vaddr sel
  | 0x11 => decodeV .vdid sel
  | 0x12 => decodeV .vcls sel
  | 0x13 => decodeS .vrng sel
  | 0x14 => decodeZ .midchk sel
  | 0x15 => decodeV .didchk sel
  | 0x18 => decodeX .chaxis sel
  | 0x19 => decodeZ .chall sel
  | 0x1A => decodeZ .chset sel
  | 0x1B => decodeZ .tchk sel
  | 0x1C => decodeZ .angchk sel
  | 0x1D => decodeX .rngsel sel
  | 0x20 => decodeSA .cvmag sel
  | 0x21 => decodeZ .cvtemp sel
  | 0x22 => decodeZ .cvang sel
  | 0x23 => decodeB .cvburst sel
  | 0x24 => decodeS .threnc sel
  | 0x25 => decodeS .thrdec sel
  | 0x26 => decodeZ .gain sel
  | 0x27 => decodeZ .magn sel
  | 0x28 => decodeZ .offenc sel
  | 0x29 => decodeZ .offdec sel
  | _ => .error .undefinedOp

/-- The instruction an instruction word `iw` = op, sel selects under an address map (R120, R128). -/
def decodeWith (regAddr : Reg → BitVec 5) (iw : Half) : Decoded :=
  decodeOp regAddr (iw.extractLsb' 8 8) (iw.extractLsb' 0 8)

/-- The instruction an instruction word selects under the spec's address map (R24). -/
def decode (iw : Half) : Decoded := decodeWith regCode iw

/-! ## The encoder -/

/-- The `sel` byte of each format (R122), under an address map. -/
def selOfWith (regAddr : Reg → BitVec 5) : Instr → Byte
  | .rdef reg | .rdec reg | .renc reg | .wfrm reg => 0#3 ++ regAddr reg
  | .rchk dual reg => BitVec.ofBool dual ++ 0#2 ++ regAddr reg
  | .rfrm len reg => 0#1 ++ lenCode len ++ regAddr reg
  | .fget fid | .fset fid => 0#2 ++ fieldCode fid
  | .vaddr v | .vdid v | .vcls v | .didchk v => 0#5 ++ variantCode v
  | .vrng c r | .threnc c r | .thrdec c r => 0#4 ++ classCode c ++ rangeBitCode r ++ 0#2
  | .cvmag c r axis => 0#4 ++ classCode c ++ rangeBitCode r ++ axisCode axis
  | .cvburst c rxy rz => 0#4 ++ classCode c ++ 0#1 ++ rangeBitCode rxy ++ rangeBitCode rz
  | .chaxis axis | .rngsel axis => 0#6 ++ axisCode axis
  | .pk16le | .pk16be | .up16le | .up16be | .midchk | .chall | .chset | .tchk | .angchk => 0#8
  | .cvtemp | .cvang | .gain | .magn | .offenc | .offdec => 0#8

/-- The `sel` byte under the spec's address map (R24). -/
def selOf (i : Instr) : Byte := selOfWith regCode i

/-- The `op` byte (R123). -/
def opOf : Instr → Byte
  | .rdef _ => 0x01#8
  | .rdec _ => 0x02#8
  | .renc _ => 0x03#8
  | .rchk _ _ => 0x04#8
  | .fget _ => 0x05#8
  | .fset _ => 0x06#8
  | .pk16le => 0x08#8
  | .pk16be => 0x09#8
  | .up16le => 0x0A#8
  | .up16be => 0x0B#8
  | .wfrm _ => 0x0C#8
  | .rfrm _ _ => 0x0D#8
  | .vaddr _ => 0x10#8
  | .vdid _ => 0x11#8
  | .vcls _ => 0x12#8
  | .vrng _ _ => 0x13#8
  | .midchk => 0x14#8
  | .didchk _ => 0x15#8
  | .chaxis _ => 0x18#8
  | .chall => 0x19#8
  | .chset => 0x1A#8
  | .tchk => 0x1B#8
  | .angchk => 0x1C#8
  | .rngsel _ => 0x1D#8
  | .cvmag _ _ _ => 0x20#8
  | .cvtemp => 0x21#8
  | .cvang => 0x22#8
  | .cvburst _ _ _ => 0x23#8
  | .threnc _ _ => 0x24#8
  | .thrdec _ _ => 0x25#8
  | .gain => 0x26#8
  | .magn => 0x27#8
  | .offenc => 0x28#8
  | .offdec => 0x29#8

/-- The instruction word of an instruction under an address map (R120). Every instruction is one word (R120). -/
def encodeWith (regAddr : Reg → BitVec 5) (i : Instr) : Half :=
  opOf i ++ selOfWith regAddr i

/-- The instruction word under the spec's address map (R24). -/
def encode (i : Instr) : Half :=
  opOf i ++ selOf i

/-- The decoder on the opcode table's numbering: the table's rows are one 16-bit word, bit 0 of which is bit 0 of `iw`. -/
def decodeTableWord (nbits w : Nat) : Option Instr :=
  match decode (BitVec.ofNat 16 (w % 2 ^ nbits)) with
  | .ok i => some i
  | .error _ => none

end Sys2Proof
end

