-- ==== Sys2Proof/Machine/Enums.lean ====
section
/-! DEFINITION. The enumerations of R60 to R85: what each code of a field means. The channel guards use the channel members
and InitDefault the members it sets; the rest are what the codec's users see (R276, R283). The reserved sets of R86 are the
codes without one. `EnumCodes` is the parameter `ENUM_CODES` (R7, D8) as a record, `enumCodes` the spec's values of it. -/

namespace Sys2Proof.Machine

/-- I2C_RD (R60). -/
inductive I2cReadMode where
  | standard3Byte | oneByteSensor16 | oneByteSensor8Msb | reserved
deriving DecidableEq, Repr

def i2cReadMode (code : BitVec 2) : I2cReadMode :=
  match code.toNat with
  | 0 => .standard3Byte
  | 1 => .oneByteSensor16
  | 2 => .oneByteSensor8Msb
  | _ => .reserved

/-- CONV_AVG (R61): the number of conversions averaged. -/
def conversionAveraging (code : BitVec 3) : Option Nat :=
  match code.toNat with
  | 0 => some 1
  | 1 => some 2
  | 2 => some 4
  | 3 => some 8
  | 4 => some 16
  | 5 => some 32
  | _ => none

/-- MAG_TEMPCO (R62): the compensation in hundredths of a percent per degree, none for the reserved member. -/
def magnetTempco (code : BitVec 2) : Option Nat :=
  match code.toNat with
  | 0 => some 0
  | 1 => some 12
  | 3 => some 20
  | _ => none

/-- OPERATING_MODE (R63). -/
inductive OperatingMode where
  | standby | sleep | continuous | wakeSleep
deriving DecidableEq, Repr

def operatingMode (code : BitVec 2) : OperatingMode :=
  match code.toNat with
  | 0 => .standby
  | 1 => .sleep
  | 2 => .continuous
  | _ => .wakeSleep

/-- TRIGGER_MODE (R64). -/
inductive TriggerMode where
  | busCommand | interruptPin
deriving DecidableEq, Repr

def triggerMode (code : BitVec 1) : TriggerMode :=
  if code = 0#1 then .busCommand else .interruptPin

/-- I2C_GLITCH_FILTER (R65): 0 is on. -/
inductive GlitchFilter where
  | on | off
deriving DecidableEq, Repr

def glitchFilter (code : BitVec 1) : GlitchFilter :=
  if code = 0#1 then .on else .off

/-- LP_LN (R66). -/
inductive PowerMode where
  | lowActiveCurrent | lowNoise
deriving DecidableEq, Repr

def powerMode (code : BitVec 1) : PowerMode :=
  if code = 0#1 then .lowActiveCurrent else .lowNoise

/-- THR_HYST (R67). -/
inductive ThresholdHysteresis where
  | twosComplement | oppositePair
deriving DecidableEq, Repr

def thresholdHysteresis (code : BitVec 3) : Option ThresholdHysteresis :=
  match code.toNat with
  | 0 => some .twosComplement
  | 1 => some .oppositePair
  | _ => none

/-- SLEEPTIME (R68), in milliseconds. -/
def sleepTimeMs (code : BitVec 4) : Option Nat :=
  match code.toNat with
  | 0x0 => some 1
  | 0x1 => some 5
  | 0x2 => some 10
  | 0x3 => some 15
  | 0x4 => some 20
  | 0x5 => some 30
  | 0x6 => some 50
  | 0x7 => some 100
  | 0x8 => some 500
  | 0x9 => some 1000
  | 0xA => some 2000
  | 0xB => some 5000
  | 0xC => some 20000
  | _ => none

/-- MAG_CH_EN (R69): the order in which the axes are measured, empty for off, none for a reserved member. -/
def channelSequence (code : BitVec 4) : Option (List Axis) :=
  match code.toNat with
  | 0x0 => some []
  | 0x1 => some [.x]
  | 0x2 => some [.y]
  | 0x3 => some [.x, .y]
  | 0x4 => some [.z]
  | 0x5 => some [.z, .x]
  | 0x6 => some [.y, .z]
  | 0x7 => some [.x, .y, .z]
  | 0x8 => some [.x, .y, .x]
  | 0x9 => some [.y, .x, .y]
  | 0xA => some [.y, .z, .y]
  | 0xB => some [.x, .z, .x]
  | _ => none

/-- ANGLE_EN (R72): the pair of axes the angle is computed from, none for disabled. -/
def anglePair (code : BitVec 2) : Option (Axis × Axis) :=
  match code.toNat with
  | 1 => some (.x, .y)
  | 2 => some (.y, .z)
  | 3 => some (.x, .z)
  | _ => none

/-- MAG_GAIN_CH (R73). -/
inductive GainChannel where
  | first | second
deriving DecidableEq, Repr

def gainChannel (code : BitVec 1) : GainChannel :=
  if code = 0#1 then .first else .second

/-- MAG_THR_DIR (R74). -/
inductive ThresholdDirection where
  | above | below
deriving DecidableEq, Repr

def thresholdDirection (code : BitVec 1) : ThresholdDirection :=
  if code = 0#1 then .above else .below

/-- THRX_COUNT (R75): how many threshold crossings. -/
def thresholdCrossings (code : BitVec 1) : Nat :=
  if code = 0#1 then 1 else 4

/-- T_CH_EN, THRSLD_INT, RSLT_INT, I2C_ADDRESS_UPDATE_EN (R76, R80, R81, R82): 1 is enabled. -/
def enabled (code : BitVec 1) : Bool := code = 1#1

/-- MASK_INTB (R77): 1 disables the interrupt pin. -/
def interruptPinEnabled (code : BitVec 1) : Bool := code = 0#1

/-- INT_MODE (R78). -/
inductive InterruptMode where
  | none | pin | pinUnlessBusy | clockLine | clockLineUnlessBusy
deriving DecidableEq, Repr

def interruptMode (code : BitVec 3) : Option InterruptMode :=
  match code.toNat with
  | 0 => some .none
  | 1 => some .pin
  | 2 => some .pinUnlessBusy
  | 3 => some .clockLine
  | 4 => some .clockLineUnlessBusy
  | _ => Option.none

/-- INT_STATE (R79). -/
inductive InterruptState where
  | latched | pulse
deriving DecidableEq, Repr

def interruptState (code : BitVec 1) : InterruptState :=
  if code = 0#1 then .latched else .pulse

/-- Z_RANGE, X_Y_RANGE (R70, R71): the range bit. -/
def rangeBit (code : BitVec 1) : RangeBit := rangeBitOfCode code

/-- VER (R84): the range class a device id stands for; 0 and 3 match no variant. -/
def deviceIdClass (code : BitVec 2) : Option RangeClass :=
  match code.toNat with
  | 1 => some .class1
  | 2 => some .class2
  | _ => none

/-- The status flags (R85): a 1 bit means the condition named holds. -/
def flagHolds (code : BitVec 1) : Bool := code = 1#1

/-! ## The record -/

/-- The parameter `ENUM_CODES` (R7, D8): what each code of each enumerated field means. -/
structure EnumCodes where
  i2cRd : BitVec 2 → I2cReadMode
  convAvg : BitVec 3 → Option Nat
  magTempco : BitVec 2 → Option Nat
  operatingMode : BitVec 2 → OperatingMode
  triggerMode : BitVec 1 → TriggerMode
  i2cGlitchFilter : BitVec 1 → GlitchFilter
  lpLn : BitVec 1 → PowerMode
  thrHyst : BitVec 3 → Option ThresholdHysteresis
  sleeptime : BitVec 4 → Option Nat
  magChEn : BitVec 4 → Option (List Axis)
  range : BitVec 1 → RangeBit
  angleEn : BitVec 2 → Option (Axis × Axis)
  magGainCh : BitVec 1 → GainChannel
  magThrDir : BitVec 1 → ThresholdDirection
  thrxCount : BitVec 1 → Nat
  enable : BitVec 1 → Bool
  maskIntb : BitVec 1 → Bool
  intMode : BitVec 3 → Option InterruptMode
  intState : BitVec 1 → InterruptState

/-- The code tables of R60 to R82. -/
def enumCodes : EnumCodes where
  i2cRd := i2cReadMode
  convAvg := conversionAveraging
  magTempco := magnetTempco
  operatingMode := operatingMode
  triggerMode := triggerMode
  i2cGlitchFilter := glitchFilter
  lpLn := powerMode
  thrHyst := thresholdHysteresis
  sleeptime := sleepTimeMs
  magChEn := channelSequence
  range := rangeBit
  angleEn := anglePair
  magGainCh := gainChannel
  magThrDir := thresholdDirection
  thrxCount := thresholdCrossings
  enable := enabled
  maskIntb := interruptPinEnabled
  intMode := interruptMode
  intState := interruptState

/-- The lowest code of a field that has a given meaning, as the code operand of FSET; 0 where no code has it. -/
def codeWhere {w : Nat} (means : BitVec w → Bool) : Byte :=
  match (List.range (2 ^ w)).find? fun c => means (BitVec.ofNat w c) with
  | some c => BitVec.ofNat 8 c
  | none => 0#8

end Sys2Proof.Machine
end

