-- ==== Sys2Proof/Machine/Tables.lean ====
section
/-! DEFINITION. The constant tables the block holds (R290): layouts, field classes, reserved codes, defaults, access
rights, the variant table and the range table. Those that R7 wants as configuration records (`REG_ADDR`, `LAYOUT`,
`ENUM_CODES`, `RESERVED_POLICY`) are the record `DeviceTables`; the operations of the block take it as an argument, and the
machine runs them on `tables`, the values the spec decides on. -/

namespace Sys2Proof.Machine

/-! ## Fields (R26, R27, R86) -/

/-- The bits `hi:lo` of a register (R26). -/
structure Span where
  hi : Nat
  lo : Nat
deriving DecidableEq, Repr

/-- `w_F = hi_F - lo_F + 1` (R26). -/
def Span.width (s : Span) : Nat := s.hi - s.lo + 1

/-- `mask_F = ((1 << w_F) - 1) << lo_F` (R26). -/
def Span.mask (s : Span) : Byte := BitVec.ofNat 8 ((2 ^ s.width - 1) * 2 ^ s.lo)

/-- The classes of R27. -/
inductive FieldClass where
  /-- P: every code is defined -/
  | plain
  /-- E: every code maps to a member, some members are called reserved -/
  | exhaustive
  /-- N: some codes map to no member -/
  | nonExhaustive
deriving DecidableEq, Repr

/-- Column `reg` of R86. -/
def fieldReg : Field → Reg
  | .i2cRd | .convAvg | .magTempco => .deviceConfig1
  | .operatingMode | .triggerMode | .i2cGlitchFilter | .lpLn | .thrHyst => .deviceConfig2
  | .sleeptime | .magChEn => .sensorConfig1
  | .zRange | .xyRange | .angleEn | .magGainCh | .magThrDir | .thrxCount => .sensorConfig2
  | .tChEn => .tConfig
  | .maskIntb | .intMode | .intState | .thrsldInt | .rsltInt => .intConfig1
  | .i2cAddressUpdateEn | .i2cAddress => .i2cAddress
  | .ver => .deviceId
  | .resultStatus | .diagStatus | .por | .setCount => .convStatus
  | .vccUvEr | .otpCrcEr | .intEr | .oscEr | .intbRb => .deviceStatus

/-- Column `bits` of R86: the parameter `LAYOUT` (R7). -/
def fieldSpan : Field → Span
  | .i2cRd => ⟨1, 0⟩
  | .convAvg => ⟨4, 2⟩
  | .magTempco => ⟨6, 5⟩
  | .operatingMode => ⟨1, 0⟩
  | .triggerMode => ⟨2, 2⟩
  | .i2cGlitchFilter => ⟨3, 3⟩
  | .lpLn => ⟨4, 4⟩
  | .thrHyst => ⟨7, 5⟩
  | .sleeptime => ⟨3, 0⟩
  | .magChEn => ⟨7, 4⟩
  | .zRange => ⟨0, 0⟩
  | .xyRange => ⟨1, 1⟩
  | .angleEn => ⟨3, 2⟩
  | .magGainCh => ⟨4, 4⟩
  | .magThrDir => ⟨5, 5⟩
  | .thrxCount => ⟨6, 6⟩
  | .tChEn => ⟨0, 0⟩
  | .maskIntb => ⟨0, 0⟩
  | .intMode => ⟨4, 2⟩
  | .intState => ⟨5, 5⟩
  | .thrsldInt => ⟨6, 6⟩
  | .rsltInt => ⟨7, 7⟩
  | .i2cAddressUpdateEn => ⟨0, 0⟩
  | .i2cAddress => ⟨7, 1⟩
  | .ver => ⟨1, 0⟩
  | .resultStatus => ⟨0, 0⟩
  | .diagStatus => ⟨1, 1⟩
  | .por => ⟨4, 4⟩
  | .setCount => ⟨7, 5⟩
  | .vccUvEr => ⟨0, 0⟩
  | .otpCrcEr => ⟨1, 1⟩
  | .intEr => ⟨2, 2⟩
  | .oscEr => ⟨3, 3⟩
  | .intbRb => ⟨4, 4⟩

/-- Column `class` of R86: the parameter `RESERVED_POLICY` (R7). -/
def fieldClass : Field → FieldClass
  | .convAvg | .thrHyst | .sleeptime | .intMode => .nonExhaustive
  | .i2cRd | .magTempco | .operatingMode | .magChEn | .angleEn => .exhaustive
  | .triggerMode | .i2cGlitchFilter | .lpLn => .plain
  | .zRange | .xyRange | .magGainCh | .magThrDir | .thrxCount => .plain
  | .tChEn | .maskIntb | .intState | .thrsldInt | .rsltInt => .plain
  | .i2cAddressUpdateEn | .i2cAddress | .ver => .plain
  | .resultStatus | .diagStatus | .por | .setCount => .plain
  | .vccUvEr | .otpCrcEr | .intEr | .oscEr | .intbRb => .plain

/-- The sets `RSV` (class N) and `RSVM` (class E) of R86; empty for every other field. -/
def fieldReserved : Field → List Nat
  | .convAvg => [6, 7]
  | .thrHyst => [2, 3, 4, 5, 6, 7]
  | .sleeptime => [0xD, 0xE, 0xF]
  | .intMode => [5, 6, 7]
  | .i2cRd => [3]
  | .magTempco => [2]
  | .magChEn => [0xC, 0xD, 0xE, 0xF]
  | _ => []

/-! ## Registers (R30 to R58) -/

/-- A lane of a register: a field, or a run of bits no field covers (R150). A register with no sub-fields is one such run
over all its bits (R151). -/
inductive Lane where
  | field (f : Field)
  | bits (hi lo : Nat)
deriving DecidableEq, Repr

/-- The bits of a lane. -/
def Lane.span : Lane → Span
  | .field f => fieldSpan f
  | .bits hi lo => ⟨hi, lo⟩

/-- The field of a lane, none where no field covers it (R151, `FIELDS`). -/
def Lane.field? : Lane → Option Field
  | .field f => some f
  | .bits _ _ => none

/-- `LANES(reg)` (R151): the lane lists of R30 to R58, in ascending bit order. -/
def regLanes : Reg → List Lane
  | .deviceConfig1 => [.field .i2cRd, .field .convAvg, .field .magTempco, .bits 7 7]
  | .deviceConfig2 => [.field .operatingMode, .field .triggerMode, .field .i2cGlitchFilter, .field .lpLn, .field .thrHyst]
  | .sensorConfig1 => [.field .sleeptime, .field .magChEn]
  | .sensorConfig2 =>
    [.field .zRange, .field .xyRange, .field .angleEn, .field .magGainCh, .field .magThrDir, .field .thrxCount, .bits 7 7]
  | .xThrConfig | .yThrConfig | .zThrConfig => [.bits 7 0]
  | .tConfig => [.field .tChEn, .bits 7 1]
  | .intConfig1 =>
    [.field .maskIntb, .bits 1 1, .field .intMode, .field .intState, .field .thrsldInt, .field .rsltInt]
  | .magGainConfig | .magOffsetConfig1 | .magOffsetConfig2 => [.bits 7 0]
  | .i2cAddress => [.field .i2cAddressUpdateEn, .field .i2cAddress]
  | .deviceId => [.field .ver, .bits 7 2]
  | .manufacturerIdLsb | .manufacturerIdMsb => [.bits 7 0]
  | .tMsbResult | .tLsbResult | .xMsbResult | .xLsbResult => [.bits 7 0]
  | .yMsbResult | .yLsbResult | .zMsbResult | .zLsbResult => [.bits 7 0]
  | .convStatus => [.field .resultStatus, .field .diagStatus, .bits 3 2, .field .por, .field .setCount]
  | .angleResultMsb | .angleResultLsb | .magnitudeResult => [.bits 7 0]
  | .deviceStatus =>
    [.field .vccUvEr, .field .otpCrcEr, .field .intEr, .field .oscEr, .field .intbRb, .bits 7 5]

/-- `DEFAULT(reg)` (R92, R154). -/
def regDefault : Reg → Byte
  | .manufacturerIdLsb => 0x49#8
  | .manufacturerIdMsb => 0x54#8
  | _ => 0x00#8

/-! ## Variants and ranges (R88, R90) -/

/-- The default bus address of a variant (R88, R185): one per family letter. -/
def variantAddr : Variant → BitVec 7
  | .a1 | .a2 => 0x35#7
  | .b1 | .b2 => 0x22#7
  | .c1 | .c2 => 0x78#7
  | .d1 | .d2 => 0x44#7

/-- The range class of a variant (R88). -/
def variantClass : Variant → RangeClass
  | .a1 | .b1 | .c1 | .d1 => .class1
  | .a2 | .b2 | .c2 | .d2 => .class2

/-- The expected device id: 1 for class 1, 2 for class 2 (R88, R186). -/
def classDeviceId : RangeClass → BitVec 2
  | .class1 => 1#2
  | .class2 => 2#2

/-- `RANGE(c, r)` of R90 as a binary32 pattern (R10, R188). -/
def rangeF32 : RangeClass → RangeBit → F32
  | .class1, .low => 0x42200000#32
  | .class1, .high => 0x42A00000#32
  | .class2, .low => 0x43050000#32
  | .class2, .high => 0x43850000#32

/-- The manufacturer id (R6, R191). -/
def manufacturerId : Half := 0x5449#16

/-! ## The configuration records (R7) -/

/-- The tables that R7 and D6 to D9 want abstracted over. -/
structure DeviceTables where
  /-- `REG_ADDR` (R24) -/
  regAddr : Reg → BitVec 5
  /-- `LAYOUT`: the register of a field (R86) -/
  fieldReg : Field → Reg
  /-- `LAYOUT`: the bits of a field (R86) -/
  fieldSpan : Field → Span
  /-- `LAYOUT`: the lane list of a register (R30 to R58) -/
  regLanes : Reg → List Lane
  /-- `RESERVED_POLICY`: the class of a field (R27, R86) -/
  fieldClass : Field → FieldClass
  /-- `ENUM_CODES`: the sets `RSV` and `RSVM` (R86) -/
  fieldReserved : Field → List Nat
  /-- `ENUM_CODES`: the members (R60 to R82) -/
  codes : EnumCodes

/-- The values the spec decides on (D6 to D9). -/
def tables : DeviceTables where
  regAddr := regCode
  fieldReg := fieldReg
  fieldSpan := fieldSpan
  regLanes := regLanes
  fieldClass := fieldClass
  fieldReserved := fieldReserved
  codes := enumCodes

/-- The bits of a lane under a layout. -/
def laneSpan (T : DeviceTables) : Lane → Span
  | .field f => T.fieldSpan f
  | .bits hi lo => ⟨hi, lo⟩

/-- `FIELDS(reg)` (R151): the fields among the lanes, in ascending bit order. -/
def regFields (T : DeviceTables) (r : Reg) : List Field :=
  (T.regLanes r).filterMap Lane.field?

/-- A code to which a class N field gives no member: the accessor faults, the setter refuses (R27, R156, R157). -/
def isUndefinedCode (T : DeviceTables) (f : Field) (code : Nat) : Bool :=
  T.fieldClass f == .nonExhaustive && (T.fieldReserved f).contains code

/-- A reserved member of a class E field: returned and flagged `rsv` (R27, R156). -/
def isReservedMember (T : DeviceTables) (f : Field) (code : Nat) : Bool :=
  T.fieldClass f == .exhaustive && (T.fieldReserved f).contains code

/-- R25: 0x00 to 0x0C are read-write, 0x0D to 0x1C read-only. -/
def isReadOnly (T : DeviceTables) (r : Reg) : Bool :=
  0x0D ≤ (T.regAddr r).toNat

/-- The register one address up: the second half of a pair or of a two-byte read (R102). -/
def nextReg (T : DeviceTables) (r : Reg) : Option Reg :=
  allRegs.find? fun r' => (T.regAddr r').toNat == (T.regAddr r).toNat + 1

/-- `SET(code)` (R69): the axes a channel selection measures, bit 0 = X, bit 1 = Y, bit 2 = Z; none for a reserved
member. -/
def channelSet (T : DeviceTables) (code : BitVec 4) : Option (BitVec 3) :=
  (T.codes.magChEn code).map fun axes =>
    BitVec.ofBool (axes.contains .z) ++ BitVec.ofBool (axes.contains .y) ++ BitVec.ofBool (axes.contains .x)

/-- The channel selection is "off" (R69, R200): code 0. -/
def channelsOff (T : DeviceTables) (code : BitVec 4) : Bool :=
  T.codes.magChEn code == some []

/-- The angle calculation is "disabled" (R72, R204): code 0. -/
def angleOff (T : DeviceTables) (code : BitVec 2) : Bool :=
  (T.codes.angleEn code).isNone

/-- The channel selection is "all-three exactly" (R69, R201): code 7. -/
def isAllThree (T : DeviceTables) (code : BitVec 4) : Bool :=
  T.codes.magChEn code == some [.x, .y, .z]

end Sys2Proof.Machine
end

