-- ==== Sys2Proof/Machine/Operands.lean ====
section
/-! DEFINITION. Operand and result assembly: bit fields of a register (R26), byte lanes of the ports (R105), the two
16-bit composites (R103, R104), the slices of the data operand `a` (R126) and the lanes of the result `q` (R127). -/

namespace Sys2Proof.Machine

/-! ## Bit fields of a register -/

/-- `field(F, raw) = raw[hi_F:lo_F]`, zero-extended to a byte (R26). -/
def getSpan (s : Span) (raw : Byte) : Byte :=
  (raw >>> s.lo) &&& BitVec.ofNat 8 (2 ^ s.width - 1)

/-- `with_field(F, raw, c) = (raw & ~mask_F) | (c << lo_F)` (R26). -/
def setSpan (s : Span) (raw c : Byte) : Byte :=
  (raw &&& ~~~s.mask) ||| ((c <<< s.lo) &&& s.mask)

/-- A code fits a field: `u(c) < 2^w_F` (R153, R157). -/
def fitsSpan (s : Span) (c : Byte) : Bool :=
  decide (c.toNat < 2 ^ s.width)

/-! ## Byte lanes of the ports -/

/-- Lane, or wire byte, `k` of the data operand: `a[8k+7:8k]` (R105, R126). -/
def byteAt (a : Operand) (k : Nat) : Byte := a.extractLsb' (8 * k) 8

/-- Bytes packed into `q`, byte `k` in `q[8k+7:8k]` (R105, R127). -/
def packBytes : List Byte → Result
  | [] => 0#128
  | b :: bs => b.setWidth 128 ||| (packBytes bs <<< 8)

/-- Binary32 lanes packed into `q`, lane `k` in `q[32k+31:32k]` (R127). -/
def packFloats : List F32 → Result
  | [] => 0#128
  | x :: xs => x.setWidth 128 ||| (packFloats xs <<< 32)

/-- `zext_128` (R11). -/
def zext128 {w : Nat} (v : BitVec w) : Result := v.setWidth 128

/-! ## Composites -/

/-- `LE16`: the byte at the lower address in bits 7:0 (R103). -/
def le16 (b0 b1 : Byte) : Half := b1 ++ b0

/-- `BE16`: the byte at the lower address in bits 15:8 (R104). -/
def be16 (b0 b1 : Byte) : Half := b0 ++ b1

/-- The 16-bit composite of an operand, `a[15:0]` (R126). -/
def halfOf (a : Operand) : Half := a.extractLsb' 0 16

/-- The binary32 operand of THRENC, `a[31:0]` (R126). -/
def floatOf (a : Operand) : F32 := a.extractLsb' 0 32

/-! ## The sensor configuration composite `sc` (44_channel_guards.md), read through the layout -/

/-- The code of a sensor configuration field in `sc`: SENSOR_CONFIG_1 is the low byte, SENSOR_CONFIG_2 the high one. -/
def scField (T : DeviceTables) (f : Field) (sc : Half) : Byte :=
  getSpan (T.fieldSpan f) (if T.fieldReg f = .sensorConfig1 then sc.extractLsb' 0 8 else sc.extractLsb' 8 8)

/-- MAG_CH_EN in `sc`. -/
def scChannels (T : DeviceTables) (sc : Half) : BitVec 4 := (scField T .magChEn sc).extractLsb' 0 4

/-- Z_RANGE in `sc`. -/
def scZRange (T : DeviceTables) (sc : Half) : BitVec 1 := (scField T .zRange sc).extractLsb' 0 1

/-- X_Y_RANGE in `sc`. -/
def scXYRange (T : DeviceTables) (sc : Half) : BitVec 1 := (scField T .xyRange sc).extractLsb' 0 1

/-- ANGLE_EN in `sc`. -/
def scAngle (T : DeviceTables) (sc : Half) : BitVec 2 := (scField T .angleEn sc).extractLsb' 0 2

/-- X/Y share one range bit, Z uses its own (R205). -/
def scRange (T : DeviceTables) (axis : Axis) (sc : Half) : BitVec 1 :=
  match axis with
  | .x => scXYRange T sc
  | .y => scXYRange T sc
  | .z => scZRange T sc

/-- The bit of an axis in an enabled set: bit 0 = X, bit 1 = Y, bit 2 = Z (R127). -/
def axisIn (axis : Axis) (set : BitVec 3) : Bool :=
  set.getLsbD (axisCode axis).toNat

end Sys2Proof.Machine
end

