-- ==== Sys2Proof/Machine/Ops.lean ====
section
/-! DEFINITION. The named operations over the state: answering a command, a fault among the answers (R271: this block's
taking of an exception; R277: there is no return from one), fetching the host's next action, the device's register file
and the bus transactions on it. -/

namespace Sys2Proof.Machine

abbrev Step := Host.Outcome State Fault Refusal

/-! ## Answering a command -/

/-- One more response on the response port (R300: in command order). -/
def State.push (s : State) (r : Response) : State :=
  { s with responses := s.responses ++ [r] }

/-- Every operation ends here: the reply goes on the response port and nothing else happens (R12, R271). -/
def answer (r : Reply) (s : State) : Step :=
  .next (s.push (respond r))

/-- A fault is only a response value: status the fault's code, `q` 0, no other effect, and the machine takes the next
command (R271, R272). -/
def raise (f : FaultKind) (s : State) : Step :=
  answer (.error f) s

/-- A command put on the command port (R120). -/
def State.present (s : State) (c : Command) : State :=
  { s with cmd := c }

/-! ## The host's side -/

/-- The host's next action and the state that waits for the one after it (R121). -/
def fetch (s : State) : Option (HostAction × State) :=
  match s.inputs with
  | [] => none
  | act :: rest => some (act, { s with inputs := rest })

/-- One more result of a bus primitive or host sequence. -/
def State.pushResult (s : State) (r : HostResult) : State :=
  { s with results := s.results ++ [r] }

/-- The session of a completed construction (R242). -/
def State.openSession (s : State) (v : Variant) (addr7 : BitVec 7) : State :=
  { s with session := some { variant := v, addr7 := addr7 } }

/-- The response to the last command; status 0, result 0 before any (log entry 2). -/
def State.lastResponse (s : State) : Response :=
  s.responses.getLastD { status := 0#4, q := 0#128 }

/-! ## The device's register file -/

/-- The register at a bus address byte; none above 0x1C (R109). -/
def regAt (addr : Nat) : Option Reg :=
  if addr < 32 then regOfCode (BitVec.ofNat 5 addr) else none

/-- What the device holds at an address nothing has written: the declared default (R92), and a free value where R291 says
that no source gives it: 0x0C, 0x0D and 0x10 to 0x1C. -/
def unlisted (addr : Nat) : Byte :=
  match regAt addr with
  | none => Config.powerOn addr
  | some r => if addr = 0x0C ∨ addr = 0x0D ∨ 0x10 ≤ addr then Config.powerOn addr else regDefault r

/-- `REG[addr]` (R21). -/
def Memory.read (m : Memory) (addr : Nat) : Byte :=
  match m with
  | [] => unlisted addr
  | (k, b) :: rest => if k = addr then b else Memory.read rest addr

/-- `REG[addr] := b`, keeping the canonical form: addresses strictly rising, nothing listed that `unlisted` says. -/
def Memory.write (m : Memory) (addr : Nat) (b : Byte) : Memory :=
  match m with
  | [] => if b = unlisted addr then [] else [(addr, b)]
  | (k, v) :: rest =>
    if addr < k then (if b = unlisted addr then (k, v) :: rest else (addr, b) :: (k, v) :: rest)
    else if addr = k then (if b = unlisted addr then rest else (addr, b) :: rest)
    else (k, v) :: Memory.write rest addr b

/-- Every listed address is above `lo`, at most 0x1C, strictly above the one before it, and differs from `unlisted`. -/
def Memory.wfAbove (lo : Nat) (m : Memory) : Bool :=
  match m with
  | [] => true
  | (k, b) :: rest => decide (lo ≤ k) && decide (k ≤ 0x1C) && decide (b ≠ unlisted k) && Memory.wfAbove (k + 1) rest

/-- The canonical form. -/
def Memory.wf (m : Memory) : Bool := Memory.wfAbove 0 m

/-- `n` registers from `addr` up, lowest address first (R102). -/
def Memory.readBytes (m : Memory) (addr n : Nat) : List Byte :=
  (List.range n).map fun k => m.read (addr + k)

/-! ## What the device does by itself -/

/-- The bits of a lane that no field covers (R28). -/
def Lane.uncovered : Lane → Byte
  | .field _ => 0#8
  | .bits hi lo => Span.mask ⟨hi, lo⟩

/-- The bits of a register that no field covers: they may read back differently from what was written (R298, U3). -/
def unassignedMask (T : DeviceTables) (r : Reg) : Byte :=
  match T.regLanes r with
  | [.bits 7 0] => 0#8
  | lanes => lanes.foldl (fun m l => m ||| l.uncovered) 0#8

/-- The bits of `REG[addr]` the device may change between two transactions: all of the result and status registers (R111),
elsewhere those no field covers (R298); all of them once it has strayed (U11). -/
def deviceMask (strayed : Bool) (addr : Nat) : Byte :=
  match regAt addr with
  | none => 0#8
  | some r => if strayed || decide (0x10 ≤ addr) then 0xFF#8 else unassignedMask tables r

/-- One change by the device, cut down to the bits it may change. -/
def deviceChange (strayed : Bool) (m : Memory) (c : Host.Cell) : Memory :=
  if c.1 ≤ 0x1C then
    m.write c.1 ((m.read c.1 &&& ~~~deviceMask strayed c.1) ||| (c.2 &&& deviceMask strayed c.1))
  else m

/-- What the world does before the coming transaction; a transport that works and a device that changes nothing where the
list has ended (log entry 7). -/
def State.envEvent (s : State) : EnvEvent :=
  s.env.headD { fails := false, changes := [] }

/-- The state a transaction finds: the device's own changes made, the event used up. -/
def State.settle (s : State) : State :=
  { s with
    regs := s.envEvent.changes.foldl (deviceChange s.strayed) s.regs
    env := s.env.tail }

/-! ## Bus transactions (R101, R102) -/

/-- What a sequence of the host comes to: a value, an end with a status code (R240), or a stop of the model. -/
inductive HostRun (α : Type) where
  | value (v : α) (s : State)
  | ended (status : BitVec 4) (s : State)
  | fault (f : Fault)
  | refused (r : Refusal)

/-- Go on with the value; every other outcome ends the sequence as it stands (R240). -/
def HostRun.andThen {α β : Type} (x : HostRun α) (k : α → State → HostRun β) : HostRun β :=
  match x with
  | .value v s => k v s
  | .ended st s => .ended st s
  | .fault f => .fault f
  | .refused r => .refused r

/-- One more transaction on the bus record. -/
def State.logBus (s : State) (e : BusEvent) : State :=
  { s with trace := s.trace ++ [e] }

/-- A byte that a landed write puts at an address takes the device out of what the spec describes: an I2C read mode other
than the first (R60, N32), or an update of the bus address (R82, N21). DESIGN CHOICE, unsafe (log entry 29): these two and no
others. A landed write that sets bits no field covers (0x00 bit 7, outside the sources the CRC enable; 0x03 bit 7; 0x07
bits 7:1; 0x08 bit 1) leaves the device within the spec and every later read framed as before, although N8 and N32 say not to
assume that the device ignores such bits. -/
def leavesSpec (addr : Nat) (b : Byte) : Bool :=
  (addr == 0x00 && b.extractLsb' 0 2 != 0#2) || (addr == 0x0C && b.getLsbD 0)

/-- A write frame has landed: the register holds the byte (R298). -/
def State.land (s : State) (addr : Nat) (b : Byte) : State :=
  { s with
    regs := s.regs.write addr b
    strayed := s.strayed || leavesSpec addr b }

/-- The primitive `write` (R101): a failed one leaves the registers as the device has them (R297). -/
def busWrite (addr7 : BitVec 7) (bytes : List Byte) (s : State) : HostRun Unit :=
  match bytes with
  | [p, b] =>
    if 0x1C < p.toNat then .fault (.noSuchRegister p.toNat)
    else if 0x0D ≤ p.toNat then .refused .readOnlyWrite
    else if s.envEvent.fails then .ended (statusCode .bus) (s.settle.logBus (.wrote addr7 bytes false))
    else .value () ((s.settle.land p.toNat b).logBus (.wrote addr7 bytes true))
  | _ => .refused .malformedFrame

/-- The primitive `writeRead` (R101, R102, R107). -/
def busWriteRead (addr7 : BitVec 7) (out : List Byte) (n : Nat) (s : State) : HostRun (List Byte) :=
  match out with
  | [p] =>
    if n = 1 ∨ n = 2 ∨ n = 8 then
      if 0x1C < p.toNat + (n - 1) then .fault (.noSuchRegister (p.toNat + (n - 1)))
      else if s.envEvent.fails then .ended (statusCode .bus) (s.settle.logBus (.read addr7 out n none))
      else
        .value (s.settle.regs.readBytes p.toNat n)
          (s.settle.logBus (.read addr7 out n (some (s.settle.regs.readBytes p.toNat n))))
    else .refused .malformedFrame
  | _ => .refused .malformedFrame

end Sys2Proof.Machine
end

