-- ==== Sys2Proof/Machine/Codec.lean ====
section
/-! DEFINITION. The register codec (41_register_codec.md): RDEF, RDEC, RENC, RCHK, FGET, FSET. Each operation is a pure
function to a reply (R12), for any `DeviceTables`, and a meaning that puts the reply on the response port. -/

namespace Sys2Proof.Machine

/-! ## Shared by the operations, for any tables (R7) -/

/-- The lanes of a raw byte, in lane order, each zero-extended (R152). -/
def decodeLanes (T : DeviceTables) (lanes : List Lane) (raw : Byte) : List Byte :=
  lanes.map fun l => getSpan (laneSpan T l) raw

/-- R153: lane `i` of the operand into the bits of lane `i`, from lane 0; the first lane that does not fit its field decides
the fault. `raw` holds the lanes already done. -/
def encodeLanes (T : DeviceTables) (a : Operand) : List Lane → Nat → Byte → Except FaultKind Byte
  | [], _, raw => .ok raw
  | l :: ls, i, raw =>
    if fitsSpan (laneSpan T l) (byteAt a i) then encodeLanes T a ls (i + 1) (setSpan (laneSpan T l) raw (byteAt a i))
    else .error .badOperand

/-- The code of a field in its register's raw byte, zero-extended (R26). -/
def fieldCodeIn (T : DeviceTables) (f : Field) (raw : Byte) : Byte := getSpan (T.fieldSpan f) raw

/-- R155: the fields of one register in ascending bit order; MalformedRegister on the first undefined code, else whether a
reserved member was seen. -/
def checkFields (T : DeviceTables) (raw : Byte) : List Field → Except FaultKind Bool
  | [] => .ok false
  | f :: fs =>
    if isUndefinedCode T f (fieldCodeIn T f raw).toNat then .error .malformedRegister
    else
      match checkFields T raw fs with
      | .ok seen => .ok (isReservedMember T f (fieldCodeIn T f raw).toNat || seen)
      | .error e => .error e

/-- The check of one register. -/
def checkReg (T : DeviceTables) (r : Reg) (raw : Byte) : Except FaultKind Bool :=
  checkFields T raw (regFields T r)

/-! ## Replies -/

/-- R154. -/
def rdefReply (reg : Reg) : Reply :=
  .ok (zext128 (regDefault reg))

/-- R152. -/
def rdecReply (T : DeviceTables) (reg : Reg) (a : Operand) : Reply :=
  .ok (packBytes (decodeLanes T (T.regLanes reg) (byteAt a 0)))

/-- R153. -/
def rencReply (T : DeviceTables) (reg : Reg) (a : Operand) : Reply :=
  match encodeLanes T a (T.regLanes reg) 0 0#8 with
  | .ok raw => .ok (zext128 raw)
  | .error e => .error e

/-- The result of RCHK (R127): the raw echoed, the flag in bit 16. -/
def checkResult (echo : Half) (seen : Bool) : Result :=
  zext128 echo ||| (zext128 (BitVec.ofBool seen) <<< 16)

/-- RCHK of one register (R155, `dual` = 0). -/
def checkSingle (T : DeviceTables) (reg : Reg) (raw : Byte) : Reply :=
  match checkReg T reg raw with
  | .ok seen => .ok (checkResult (raw.setWidth 16) seen)
  | .error e => .error e

/-- RCHK of a pair (R155, `dual` = 1): the register, then the one above it. A register with none above it starts no pair
(R124), so the second check is there in every decoded instruction. -/
def checkPair (T : DeviceTables) (reg : Reg) (lo hi : Byte) : Reply :=
  match checkReg T reg lo with
  | .error e => .error e
  | .ok seen =>
    match (nextReg T reg).map fun r => checkReg T r hi with
    | some (.error e) => .error e
    | some (.ok seen') => .ok (checkResult (le16 lo hi) (seen || seen'))
    | none => .ok (checkResult (le16 lo hi) seen)

/-- R155. -/
def rchkReply (T : DeviceTables) (dual : Bool) (reg : Reg) (a : Operand) : Reply :=
  if dual then checkPair T reg (byteAt a 0) (byteAt a 1) else checkSingle T reg (byteAt a 0)

/-- R156. -/
def fgetReply (T : DeviceTables) (f : Field) (a : Operand) : Reply :=
  let code := fieldCodeIn T f (byteAt a 0)
  if isUndefinedCode T f code.toNat then .error .malformedRegister
  else .ok (zext128 code ||| (zext128 (BitVec.ofBool (isReservedMember T f code.toNat)) <<< 8))

/-- R157. -/
def fsetReply (T : DeviceTables) (f : Field) (a : Operand) : Reply :=
  let c := byteAt a 1
  if fitsSpan (T.fieldSpan f) c = false then .error .badOperand
  else if isUndefinedCode T f c.toNat then .error .badOperand
  else .ok (zext128 (setSpan (T.fieldSpan f) (byteAt a 0) c))

/-! ## Meanings -/

/-- RDEF (R154). -/
def execRdef (reg : Reg) (s : State) : Step := answer (rdefReply reg) s

/-- RDEC (R152). -/
def execRdec (reg : Reg) (s : State) : Step := answer (rdecReply tables reg s.cmd.a) s

/-- RENC (R153). -/
def execRenc (reg : Reg) (s : State) : Step := answer (rencReply tables reg s.cmd.a) s

/-- RCHK (R155). -/
def execRchk (dual : Bool) (reg : Reg) (s : State) : Step := answer (rchkReply tables dual reg s.cmd.a) s

/-- FGET (R156). -/
def execFget (f : Field) (s : State) : Step := answer (fgetReply tables f s.cmd.a) s

/-- FSET (R157). -/
def execFset (f : Field) (s : State) : Step := answer (fsetReply tables f s.cmd.a) s

end Sys2Proof.Machine
end

