-- ==== Sys2Proof/Machine/Compose.lean ====
section
/-! DEFINITION. 16-bit composition and wire frames (42_composition_and_frames.md): PK16LE, PK16BE, UP16LE, UP16BE, WFRM,
RFRM. -/

namespace Sys2Proof.Machine

/-! ## Replies -/

/-- R170. -/
def pk16leReply (a : Operand) : Reply := .ok (zext128 (le16 (byteAt a 0) (byteAt a 1)))

/-- R171. -/
def pk16beReply (a : Operand) : Reply := .ok (zext128 (be16 (byteAt a 0) (byteAt a 1)))

/-- R172: wire byte 0 is the low half. -/
def up16leReply (a : Operand) : Reply :=
  .ok (packBytes [(halfOf a).extractLsb' 0 8, (halfOf a).extractLsb' 8 8])

/-- R173: wire byte 0 is the high half. -/
def up16beReply (a : Operand) : Reply :=
  .ok (packBytes [(halfOf a).extractLsb' 8 8, (halfOf a).extractLsb' 0 8])

/-- A register address as it goes on the wire (R101). -/
def addrByte (T : DeviceTables) (reg : Reg) : Byte := (T.regAddr reg).setWidth 8

/-- R174: a read-only register has no write frame. -/
def wfrmReply (T : DeviceTables) (reg : Reg) (a : Operand) : Reply :=
  if isReadOnly T reg then .error .badOperand else .ok (packBytes [addrByte T reg, byteAt a 0])

/-- The number of bytes of a read length (R124). -/
def lenBytes : ReadLen → Nat
  | .one => 1
  | .two => 2
  | .eight => 8

/-- R108: which reads the block frames. -/
def readAllowed (T : DeviceTables) (len : ReadLen) (reg : Reg) : Bool :=
  match len with
  | .one => true
  | .two => decide ((T.regAddr reg).toNat ≤ 0x1B)
  | .eight => T.regAddr reg == 0x10#5

/-- R175. -/
def rfrmReply (T : DeviceTables) (len : ReadLen) (reg : Reg) : Reply :=
  if readAllowed T len reg then .ok (packBytes [addrByte T reg, BitVec.ofNat 8 (lenBytes len)]) else .error .badOperand

/-! ## Meanings -/

/-- PK16LE (R170). -/
def execPk16le (s : State) : Step := answer (pk16leReply s.cmd.a) s

/-- PK16BE (R171). -/
def execPk16be (s : State) : Step := answer (pk16beReply s.cmd.a) s

/-- UP16LE (R172). -/
def execUp16le (s : State) : Step := answer (up16leReply s.cmd.a) s

/-- UP16BE (R173). -/
def execUp16be (s : State) : Step := answer (up16beReply s.cmd.a) s

/-- WFRM (R174). -/
def execWfrm (reg : Reg) (s : State) : Step := answer (wfrmReply tables reg s.cmd.a) s

/-- RFRM (R175). -/
def execRfrm (len : ReadLen) (reg : Reg) (s : State) : Step := answer (rfrmReply tables len reg) s

end Sys2Proof.Machine
end

