-- ==== Sys2Proof/Machine/Float.lean ====
section
/-! DEFINITION. IEEE-754 binary32 (R10, R216), on patterns. Every finite binary32 value is a whole number of units of
2^-149, and so every operation is: read the operands as exact integers of that unit, compute exactly, round once to
nearest, ties to even. -/

namespace Sys2Proof.Machine

/-- Bit 31: the sign. -/
def f32Sign (x : F32) : Bool := x.getLsbD 31

/-- Bits 30:23: the biased exponent. -/
def f32Exp (x : F32) : Nat := (x.extractLsb' 23 8).toNat

/-- Bits 22:0: the fraction. -/
def f32Frac (x : F32) : Nat := (x.extractLsb' 0 23).toNat

/-- `is_nan` (R10). -/
def isNaN (x : F32) : Bool := f32Exp x == 255 && f32Frac x != 0

/-- `is_inf` (R10). -/
def isInf (x : F32) : Bool := f32Exp x == 255 && f32Frac x == 0

/-- The magnitude in units of 2^-149. On an infinity it is 2^277, one step above the largest finite value. -/
def f32Mag (x : F32) : Nat :=
  if f32Exp x = 0 then f32Frac x else (2 ^ 23 + f32Frac x) * 2 ^ (f32Exp x - 1)

/-- The signed value in units of 2^-149. -/
def f32Units (x : F32) : Int :=
  if f32Sign x then -(f32Mag x : Int) else f32Mag x

/-- One binary32 step at magnitude `q` units: 1 up to 2^24, doubling with each binade above (R10). -/
def f32Ulp (q : Nat) : Nat := 2 ^ (Nat.log2 q - 23)

/-- The whole number nearest to `n / d`, ties to even. -/
def roundNearestEven (n d : Nat) : Nat :=
  if 2 * (n % d) > d ∨ (2 * (n % d) = d ∧ (n / d) % 2 = 1) then n / d + 1 else n / d

/-- The pattern, sign bit clear, of the binary32 value nearest to `n / d` units, ties to even; too large is infinity. The
exponent field and the fraction are one number, so a fraction that rounds up to 2^24 carries into the exponent. -/
def roundMag (n d : Nat) : Nat :=
  let ulp := f32Ulp (n / d)
  min ((Nat.log2 (n / d) - 23) * 2 ^ 23 + roundNearestEven n (d * ulp)) 0x7F800000

/-- Sign and magnitude pattern together. -/
def f32Pack (neg : Bool) (m : Nat) : F32 :=
  BitVec.ofNat 32 (m + if neg then 2 ^ 31 else 0)

/-- A quiet NaN whose sign and payload are free. -/
def f32NaN : F32 := 0x7FC00000#32 ||| (Config.nanPayload &&& 0x803FFFFF#32)

def f32Inf (neg : Bool) : F32 := f32Pack neg 0x7F800000

/-- `fneg` (R10): flips bit 31 and changes nothing else. -/
def fneg (x : F32) : F32 := x ^^^ 0x80000000#32

/-- `fabs` (R10): clears bit 31. -/
def fabs (x : F32) : F32 := x &&& 0x7FFFFFFF#32

/-- `f32_of_int` (R10), exact for `|k| < 2^24`. -/
def f32OfInt (k : Int) : F32 :=
  f32Pack (k < 0) (roundMag (k.natAbs * 2 ^ 149) 1)

/-- `fadd` (R10). An exact sum of zero is +0 unless both operands are -0. -/
def fadd (x y : F32) : F32 :=
  if isNaN x || isNaN y then f32NaN
  else if isInf x then (if isInf y && f32Sign x != f32Sign y then f32NaN else x)
  else if isInf y then y
  else
    let u := f32Units x + f32Units y
    if u = 0 then f32Pack (f32Sign x && f32Sign y) 0 else f32Pack (u < 0) (roundMag u.natAbs 1)

/-- `fsub` (R10). -/
def fsub (x y : F32) : F32 := fadd x (fneg y)

/-- `fmul` (R10). -/
def fmul (x y : F32) : F32 :=
  let neg := f32Sign x != f32Sign y
  if isNaN x || isNaN y then f32NaN
  else if isInf x || isInf y then (if f32Mag x = 0 ∨ f32Mag y = 0 then f32NaN else f32Inf neg)
  else f32Pack neg (roundMag (f32Mag x * f32Mag y) (2 ^ 149))

/-- `fdiv` (R10). -/
def fdiv (x y : F32) : F32 :=
  let neg := f32Sign x != f32Sign y
  if isNaN x || isNaN y then f32NaN
  else if isInf x then (if isInf y then f32NaN else f32Inf neg)
  else if isInf y then f32Pack neg 0
  else if f32Mag y = 0 then (if f32Mag x = 0 then f32NaN else f32Inf neg)
  else f32Pack neg (roundMag (f32Mag x * 2 ^ 149) (f32Mag y))

/-- `fgt` (R10): false if either is a NaN; an infinity is beyond every finite value. -/
def fgt (x y : F32) : Bool :=
  !isNaN x && !isNaN y && decide (f32Units x > f32Units y)

/-- `max` of R225. -/
def fmax (x y : F32) : F32 := if fgt x y then x else y

/-- `min` of R225. -/
def fmin (x y : F32) : F32 := if fgt y x then x else y

/-! ## The constants of R10 -/

def f32_25 : F32 := 0x41C80000#32
def f32_17508 : F32 := 0x4688C800#32
/-- The binary32 value nearest to 60.1. -/
def f32_60_1 : F32 := 0x42706666#32
def f32_32768 : F32 := 0x47000000#32
def f32_128 : F32 := 0x43000000#32
def f32_16 : F32 := 0x41800000#32
def f32_1 : F32 := 0x3F800000#32
def f32_neg1 : F32 := 0xBF800000#32

/-! ## Leaving binary32 -/

/-- `QUANT` with `THR_QUANT = trunc` (R226): the integer part, rounding toward zero. -/
def quantTrunc (x : F32) : Int := (f32Units x).tdiv (2 ^ 149)

/-- `QUANT` with `THR_QUANT = round_half_away` (R226): the nearest integer, halves away from zero. -/
def quantRound (x : F32) : Int :=
  let m : Int := ((2 * f32Mag x + 2 ^ 149) / 2 ^ 150 : Nat)
  if f32Sign x then -m else m

/-- The quantiser under either setting of the switch (R226). -/
def quant (t : Config.ThrQuant) (x : F32) : Int :=
  match t with
  | .trunc => quantTrunc x
  | .roundHalfAway => quantRound x

/-- `sat8` (R9). -/
def sat8 (k : Int) : Int := min 127 (max (-128) k)

/-- `tc8` (R9). -/
def tc8 (k : Int) : Byte := BitVec.ofInt 8 k

end Sys2Proof.Machine
end

