-- ==== Sys2Proof/Machine/Converters.lean ====
section
/-! DEFINITION. The scaling converters (45_scaling_converters.md): CVMAG, CVTEMP, CVANG, CVBURST, THRENC, THRDEC, GAIN,
MAGN, OFFENC, OFFDEC. Every binary32 operation is a separate one, in the order the rules write (R216). -/

namespace Sys2Proof.Machine

/-! ## The conversions -/

/-- R217: raw × range / 32768, the X axis negated. -/
def axisToMt (c : RangeClass) (r : RangeBit) (axis : Axis) (raw : Half) : F32 :=
  let val := fdiv (fmul (f32OfInt raw.toInt) (rangeF32 c r)) f32_32768
  match axis with
  | .x => fneg val
  | .y => val
  | .z => val

/-- R219: 25 + (raw - 17508) / 60.1, the raw unsigned. -/
def rawToCelsius (raw : Half) : F32 :=
  fadd f32_25 (fdiv (fsub (f32OfInt raw.toNat) f32_17508) f32_60_1)

/-- R221: `raw[15:4]` degrees and `raw[3:0]` sixteenths. -/
def rawToDegrees (raw : Half) : F32 :=
  let ip : BitVec 12 := raw.extractLsb' 4 12
  let fp : BitVec 4 := raw.extractLsb' 0 4
  fadd (f32OfInt ip.toNat) (fdiv (f32OfInt fp.toNat) f32_16)

/-- R225, after its two tests: the threshold over the range, clamped, times 128, quantised and saturated. -/
def mtToByte (t : Config.ThrQuant) (c : RangeClass) (r : RangeBit) (m : F32) : Byte :=
  let n := fmin f32_1 (fmax f32_neg1 (fdiv m (rangeF32 c r)))
  tc8 (sat8 (quant t (fmul n f32_128)))

/-- R228. -/
def byteToMt (c : RangeClass) (r : RangeBit) (raw : Byte) : F32 :=
  fmul (fdiv (f32OfInt raw.toInt) f32_128) (rangeF32 c r)

/-! ## Replies -/

/-- R217. -/
def cvmagReply (c : RangeClass) (r : RangeBit) (axis : Axis) (a : Operand) : Reply :=
  .ok (zext128 (axisToMt c r axis (halfOf a)))

/-- R219. -/
def cvtempReply (a : Operand) : Reply := .ok (zext128 (rawToCelsius (halfOf a)))

/-- R221. -/
def cvangReply (a : Operand) : Reply := .ok (zext128 (rawToDegrees (halfOf a)))

/-- The big-endian composite of wire bytes `2k` and `2k+1` of the burst (R223). -/
def burstHalf (a : Operand) (k : Nat) : Half := be16 (byteAt a (2 * k)) (byteAt a (2 * k + 1))

/-- R223: temperature, X, Y, Z from bytes 0-1, 2-3, 4-5, 6-7. -/
def cvburstReply (c : RangeClass) (rxy rz : RangeBit) (a : Operand) : Reply :=
  .ok (packFloats
    [rawToCelsius (burstHalf a 0), axisToMt c rxy .x (burstHalf a 1), axisToMt c rxy .y (burstHalf a 2),
     axisToMt c rz .z (burstHalf a 3)])

/-- R225: a NaN first, then the range. -/
def threncReply (t : Config.ThrQuant) (c : RangeClass) (r : RangeBit) (a : Operand) : Reply :=
  let m := floatOf a
  if isNaN m then .error .badOperand
  else if fgt (fabs m) (rangeF32 c r) then .error .outOfRange
  else .ok (zext128 (mtToByte t c r m))

/-- R228. -/
def thrdecReply (c : RangeClass) (r : RangeBit) (a : Operand) : Reply :=
  .ok (zext128 (byteToMt c r (byteAt a 0)))

/-- R231. -/
def gainReply (a : Operand) : Reply := .ok (zext128 (byteAt a 0))

/-- R232. -/
def magnReply (a : Operand) : Reply := .ok (zext128 (byteAt a 0))

/-- The angle check both offset operations keep, after which no value is formed (R233). -/
def offsetReply (T : DeviceTables) (sc : Half) : Reply :=
  if angleOff T (scAngle T sc) then .error .wrongMode else .error .unimplemented

/-- R233; the offset `a[63:32]` is never used. -/
def offencReply (T : DeviceTables) (a : Operand) : Reply := offsetReply T (halfOf a)

/-- R234; the two offset bytes `a[31:16]` are never used. -/
def offdecReply (T : DeviceTables) (a : Operand) : Reply := offsetReply T (halfOf a)

/-! ## Meanings -/

/-- CVMAG (R217). -/
def execCvmag (c : RangeClass) (r : RangeBit) (axis : Axis) (s : State) : Step := answer (cvmagReply c r axis s.cmd.a) s

/-- CVTEMP (R219). -/
def execCvtemp (s : State) : Step := answer (cvtempReply s.cmd.a) s

/-- CVANG (R221). -/
def execCvang (s : State) : Step := answer (cvangReply s.cmd.a) s

/-- CVBURST (R223). -/
def execCvburst (c : RangeClass) (rxy rz : RangeBit) (s : State) : Step := answer (cvburstReply c rxy rz s.cmd.a) s

/-- THRENC (R225, R226): the quantiser is the machine's setting of `THR_QUANT`. -/
def execThrenc (c : RangeClass) (r : RangeBit) (s : State) : Step := answer (threncReply s.thrQuant c r s.cmd.a) s

/-- THRDEC (R228). -/
def execThrdec (c : RangeClass) (r : RangeBit) (s : State) : Step := answer (thrdecReply c r s.cmd.a) s

/-- GAIN (R231). -/
def execGain (s : State) : Step := answer (gainReply s.cmd.a) s

/-- MAGN (R232). -/
def execMagn (s : State) : Step := answer (magnReply s.cmd.a) s

/-- OFFENC (R233). -/
def execOffenc (s : State) : Step := answer (offencReply tables s.cmd.a) s

/-- OFFDEC (R234). -/
def execOffdec (s : State) : Step := answer (offdecReply tables s.cmd.a) s

end Sys2Proof.Machine
end

