-- ==== Sys2Proof/Machine/Guards.lean ====
section
/-! DEFINITION. The channel guards (44_channel_guards.md): CHAXIS, CHALL, CHSET, TCHK, ANGCHK, RNGSEL. -/

namespace Sys2Proof.Machine

/-! ## Replies -/

/-- What CHAXIS and CHALL do before they look at a set (R200, R201): nothing enabled is WrongMode, a reserved member is
MalformedRegister. -/
def withChannels (T : DeviceTables) (sc : Half) (k : BitVec 3 → Reply) : Reply :=
  if channelsOff T (scChannels T sc) then .error .wrongMode
  else
    match channelSet T (scChannels T sc) with
    | none => .error .malformedRegister
    | some set => k set

/-- R200. -/
def chaxisReply (T : DeviceTables) (axis : Axis) (a : Operand) : Reply :=
  withChannels T (halfOf a) fun set => if axisIn axis set then .ok (zext128 set) else .error .channelDisabled

/-- R201: the selection must be "all-three exactly", code 7 (90_conflicts.md C8). -/
def challReply (T : DeviceTables) (a : Operand) : Reply :=
  withChannels T (halfOf a) fun set =>
    if isAllThree T (scChannels T (halfOf a)) then .ok (zext128 set) else .error .channelDisabled

/-- R202: code 0 is the empty set and no fault. -/
def chsetReply (T : DeviceTables) (a : Operand) : Reply :=
  match channelSet T (scChannels T (halfOf a)) with
  | none => .error .malformedRegister
  | some set => .ok (zext128 set)

/-- R203. -/
def tchkReply (T : DeviceTables) (a : Operand) : Reply :=
  let en : BitVec 1 := (getSpan (T.fieldSpan .tChEn) (byteAt a 0)).extractLsb' 0 1
  if T.codes.enable en then .ok 1#128 else .error .channelDisabled

/-- R204: ChannelDisabled, not WrongMode (90_conflicts.md C6). -/
def angchkReply (T : DeviceTables) (a : Operand) : Reply :=
  if angleOff T (scAngle T (halfOf a)) then .error .channelDisabled else .ok (zext128 (scAngle T (halfOf a)))

/-- R205. -/
def rngselReply (T : DeviceTables) (axis : Axis) (a : Operand) : Reply := .ok (zext128 (scRange T axis (halfOf a)))

/-! ## Meanings -/

/-- CHAXIS (R200). -/
def execChaxis (axis : Axis) (s : State) : Step := answer (chaxisReply tables axis s.cmd.a) s

/-- CHALL (R201). -/
def execChall (s : State) : Step := answer (challReply tables s.cmd.a) s

/-- CHSET (R202). -/
def execChset (s : State) : Step := answer (chsetReply tables s.cmd.a) s

/-- TCHK (R203). -/
def execTchk (s : State) : Step := answer (tchkReply tables s.cmd.a) s

/-- ANGCHK (R204). -/
def execAngchk (s : State) : Step := answer (angchkReply tables s.cmd.a) s

/-- RNGSEL (R205). -/
def execRngsel (axis : Axis) (s : State) : Step := answer (rngselReply tables axis s.cmd.a) s

end Sys2Proof.Machine
end

