-- ==== Sys2Proof/Machine/Variants.lean ====
section
/-! DEFINITION. Variant lookups and identity checks (43_variant_and_identity.md): VADDR, VDID, VCLS, VRNG, MIDCHK,
DIDCHK. -/

namespace Sys2Proof.Machine

/-! ## Replies -/

/-- R185. -/
def vaddrReply (v : Variant) : Reply := .ok (zext128 (variantAddr v))

/-- R186. -/
def vdidReply (v : Variant) : Reply := .ok (zext128 (classDeviceId (variantClass v)))

/-- R187. -/
def vclsReply (v : Variant) : Reply := .ok (zext128 (classCode (variantClass v)))

/-- R188. -/
def vrngReply (c : RangeClass) (r : RangeBit) : Reply := .ok (zext128 (rangeF32 c r))

/-- R191: the little-endian composite of the two id bytes against 0x5449. -/
def midchkReply (a : Operand) : Reply :=
  let mid := le16 (byteAt a 0) (byteAt a 1)
  if mid = manufacturerId then .ok (zext128 mid) else .error .wrongDevice

/-- R192: only VER is compared, and only with the variant's class. -/
def didchkReply (T : DeviceTables) (v : Variant) (a : Operand) : Reply :=
  let ver : BitVec 2 := (getSpan (T.fieldSpan .ver) (byteAt a 0)).extractLsb' 0 2
  if ver = classDeviceId (variantClass v) then .ok (zext128 ver) else .error .wrongDevice

/-! ## Meanings -/

/-- VADDR (R185). -/
def execVaddr (v : Variant) (s : State) : Step := answer (vaddrReply v) s

/-- VDID (R186). -/
def execVdid (v : Variant) (s : State) : Step := answer (vdidReply v) s

/-- VCLS (R187). -/
def execVcls (v : Variant) (s : State) : Step := answer (vclsReply v) s

/-- VRNG (R188). -/
def execVrng (c : RangeClass) (r : RangeBit) (s : State) : Step := answer (vrngReply c r) s

/-- MIDCHK (R191). -/
def execMidchk (s : State) : Step := answer (midchkReply s.cmd.a) s

/-- DIDCHK (R192). -/
def execDidchk (v : Variant) (s : State) : Step := answer (didchkReply tables v s.cmd.a) s

end Sys2Proof.Machine
end

