-- ==== Sys2Proof/Machine/Dispatch.lean ====
section
/-! DEFINITION. One arm per constructor of Instr, in the opcode map's order (R123). -/

namespace Sys2Proof.Machine

def exec (i : Instr) (s : State) : Host.Outcome State Fault Refusal :=
  match i with
  | .rdef reg => Sys2Proof.Machine.execRdef reg s
  | .rdec reg => Sys2Proof.Machine.execRdec reg s
  | .renc reg => Sys2Proof.Machine.execRenc reg s
  | .rchk dual reg => Sys2Proof.Machine.execRchk dual reg s
  | .fget f => Sys2Proof.Machine.execFget f s
  | .fset f => Sys2Proof.Machine.execFset f s
  | .pk16le => Sys2Proof.Machine.execPk16le s
  | .pk16be => Sys2Proof.Machine.execPk16be s
  | .up16le => Sys2Proof.Machine.execUp16le s
  | .up16be => Sys2Proof.Machine.execUp16be s
  | .wfrm reg => Sys2Proof.Machine.execWfrm reg s
  | .rfrm len reg => Sys2Proof.Machine.execRfrm len reg s
  | .vaddr v => Sys2Proof.Machine.execVaddr v s
  | .vdid v => Sys2Proof.Machine.execVdid v s
  | .vcls v => Sys2Proof.Machine.execVcls v s
  | .vrng c r => Sys2Proof.Machine.execVrng c r s
  | .midchk => Sys2Proof.Machine.execMidchk s
  | .didchk v => Sys2Proof.Machine.execDidchk v s
  | .chaxis axis => Sys2Proof.Machine.execChaxis axis s
  | .chall => Sys2Proof.Machine.execChall s
  | .chset => Sys2Proof.Machine.execChset s
  | .tchk => Sys2Proof.Machine.execTchk s
  | .angchk => Sys2Proof.Machine.execAngchk s
  | .rngsel axis => Sys2Proof.Machine.execRngsel axis s
  | .cvmag c r axis => Sys2Proof.Machine.execCvmag c r axis s
  | .cvtemp => Sys2Proof.Machine.execCvtemp s
  | .cvang => Sys2Proof.Machine.execCvang s
  | .cvburst c rxy rz => Sys2Proof.Machine.execCvburst c rxy rz s
  | .threnc c r => Sys2Proof.Machine.execThrenc c r s
  | .thrdec c r => Sys2Proof.Machine.execThrdec c r s
  | .gain => Sys2Proof.Machine.execGain s
  | .magn => Sys2Proof.Machine.execMagn s
  | .offenc => Sys2Proof.Machine.execOffenc s
  | .offdec => Sys2Proof.Machine.execOffdec s

end Sys2Proof.Machine
end

