-- ==== Sys2Proof/Machine/Sequences.lean ====
section
/-! DEFINITION. The host sequences of 46_host_macros.md and the generic accessors of R240, over block commands and the two
bus primitives. A sequence presents real instruction words to the block, reads its responses, and ends at the first
fault with the fault's status code. -/

namespace Sys2Proof.Machine

/-! ## Presenting commands -/

/-- One command and its response (R120, R121): a word that is no instruction answers IllegalOp (R128). -/
def runCommand (c : Command) (s : State) : Step :=
  match decode c.iw with
  | .ok i => exec i (s.present c)
  | .error _ => raise .illegalOp (s.present c)

/-- The command of an instruction and a data operand (R120). -/
def commandOf (i : Instr) (a : Operand) : Command :=
  { op := opOf i, sel := selOf i, a := a }

/-- R240: a block command inside a sequence: its result, or the end of the sequence with its fault. -/
def ask (i : Instr) (a : Operand) (s : State) : HostRun Result :=
  match runCommand (commandOf i a) s with
  | .next t => if t.lastResponse.status = 0#4 then .value t.lastResponse.q t else .ended t.lastResponse.status t
  | .fault f => .fault f
  | .refused r => .refused r

/-- Bytes laid into the data operand, byte `k` in `a[8k+7:8k]` (R105). -/
def operandOf (bs : List Byte) : Operand := (packBytes bs).setWidth 64

/-- Byte `k` of a result (R105). -/
def resultByte (q : Result) (k : Nat) : Byte := q.extractLsb' (8 * k) 8

/-- The 16-bit lane of a result. -/
def resultHalf (q : Result) : Half := q.extractLsb' 0 16

/-- Binary32 lane `k` of a result. -/
def resultFloat (q : Result) (k : Nat) : F32 := q.extractLsb' (32 * k) 32

/-! ## The accessors of R240 -/

/-- `MemWrite(reg, 1, x)` (R240). -/
def memWrite (addr7 : BitVec 7) (reg : Reg) (x : Byte) (s : State) : HostRun Unit :=
  (ask (.wfrm reg) (operandOf [x]) s).andThen fun q s => busWrite addr7 [resultByte q 0, resultByte q 1] s

/-- `MemRead(reg, n)` (R240). -/
def memRead (addr7 : BitVec 7) (reg : Reg) (len : ReadLen) (s : State) : HostRun (List Byte) :=
  (ask (.rfrm len reg) 0#64 s).andThen fun q s => busWriteRead addr7 [resultByte q 0] (q.extractLsb' 8 4).toNat s

/-- Read a two-byte pair and compose it little-endian (R103, R240). -/
def readPair (addr7 : BitVec 7) (reg : Reg) (s : State) : HostRun Half :=
  (memRead addr7 reg .two s).andThen fun b s =>
    (ask .pk16le (operandOf b) s).andThen fun q s => .value (resultHalf q) s

/-- Read a two-byte result and compose it big-endian (R104). -/
def readResult (addr7 : BitVec 7) (reg : Reg) (s : State) : HostRun Half :=
  (memRead addr7 reg .two s).andThen fun b s =>
    (ask .pk16be (operandOf b) s).andThen fun q s => .value (resultHalf q) s

/-- The sensor configuration composite `sc` (R247, R254). -/
def readSc (addr7 : BitVec 7) (s : State) : HostRun Half := readPair addr7 .sensorConfig1 s

/-- A composite as the data operand of a command. -/
def halfOperand (h : Half) : Operand := h.setWidth 64

/-- `writeRegister` (R240): encode the lanes, then write. DESIGN CHOICE (log entry 30): the rule leaves the encoding to RENC or to
a chain of FSET, and the model takes RENC. A reserved code of a class N field that fits its lane is then written, where a
chain of FSET would end with BadOperand. -/
def writeRegister (addr7 : BitVec 7) (reg : Reg) (lanes : Operand) (s : State) : HostRun Unit :=
  (ask (.renc reg) lanes s).andThen fun q s => memWrite addr7 reg (resultByte q 0) s

/-- `readRegister` (R240): read one byte, then decode it. -/
def readRegister (addr7 : BitVec 7) (reg : Reg) (s : State) : HostRun Result :=
  (memRead addr7 reg .one s).andThen fun b s => ask (.rdec reg) (operandOf b) s

/-- `readDualRegister` (R240): read two bytes, compose, decode each half. RFRM has refused a register with none above. -/
def readDualRegister (addr7 : BitVec 7) (reg : Reg) (s : State) : HostRun (Result × Result) :=
  (readPair addr7 reg s).andThen fun h s =>
    (ask (.rdec reg) (halfOperand (h.extractLsb' 0 8 |>.setWidth 16)) s).andThen fun q0 s =>
      match nextReg tables reg with
      | none => .ended (statusCode .badOperand) s
      | some reg' =>
        (ask (.rdec reg') (halfOperand (h.extractLsb' 8 8 |>.setWidth 16)) s).andThen fun q1 s => .value (q0, q1) s

/-! ## Builders (R150, R258) -/

/-- Zero or more FSETs on a raw byte. -/
def applySets : List (Field × Byte) → Byte → State → HostRun Byte
  | [], raw, s => .value raw s
  | (f, c) :: rest, raw, s =>
    (ask (.fset f) (operandOf [raw, c]) s).andThen fun q s => applySets rest (resultByte q 0) s

/-- RDEF, then the FSETs: "partial field specification with remaining fields defaulted" (R150). -/
def buildRaw (reg : Reg) (sets : List (Field × Byte)) (s : State) : HostRun Byte :=
  (ask (.rdef reg) 0#64 s).andThen fun q s => applySets sets (resultByte q 0) s

/-- Build a register's value and write it. -/
def writeBuilt (addr7 : BitVec 7) (reg : Reg) (sets : List (Field × Byte)) (s : State) : HostRun Unit :=
  (buildRaw reg sets s).andThen fun x s => memWrite addr7 reg x s

/-! ## Construction and identity (R241 to R246) -/

/-- The manufacturer id, read and checked (R246). -/
def readManufacturer (addr7 : BitVec 7) (s : State) : HostRun Half :=
  (memRead addr7 .manufacturerIdLsb .two s).andThen fun b s =>
    (ask .midchk (operandOf b) s).andThen fun q s => .value (resultHalf q) s

/-- The device id, read and checked against the variant (R245). -/
def readDeviceId (addr7 : BitVec 7) (v : Variant) (s : State) : HostRun Byte :=
  (memRead addr7 .deviceId .one s).andThen fun b s =>
    (ask (.didchk v) (operandOf b) s).andThen fun q s => .value ((q.extractLsb' 0 2).setWidth 8) s

/-- A construction starts without a session: on any fault none exists (R242, log entry 9). -/
def State.closeSession (s : State) : State := { s with session := none }

/-- ConstructWithAddress (R242). -/
def constructAt (addr7 : BitVec 7) (v : Variant) (s : State) : HostRun HostValue :=
  (readManufacturer addr7 s.closeSession).andThen fun _ s =>
    (readDeviceId addr7 v s).andThen fun _ s => .value .unit (s.openSession v addr7)

/-- Construct (R241). -/
def construct (v : Variant) (s : State) : HostRun HostValue :=
  (ask (.vaddr v) 0#64 s.closeSession).andThen fun q s => constructAt (q.extractLsb' 0 7) v s

/-- IsConnected (R243): every fault turns into false. -/
def isConnected (addr7 : BitVec 7) (s : State) : HostRun HostValue :=
  match readManufacturer addr7 s with
  | .value _ t => .value (.bool true) t
  | .ended _ t => .value (.bool false) t
  | .fault f => .fault f
  | .refused r => .refused r

/-- The code of "all-three" (R69, R244): 7. -/
def codeAllThree (T : DeviceTables) : Byte := codeWhere (isAllThree T)

/-- The code of a sleep time of 20000 ms (R68, R244): 0xC. -/
def codeSleep20s (T : DeviceTables) : Byte := codeWhere fun c => T.codes.sleeptime c == some 20000

/-- The code of the continuous mode (R63, R244): 2. -/
def codeContinuous (T : DeviceTables) : Byte := codeWhere fun c => T.codes.operatingMode c == .continuous

/-- The code of a range being high (R70, R71, R244): 1. -/
def codeHigh (T : DeviceTables) : Byte := codeWhere fun c => T.codes.range c == .high

/-- The code of an enable flag being on (R76, R244): 1. -/
def codeEnabled (T : DeviceTables) : Byte := codeWhere T.codes.enable

/-- InitDefault (R244): four writes in this order. -/
def initDefault (addr7 : BitVec 7) (s : State) : HostRun HostValue :=
  (writeBuilt addr7 .sensorConfig1 [(.magChEn, codeAllThree tables), (.sleeptime, codeSleep20s tables)] s).andThen fun _ s =>
    (writeBuilt addr7 .sensorConfig2 [(.zRange, codeHigh tables), (.xyRange, codeHigh tables)] s).andThen fun _ s =>
      (writeBuilt addr7 .tConfig [(.tChEn, codeEnabled tables)] s).andThen fun _ s =>
        (writeBuilt addr7 .deviceConfig2 [(.operatingMode, codeContinuous tables)] s).andThen fun _ s => .value .unit s

/-! ## Threshold, gain, offset (R247 to R252) -/

/-- 0x04 + axis (R247). -/
def thresholdReg : Axis → Reg
  | .x => .xThrConfig
  | .y => .yThrConfig
  | .z => .zThrConfig

/-- 0x12 + 2 · axis (R254). -/
def resultReg : Axis → Reg
  | .x => .xMsbResult
  | .y => .yMsbResult
  | .z => .zMsbResult

/-- RNGSEL on a composite (R205). -/
def selectRange (axis : Axis) (sc : Half) (s : State) : HostRun RangeBit :=
  (ask (.rngsel axis) (halfOperand sc) s).andThen fun q s => .value (rangeBitOfCode (q.extractLsb' 0 1)) s

/-- SetMagThreshold (R247): the write is the last step. -/
def setMagThreshold (x : Session) (threshold : F32) (axis : Axis) (s : State) : HostRun HostValue :=
  (readSc x.addr7 s).andThen fun sc s =>
    (selectRange axis sc s).andThen fun r s =>
      (ask (.threnc (variantClass x.variant) r) (threshold.setWidth 64) s).andThen fun q s =>
        (memWrite x.addr7 (thresholdReg axis) (resultByte q 0) s).andThen fun _ s => .value .unit s

/-- GetMagThreshold (R248). -/
def getMagThreshold (x : Session) (axis : Axis) (s : State) : HostRun HostValue :=
  (readSc x.addr7 s).andThen fun sc s =>
    (selectRange axis sc s).andThen fun r s =>
      (memRead x.addr7 (thresholdReg axis) .one s).andThen fun t s =>
        (ask (.thrdec (variantClass x.variant) r) (operandOf t) s).andThen fun q s => .value (.float (resultFloat q 0)) s

/-- SetMagneticGain (R249). -/
def setMagneticGain (x : Session) (g : Byte) (s : State) : HostRun HostValue :=
  (ask .gain (operandOf [g]) s).andThen fun q s =>
    (memWrite x.addr7 .magGainConfig (resultByte q 0) s).andThen fun _ s => .value .unit s

/-- GetMagneticGain (R250). -/
def getMagneticGain (x : Session) (s : State) : HostRun HostValue :=
  (memRead x.addr7 .magGainConfig .one s).andThen fun g s =>
    (ask .gain (operandOf g) s).andThen fun q s => .value (.code (resultByte q 0)) s

/-- SetMagneticOffset (R251): OFFENC always faults, and no write is ever issued. -/
def setMagneticOffset (x : Session) (offset : F32) (s : State) : HostRun HostValue :=
  (readSc x.addr7 s).andThen fun sc s =>
    (ask .offenc (offset ++ (0#16 ++ sc)) s).andThen fun _ s => .value .unit s

/-- GetMagneticOffset (R252): OFFDEC always faults, and no offset register is read. -/
def getMagneticOffset (x : Session) (s : State) : HostRun HostValue :=
  (readSc x.addr7 s).andThen fun sc s =>
    (ask .offdec (halfOperand sc) s).andThen fun _ s => .value .unit s

/-! ## Data getters (R253 to R257): the guard before the data read (R295) -/

/-- GetTemperature (R253). -/
def getTemperature (x : Session) (s : State) : HostRun HostValue :=
  (memRead x.addr7 .tConfig .one s).andThen fun t s =>
    (ask .tchk (operandOf t) s).andThen fun _ s =>
      (readResult x.addr7 .tMsbResult s).andThen fun h s =>
        (ask .cvtemp (halfOperand h) s).andThen fun q s => .value (.float (resultFloat q 0)) s

/-- GetMagData (R254). -/
def getMagData (x : Session) (axis : Axis) (s : State) : HostRun HostValue :=
  (readSc x.addr7 s).andThen fun sc s =>
    (ask (.chaxis axis) (halfOperand sc) s).andThen fun _ s =>
      (selectRange axis sc s).andThen fun r s =>
        (readResult x.addr7 (resultReg axis) s).andThen fun h s =>
          (ask (.cvmag (variantClass x.variant) r axis) (halfOperand h) s).andThen fun q s =>
            .value (.float (resultFloat q 0)) s

/-- GetAllData (R255): both guards, then the one burst. -/
def getAllData (x : Session) (s : State) : HostRun HostValue :=
  (readSc x.addr7 s).andThen fun sc s =>
    (ask .chall (halfOperand sc) s).andThen fun _ s =>
      (memRead x.addr7 .tConfig .one s).andThen fun t s =>
        (ask .tchk (operandOf t) s).andThen fun _ s =>
          (memRead x.addr7 .tMsbResult .eight s).andThen fun d s =>
            (ask (.cvburst (variantClass x.variant) (rangeBitOfCode (scXYRange tables sc)) (rangeBitOfCode (scZRange tables sc)))
              (operandOf d) s).andThen fun q s =>
              .value (.quad (resultFloat q 1) (resultFloat q 2) (resultFloat q 3) (resultFloat q 0)) s

/-- GetAngle (R256). -/
def getAngle (x : Session) (s : State) : HostRun HostValue :=
  (readSc x.addr7 s).andThen fun sc s =>
    (ask .angchk (halfOperand sc) s).andThen fun _ s =>
      (readResult x.addr7 .angleResultMsb s).andThen fun h s =>
        (ask .cvang (halfOperand h) s).andThen fun q s => .value (.float (resultFloat q 0)) s

/-- GetMagnitude (R257): no guard. -/
def getMagnitude (x : Session) (s : State) : HostRun HostValue :=
  (memRead x.addr7 .magnitudeResult .one s).andThen fun m s =>
    (ask .magn (operandOf m) s).andThen fun q s => .value (.code (resultByte q 0)) s

/-! ## Configuration groups (R258 to R262) -/

/-- The registers of a group, in ascending address order (R260 to R262). -/
def groupRegs : Group → List Reg
  | .device => [.deviceConfig1, .deviceConfig2]
  | .sensor => [.sensorConfig1, .sensorConfig2]
  | .interrupt => [.intConfig1]

/-- The member fields of a group: every field of its registers (R260 to R262). -/
def groupFields (g : Group) : List Field := (groupRegs g).flatMap (regFields tables)

/-- R258: register by register, built from the declared default and written. -/
def setRegs (addr7 : BitVec 7) : List Reg → List Byte → State → HostRun Unit
  | [], _, s => .value () s
  | r :: rs, codes, s =>
    (writeBuilt addr7 r ((regFields tables r).zip codes) s).andThen fun _ s =>
      setRegs addr7 rs (codes.drop (regFields tables r).length) s

/-- Group `set` (R258). -/
def setGroup (x : Session) (c : GroupConfig) (s : State) : HostRun HostValue :=
  if c.codes.length = (groupFields c.group).length then
    (setRegs x.addr7 (groupRegs c.group) c.codes s).andThen fun _ s => .value .unit s
  else .refused .malformedConfig

/-- FGET of each field in its register's raw byte (R259). -/
def getCodes : List (Field × Byte) → State → HostRun (List Byte)
  | [], s => .value [] s
  | (f, raw) :: rest, s =>
    (ask (.fget f) (operandOf [raw]) s).andThen fun q s =>
      (getCodes rest s).andThen fun codes s => .value (resultByte q 0 :: codes) s

/-- R259 for a pair of registers: one two-byte read, RCHK.D, then FGET of each field. -/
def getPair (x : Session) (g : Group) (lo hi : Reg) (s : State) : HostRun HostValue :=
  (readPair x.addr7 lo s).andThen fun h s =>
    (ask (.rchk true lo) (halfOperand h) s).andThen fun _ s =>
      (getCodes
        ((regFields tables lo).map (fun f => (f, h.extractLsb' 0 8)) ++ (regFields tables hi).map (fun f => (f, h.extractLsb' 8 8)))
        s).andThen fun codes s => .value (.config { group := g, codes := codes }) s

/-- R259 for a single register. -/
def getSingle (x : Session) (g : Group) (reg : Reg) (s : State) : HostRun HostValue :=
  (memRead x.addr7 reg .one s).andThen fun b s =>
    (ask (.rchk false reg) (operandOf b) s).andThen fun _ s =>
      (getCodes ((regFields tables reg).map fun f => (f, b.headD 0#8)) s).andThen fun codes s =>
        .value (.config { group := g, codes := codes }) s

/-- Group `get` (R259). -/
def getGroup (x : Session) (g : Group) (s : State) : HostRun HostValue :=
  match g with
  | .device => getPair x .device .deviceConfig1 .deviceConfig2 s
  | .sensor => getPair x .sensor .sensorConfig1 .sensorConfig2 s
  | .interrupt => getSingle x .interrupt .intConfig1 s

/-! ## Running a sequence -/

/-- "No other macro may run without a session" (R292). -/
def withSession (s : State) (k : Session → HostRun HostValue) : HostRun HostValue :=
  match s.session with
  | none => .refused .noSession
  | some x => k x

/-- One host sequence (R240 to R259). -/
def runCall (h : HostCall) (s : State) : HostRun HostValue :=
  match h with
  | .memWrite reg v => withSession s fun x => (memWrite x.addr7 reg v s).andThen fun _ s => .value .unit s
  | .memRead reg len => withSession s fun x => (memRead x.addr7 reg len s).andThen fun b s => .value (.bytes b) s
  | .writeRegister reg lanes =>
    withSession s fun x => (writeRegister x.addr7 reg lanes s).andThen fun _ s => .value .unit s
  | .readRegister reg => withSession s fun x => (readRegister x.addr7 reg s).andThen fun q s => .value (.lanes q) s
  | .readDualRegister reg =>
    withSession s fun x => (readDualRegister x.addr7 reg s).andThen fun q s => .value (.lanesPair q.1 q.2) s
  | .construct v => construct v s
  | .constructWithAddress addr7 v => constructAt addr7 v s
  | .isConnected => withSession s fun x => isConnected x.addr7 s
  | .initDefault => withSession s fun x => initDefault x.addr7 s
  | .getDeviceId =>
    withSession s fun x => (readDeviceId x.addr7 x.variant s).andThen fun d s => .value (.code d) s
  | .getManufacturerId => withSession s fun x => (readManufacturer x.addr7 s).andThen fun m s => .value (.half m) s
  | .setMagThreshold m axis => withSession s fun x => setMagThreshold x m axis s
  | .getMagThreshold axis => withSession s fun x => getMagThreshold x axis s
  | .setMagneticGain g => withSession s fun x => setMagneticGain x g s
  | .getMagneticGain => withSession s fun x => getMagneticGain x s
  | .setMagneticOffset m => withSession s fun x => setMagneticOffset x m s
  | .getMagneticOffset => withSession s fun x => getMagneticOffset x s
  | .getTemperature => withSession s fun x => getTemperature x s
  | .getMagData axis => withSession s fun x => getMagData x axis s
  | .getAllData => withSession s fun x => getAllData x s
  | .getAngle => withSession s fun x => getAngle x s
  | .getMagnitude => withSession s fun x => getMagnitude x s
  | .setGroup c => withSession s fun x => setGroup x c s
  | .getGroup g => withSession s fun x => getGroup x g s

/-- What the host gets from a sequence or primitive goes on its record; a stop stops the machine. -/
def finish (x : HostRun HostValue) : Step :=
  match x with
  | .value v s => .next (s.pushResult (.returned v))
  | .ended st s => .next (s.pushResult (.failed st))
  | .fault f => .fault f
  | .refused r => .refused r

/-- One action of the host. -/
def runAction (act : HostAction) (s : State) : Step :=
  match act with
  | .command c => runCommand c s
  | .busWrite addr7 bytes => finish ((busWrite addr7 bytes s).andThen fun _ s => .value .unit s)
  | .busWriteRead addr7 out n => finish ((busWriteRead addr7 out n s).andThen fun b s => .value (.bytes b) s)
  | .call h => finish (runCall h s)

end Sys2Proof.Machine
end

