-- ==== Sys2Proof/Machine/Step.lean ====
section
/-! DEFINITION. One step: the host's next action. The block fetches nothing (R121); a command is what the host presents. -/

namespace Sys2Proof.Machine

/-- One step of block, host and device: the next action of the host's program order, and nothing where there is none. -/
def step (s : State) : Host.Outcome State Fault Refusal :=
  match fetch s with
  | some (act, s') => runAction act s'
  | none => .refused .noInput

/-- The instruction word `w` presented next, with the data operand that stands on the command port. An instruction is one
16-bit word (R120): `nbits` says how many of its bits `w` gives, the others are 0. -/
def State.withFetchWord (s : State) (nbits w : Nat) : State :=
  let iw : Half := BitVec.ofNat 16 (w % 2 ^ nbits)
  { s with inputs := .command { op := iw.extractLsb' 8 8, sel := iw.extractLsb' 0 8, a := s.cmd.a } :: s.inputs }

end Sys2Proof.Machine
end

