-- ==== Sys2Proof/Safety.lean ====
section
/-! DEFINITION. The terms the statements use: sound states and safe runs, the opcode table, and the spec's tables written
as numbers, apart from the model's own way of computing with them. -/

namespace Sys2Proof.Machine

/-! ## Sound states and runs -/

/-- A response the block may form (R120, R270, R271): status 0, or the code of a fault the block raises (not NotConnected,
not Bus, none of the unused codes) with a result of 0. -/
def Response.wf (r : Response) : Prop :=
  r.status = 0#4 ∨ (r.q = 0#128 ∧ r.status ≠ 1#4 ∧ r.status ≠ 7#4 ∧ r.status.toNat ≤ 10)

/-- The invariant of the machine: the register file has its canonical form and every response is one the block may form. -/
def State.Sound (s : State) : Prop :=
  s.regs.wf = true ∧ ∀ r ∈ s.responses, r.wf

/-- The identity the device shows while it is within the spec: the manufacturer id bytes of R44 and R45. -/
def State.IdentityHolds (s : State) : Prop :=
  s.strayed = false → s.regs.read 0x0E = 0x49#8 ∧ s.regs.read 0x0F = 0x54#8

/-- A run of `n` steps. -/
def runs (n : Nat) (s : State) : Step :=
  Host.Core.run { State := State, Fault := Fault, Refusal := Refusal, step := step, reset := State.reset } n s

/-- No step of a run of `n` steps stops. -/
def Safe (n : Nat) (s : State) : Prop := ∃ t, runs n s = .next t

/-! ## Responses -/

/-- The response of an instruction to a data operand, in a state; status 15 (never produced, R270) where there is none. -/
def responseOf (i : Instr) (a : Operand) (s : State) : Response :=
  match exec i (s.present { op := opOf i, sel := selOf i, a := a }) with
  | .next t => t.lastResponse
  | _ => { status := 15#4, q := 0#128 }

/-- The response to a command presented to a block just reset, under a setting of `THR_QUANT`. -/
def answerTo (t : Config.ThrQuant) (c : Command) : Response :=
  match runCommand c { State.reset with thrQuant := t } with
  | .next u => u.lastResponse
  | _ => { status := 15#4, q := 0#128 }

/-! ## The opcode table as numbers (R122, R123, R124) -/

/-- The formats of R122. -/
inductive Format where
  | z | r | rd | rl | f | v | s | sa | b | x
deriving DecidableEq, Repr

/-- The legal values of the selector sub-fields of a format (R124). -/
def Format.legal (fm : Format) (w : Half) : Bool :=
  match fm with
  | .z | .v | .s | .b => true
  | .r => decide (w.toNat % 32 ≤ 0x1C)
  | .rd =>
    decide (w.toNat % 32 ≤ 0x1C) &&
      (!w.getLsbD 7 || w.toNat % 32 == 0x00 || w.toNat % 32 == 0x02 || w.toNat % 32 == 0x0E)
  | .rl => decide (w.toNat % 32 ≤ 0x1C) && decide (w.toNat / 32 % 4 ≠ 3)
  | .f => decide (w.toNat % 64 ≤ 0x21)
  | .sa | .x => decide (w.toNat % 4 ≠ 3)

/-- A row of spec/opcode_table.json: the bits a word must show under a mask, and the format. -/
structure OpcodeRow where
  pattern : Half
  mask : Half
  format : Format
deriving DecidableEq, Repr

/-- The rows of spec/opcode_table.json, in its order. -/
def opcodeTable : List OpcodeRow :=
  [⟨0x0100#16, 0xFFE0#16, .r⟩, ⟨0x0200#16, 0xFFE0#16, .r⟩, ⟨0x0300#16, 0xFFE0#16, .r⟩, ⟨0x0400#16, 0xFF60#16, .rd⟩,
   ⟨0x0500#16, 0xFFC0#16, .f⟩, ⟨0x0600#16, 0xFFC0#16, .f⟩, ⟨0x0800#16, 0xFFFF#16, .z⟩, ⟨0x0900#16, 0xFFFF#16, .z⟩,
   ⟨0x0A00#16, 0xFFFF#16, .z⟩, ⟨0x0B00#16, 0xFFFF#16, .z⟩, ⟨0x0C00#16, 0xFFE0#16, .r⟩, ⟨0x0D00#16, 0xFF80#16, .rl⟩,
   ⟨0x1000#16, 0xFFF8#16, .v⟩, ⟨0x1100#16, 0xFFF8#16, .v⟩, ⟨0x1200#16, 0xFFF8#16, .v⟩, ⟨0x1300#16, 0xFFF3#16, .s⟩,
   ⟨0x1400#16, 0xFFFF#16, .z⟩, ⟨0x1500#16, 0xFFF8#16, .v⟩, ⟨0x1800#16, 0xFFFC#16, .x⟩, ⟨0x1900#16, 0xFFFF#16, .z⟩,
   ⟨0x1A00#16, 0xFFFF#16, .z⟩, ⟨0x1B00#16, 0xFFFF#16, .z⟩, ⟨0x1C00#16, 0xFFFF#16, .z⟩, ⟨0x1D00#16, 0xFFFC#16, .x⟩,
   ⟨0x2000#16, 0xFFF0#16, .sa⟩, ⟨0x2100#16, 0xFFFF#16, .z⟩, ⟨0x2200#16, 0xFFFF#16, .z⟩, ⟨0x2300#16, 0xFFF4#16, .b⟩,
   ⟨0x2400#16, 0xFFF3#16, .s⟩, ⟨0x2500#16, 0xFFF3#16, .s⟩, ⟨0x2600#16, 0xFFFF#16, .z⟩, ⟨0x2700#16, 0xFFFF#16, .z⟩,
   ⟨0x2800#16, 0xFFFF#16, .z⟩, ⟨0x2900#16, 0xFFFF#16, .z⟩]

/-! ## The codec's tables as numbers -/

/-- A row of R86: the field, its `fid`, the address of its register, its bits `hi:lo`, its class. -/
structure FieldRow where
  field : Field
  fid : Nat
  addr : Nat
  hi : Nat
  lo : Nat
  cls : FieldClass
deriving DecidableEq, Repr

/-- The table of R86, in its order. -/
def fieldTable : List FieldRow :=
  [⟨.i2cRd, 0x00, 0x00, 1, 0, .exhaustive⟩, ⟨.convAvg, 0x01, 0x00, 4, 2, .nonExhaustive⟩,
   ⟨.magTempco, 0x02, 0x00, 6, 5, .exhaustive⟩, ⟨.operatingMode, 0x03, 0x01, 1, 0, .exhaustive⟩,
   ⟨.triggerMode, 0x04, 0x01, 2, 2, .plain⟩, ⟨.i2cGlitchFilter, 0x05, 0x01, 3, 3, .plain⟩,
   ⟨.lpLn, 0x06, 0x01, 4, 4, .plain⟩, ⟨.thrHyst, 0x07, 0x01, 7, 5, .nonExhaustive⟩,
   ⟨.sleeptime, 0x08, 0x02, 3, 0, .nonExhaustive⟩, ⟨.magChEn, 0x09, 0x02, 7, 4, .exhaustive⟩,
   ⟨.zRange, 0x0A, 0x03, 0, 0, .plain⟩, ⟨.xyRange, 0x0B, 0x03, 1, 1, .plain⟩,
   ⟨.angleEn, 0x0C, 0x03, 3, 2, .exhaustive⟩, ⟨.magGainCh, 0x0D, 0x03, 4, 4, .plain⟩,
   ⟨.magThrDir, 0x0E, 0x03, 5, 5, .plain⟩, ⟨.thrxCount, 0x0F, 0x03, 6, 6, .plain⟩,
   ⟨.tChEn, 0x10, 0x07, 0, 0, .plain⟩] ++
  [⟨.maskIntb, 0x11, 0x08, 0, 0, .plain⟩, ⟨.intMode, 0x12, 0x08, 4, 2, .nonExhaustive⟩,
   ⟨.intState, 0x13, 0x08, 5, 5, .plain⟩, ⟨.thrsldInt, 0x14, 0x08, 6, 6, .plain⟩,
   ⟨.rsltInt, 0x15, 0x08, 7, 7, .plain⟩, ⟨.i2cAddressUpdateEn, 0x16, 0x0C, 0, 0, .plain⟩,
   ⟨.i2cAddress, 0x17, 0x0C, 7, 1, .plain⟩, ⟨.ver, 0x18, 0x0D, 1, 0, .plain⟩,
   ⟨.resultStatus, 0x19, 0x18, 0, 0, .plain⟩, ⟨.diagStatus, 0x1A, 0x18, 1, 1, .plain⟩,
   ⟨.por, 0x1B, 0x18, 4, 4, .plain⟩, ⟨.setCount, 0x1C, 0x18, 7, 5, .plain⟩,
   ⟨.vccUvEr, 0x1D, 0x1C, 0, 0, .plain⟩, ⟨.otpCrcEr, 0x1E, 0x1C, 1, 1, .plain⟩,
   ⟨.intEr, 0x1F, 0x1C, 2, 2, .plain⟩, ⟨.oscEr, 0x20, 0x1C, 3, 3, .plain⟩,
   ⟨.intbRb, 0x21, 0x1C, 4, 4, .plain⟩]

/-- A register of R24 with its lanes of R30 to R58: its address and the bits `hi:lo` of lane 0, lane 1, … -/
structure RegisterRow where
  reg : Reg
  addr : Nat
  lanes : List (Nat × Nat)
deriving DecidableEq, Repr

/-- The registers of R24, in its order, with the lane lists of R30 to R58. -/
def registerTable : List RegisterRow :=
  [⟨.deviceConfig1, 0x00, [(1, 0), (4, 2), (6, 5), (7, 7)]⟩,
   ⟨.deviceConfig2, 0x01, [(1, 0), (2, 2), (3, 3), (4, 4), (7, 5)]⟩,
   ⟨.sensorConfig1, 0x02, [(3, 0), (7, 4)]⟩,
   ⟨.sensorConfig2, 0x03, [(0, 0), (1, 1), (3, 2), (4, 4), (5, 5), (6, 6), (7, 7)]⟩,
   ⟨.xThrConfig, 0x04, [(7, 0)]⟩, ⟨.yThrConfig, 0x05, [(7, 0)]⟩, ⟨.zThrConfig, 0x06, [(7, 0)]⟩,
   ⟨.tConfig, 0x07, [(0, 0), (7, 1)]⟩,
   ⟨.intConfig1, 0x08, [(0, 0), (1, 1), (4, 2), (5, 5), (6, 6), (7, 7)]⟩,
   ⟨.magGainConfig, 0x09, [(7, 0)]⟩, ⟨.magOffsetConfig1, 0x0A, [(7, 0)]⟩, ⟨.magOffsetConfig2, 0x0B, [(7, 0)]⟩,
   ⟨.i2cAddress, 0x0C, [(0, 0), (7, 1)]⟩, ⟨.deviceId, 0x0D, [(1, 0), (7, 2)]⟩,
   ⟨.manufacturerIdLsb, 0x0E, [(7, 0)]⟩, ⟨.manufacturerIdMsb, 0x0F, [(7, 0)]⟩] ++
  [⟨.tMsbResult, 0x10, [(7, 0)]⟩, ⟨.tLsbResult, 0x11, [(7, 0)]⟩, ⟨.xMsbResult, 0x12, [(7, 0)]⟩,
   ⟨.xLsbResult, 0x13, [(7, 0)]⟩, ⟨.yMsbResult, 0x14, [(7, 0)]⟩, ⟨.yLsbResult, 0x15, [(7, 0)]⟩,
   ⟨.zMsbResult, 0x16, [(7, 0)]⟩, ⟨.zLsbResult, 0x17, [(7, 0)]⟩,
   ⟨.convStatus, 0x18, [(0, 0), (1, 1), (3, 2), (4, 4), (7, 5)]⟩,
   ⟨.angleResultMsb, 0x19, [(7, 0)]⟩, ⟨.angleResultLsb, 0x1A, [(7, 0)]⟩, ⟨.magnitudeResult, 0x1B, [(7, 0)]⟩,
   ⟨.deviceStatus, 0x1C, [(0, 0), (1, 1), (2, 2), (3, 3), (4, 4), (7, 5)]⟩]

/-- The lanes, taken in order, start at bit `n`, follow one another without a gap and end at bit 7 (R151). -/
def tilesFrom (T : DeviceTables) : Nat → List Lane → Bool
  | n, [] => n == 8
  | n, l :: ls =>
    (laneSpan T l).lo == n && decide ((laneSpan T l).lo ≤ (laneSpan T l).hi) && tilesFrom T ((laneSpan T l).hi + 1) ls

/-- The lanes of a register under a layout cover its eight bits, in ascending order (R151). -/
abbrev DeviceTables.tiles (T : DeviceTables) (reg : Reg) : Prop := tilesFrom T 0 (T.regLanes reg) = true

/-- Under a layout a field lies in a byte (R26). -/
abbrev DeviceTables.inByte (T : DeviceTables) (f : Field) : Prop :=
  (T.fieldSpan f).lo ≤ (T.fieldSpan f).hi ∧ (T.fieldSpan f).hi ≤ 7

/-- Under a layout two fields share no bit (R26). -/
abbrev DeviceTables.apart (T : DeviceTables) (f g : Field) : Prop :=
  (T.fieldSpan f).hi < (T.fieldSpan g).lo ∨ (T.fieldSpan g).hi < (T.fieldSpan f).lo

/-- The number of values a lane can hold: `2^w` (R153). -/
def laneSize (l : Lane) : Nat := 2 ^ (l.span.hi + 1 - l.span.lo)

/-- What a raw byte holds in a lane, as a number: `raw[hi:lo]` (R152). -/
def laneIn (l : Lane) (raw : Nat) : Nat := raw / 2 ^ l.span.lo % laneSize l

/-- Lane `i` of the data operand, as a number: `a[8i+7:8i]` (R126). -/
def operandLane (a : Operand) (i : Nat) : Nat := a.toNat / 2 ^ (8 * i) % 256

/-- The number of codes of a field: `2^w_F` (R26). -/
def fieldSize (f : Field) : Nat := 2 ^ ((fieldSpan f).hi + 1 - (fieldSpan f).lo)

/-- What bit 0 of a field's code counts in the register's raw byte: `2^lo_F` (R26). -/
def fieldUnit (f : Field) : Nat := 2 ^ (fieldSpan f).lo

/-- The code of a field in a raw byte, as a number (R26). -/
def codeIn (f : Field) (raw : Nat) : Nat := raw / fieldUnit f % fieldSize f

/-- The codes on which FGET and RCHK raise MalformedRegister and FSET raises BadOperand (R86, R156). -/
abbrev malformedCode (f : Field) (code : Nat) : Prop :=
  (f = .convAvg ∧ 6 ≤ code) ∨ (f = .thrHyst ∧ 2 ≤ code) ∨ (f = .sleeptime ∧ 0xD ≤ code) ∨ (f = .intMode ∧ 5 ≤ code)

/-- The codes that are reserved members (R86, R156). -/
abbrev reservedMember (f : Field) (code : Nat) : Prop :=
  (f = .i2cRd ∧ code = 3) ∨ (f = .magTempco ∧ code = 2) ∨ (f = .magChEn ∧ 0xC ≤ code)

/-- The bits of `a` that R126 names for an instruction. -/
def namedBits : Instr → Operand
  | .rdef _ | .rfrm _ _ | .vaddr _ | .vdid _ | .vcls _ | .vrng _ _ => 0#64
  | .rdec _ | .fget _ | .wfrm _ | .didchk _ | .tchk | .thrdec _ _ | .gain | .magn => 0xFF#64
  | .renc reg => BitVec.ofNat 64 (2 ^ (8 * (regLanes reg).length) - 1)
  | .rchk dual _ => if dual then 0xFFFF#64 else 0xFF#64
  | .fset _ | .pk16le | .pk16be | .up16le | .up16be | .midchk => 0xFFFF#64
  | .chaxis _ | .chall | .chset | .angchk | .rngsel _ | .cvmag _ _ _ | .cvtemp | .cvang => 0xFFFF#64
  | .cvburst _ _ _ => 0xFFFFFFFFFFFFFFFF#64
  | .threnc _ _ => 0xFFFFFFFF#64
  | .offenc => 0xFFFFFFFF0000FFFF#64
  | .offdec => 0xFFFFFFFF#64

/-! ## The converters' tables as numbers -/

/-- The range of R90 in millitesla. -/
def rangeMt : RangeClass → RangeBit → Nat
  | .class1, .low => 40
  | .class1, .high => 80
  | .class2, .low => 133
  | .class2, .high => 266

/-- One unit of `f32Units` is 2^-149: the number of units in 1. -/
def f32One : Nat := 2 ^ 149

/-- A finite binary32 value. -/
abbrev f32Finite (x : F32) : Prop := isNaN x = false ∧ isInf x = false

/-- The integer nearest to `u` units, halves away from zero (R226). -/
def nearestAway (u : Int) : Int :=
  u.sign * ((2 * (u.natAbs : Int) + f32One) / (2 * f32One))

/-- The quantiser of R226 on a number of units, before saturation. -/
def quantUnits (t : Config.ThrQuant) (u : Int) : Int :=
  match t with
  | .trunc => u.tdiv f32One
  | .roundHalfAway => nearestAway u

end Sys2Proof.Machine
end

