-- ==== Sys2Proof/Certificates/Slice0/Obligations.lean ====
section
/-! DEFINITION. The statements for the provers. A value in units is a number of 2^-149, the unit of binary32. -/

open Sys2Proof Sys2Proof.Machine

/-! ## Encoding -/

/-- R122 to R124, R128: decoding the encoding of a well-formed instruction gives it back, every operand at every value:
under the address map of R24, and under any other `REG_ADDR` that gives different registers different addresses (R7). -/
def Obligations.DecodeInvertsEncode : Prop :=
  (∀ i : Instr, i.wellFormed = true → decode (encode i) = .ok i) ∧
  ∀ regAddr : Reg → BitVec 5, (∀ r r', regAddr r = regAddr r' → r = r') →
    ∀ i : Instr, i.wellFormed = true → decodeWith regAddr (encodeWith regAddr i) = .ok i

/-- R128: a word that decodes is the encoding of the well-formed instruction it decodes to, so no bit of it is dropped. -/
def Obligations.EncodeInvertsDecode : Prop :=
  ∀ (w : Half) (i : Instr), decode w = .ok i → i.wellFormed = true ∧ encode i = w

/-- R128: the words that decode are exactly those of the opcode table's rows with legal sub-fields; every other of the
65536 words is rejected. -/
def Obligations.DecodableWordsAreTableWords : Prop :=
  ∀ w : Half, (∃ i, decode w = .ok i) ↔ ∃ row ∈ opcodeTable, w &&& row.mask = row.pattern ∧ row.format.legal w = true

/-- Words written out from R122 and R123, one of each format, and the instructions they stand for. -/
def Obligations.SampleWordsDecode : Prop :=
  decode 0x0202#16 = .ok (.rdec .sensorConfig1) ∧
  decode 0x048E#16 = .ok (.rchk true .manufacturerIdLsb) ∧
  decode 0x0517#16 = .ok (.fget .i2cAddress) ∧
  decode 0x0800#16 = .ok .pk16le ∧
  decode 0x0D50#16 = .ok (.rfrm .eight .tMsbResult) ∧
  decode 0x1005#16 = .ok (.vaddr .c2) ∧
  decode 0x1308#16 = .ok (.vrng .class2 .low) ∧
  decode 0x1802#16 = .ok (.chaxis .z) ∧
  decode 0x2005#16 = .ok (.cvmag .class1 .high .y) ∧
  decode 0x2309#16 = .ok (.cvburst .class2 .low .high)

/-! ## Commands and responses -/

/-- R120, R121: when the host's next action is a command whose word decodes, the step is exec of that instruction,
with the action taken off the host's list and the command on the command port. The list of actions is the model's form
of the host (log entry 1). -/
def Obligations.StepRunsDecodedCommand : Prop :=
  ∀ (s : State) (c : Command) (rest : List HostAction) (i : Instr),
    s.inputs = .command c :: rest → decode c.iw = .ok i → step s = exec i { s with inputs := rest, cmd := c }

/-- R128, R271: a command whose word does not decode is answered with IllegalOp (status 9, result 0), and nothing else
happens but that the action leaves the host's list (log entry 1). -/
def Obligations.IllegalWordAnswersIllegalOp : Prop :=
  ∀ (s : State) (c : Command) (rest : List HostAction) (e : DecodeError),
    s.inputs = .command c :: rest → decode c.iw = .error e →
      step s = .next { s with inputs := rest, cmd := c, responses := s.responses ++ [{ status := 9#4, q := 0#128 }] }

/-- R120, R270, R271: every instruction, in every state, answers exactly one response, one the block may form, and changes
nothing else. -/
def Obligations.CommandAnswersOneResponse : Prop :=
  ∀ (i : Instr) (s : State), ∃ r : Response, r.wf ∧ exec i s = .next (s.push r)

/-- R20, R21, R22: the frame of all 34 instructions. No command writes `REG`, the session, or anything else outside
the response port; no byte of the register file changes, and the earlier responses stay. -/
def Obligations.CommandsLeaveEnvironmentAlone : Prop :=
  ∀ (i : Instr) (s t : State), exec i s = .next t →
    (∀ addr, t.regs.read addr = s.regs.read addr) ∧ t.regs = s.regs ∧ t.strayed = s.strayed ∧ t.session = s.session ∧
    t.results = s.results ∧ t.trace = s.trace ∧ t.env = s.env ∧ t.inputs = s.inputs ∧ t.cmd = s.cmd ∧
    t.thrQuant = s.thrQuant ∧ t.responses.dropLast = s.responses ∧ t.responses.length = s.responses.length + 1

/-- R12: the response is a function of the command and of the fixed parameter alone: whatever else two states hold, the
same command gives the same response in both. -/
def Obligations.ResponseDependsOnCommandAlone : Prop :=
  ∀ (i : Instr) (s t : State), s.cmd.a = t.cmd.a → s.thrQuant = t.thrQuant →
    ∃ r : Response, exec i s = .next (s.push r) ∧ exec i t = .next (t.push r)

/-- R126: bits of `a` that the operand layout does not name may hold anything and do not change the response. -/
def Obligations.UnnamedOperandBitsAreIgnored : Prop :=
  ∀ (i : Instr) (s t : State), s.cmd.a &&& namedBits i = t.cmd.a &&& namedBits i → s.thrQuant = t.thrQuant →
    ∃ r : Response, exec i s = .next (s.push r) ∧ exec i t = .next (t.push r)

/-- R12, R294, R300: commands presented one after another, of any words, are answered each exactly as if it were the
only one, in command order, and leave the environment as it was. The list of actions is the model's form of the host
(log entry 1). -/
def Obligations.CommandsAreAnsweredIndependentlyInOrder : Prop :=
  ∀ (cs : List Command) (rest : List HostAction) (s : State), s.inputs = cs.map HostAction.command ++ rest →
    ∃ t, runs cs.length s = .next t ∧ t.inputs = rest ∧ t.responses = s.responses ++ cs.map (answerTo s.thrQuant) ∧
      t.regs = s.regs ∧ t.strayed = s.strayed ∧ t.session = s.session ∧ t.results = s.results ∧ t.trace = s.trace ∧
      t.env = s.env ∧ t.thrQuant = s.thrQuant

/-! ## Register codec -/

/-- R154: RDEF answers the declared default: 0x49 for 0x0E, 0x54 for 0x0F, 0x00 for every other register. -/
def Obligations.RdefResult : Prop :=
  ∀ (reg : Reg) (s : State),
    encode (.rdef reg) = 0x01#8 ++ 0#3 ++ regCode reg ∧
    exec (.rdef reg) s =
      .next (s.push { status := 0#4
                      q := if regCode reg = 0x0E#5 then 0x49#128 else if regCode reg = 0x0F#5 then 0x54#128 else 0#128 })

/-- R152: RDEC succeeds on every raw byte of every register; lane `i` is `raw[hi_i:lo_i]`, and the other bits of the
result are 0. -/
def Obligations.RdecResult : Prop :=
  ∀ (reg : Reg) (s : State),
    encode (.rdec reg) = 0x02#8 ++ 0#3 ++ regCode reg ∧
    ∃ q : Result, exec (.rdec reg) s = .next (s.push { status := 0#4, q := q }) ∧
      (∀ i l, (regLanes reg)[i]? = some l →
        (q.extractLsb' (8 * i) 8).toNat = laneIn l (operandLane s.cmd.a 0)) ∧
      ∀ k, 8 * (regLanes reg).length ≤ k → q.getLsbD k = false

/-- R153: RENC puts lane `i` into bits `hi_i:lo_i` of the raw byte where every lane fits its field, and raises BadOperand
where one does not. -/
def Obligations.RencResult : Prop :=
  ∀ (reg : Reg) (s : State),
    encode (.renc reg) = 0x03#8 ++ 0#3 ++ regCode reg ∧
    ((∀ i l, (regLanes reg)[i]? = some l → operandLane s.cmd.a i < laneSize l) →
      ∃ raw : Byte, exec (.renc reg) s = .next (s.push { status := 0#4, q := raw.setWidth 128 }) ∧
        ∀ i l, (regLanes reg)[i]? = some l →
          laneIn l raw.toNat = operandLane s.cmd.a i) ∧
    ((∃ i l, (regLanes reg)[i]? = some l ∧ laneSize l ≤ operandLane s.cmd.a i) →
      exec (.renc reg) s = .next (s.push { status := 10#4, q := 0#128 }))

/-- R158: structural decode and encode are inverse: RENC of the lanes RDEC gives is the raw byte, for every raw byte, and
RDEC of what RENC gives is the lanes, wherever RENC does not fault. The same under any other tables, for every register
whose lanes cover its eight bits in order (R7, R151). -/
def Obligations.RegisterRoundTrip : Prop :=
  (∀ (reg : Reg) (a : Operand) (s : State),
    responseOf (.renc reg) ((responseOf (.rdec reg) a s).q.setWidth 64) s =
      { status := 0#4, q := (a.extractLsb' 0 8).setWidth 128 }) ∧
  (∀ (reg : Reg) (a : Operand) (s : State), (responseOf (.renc reg) a s).status = 0#4 →
    ∀ k, k < (regLanes reg).length →
      (responseOf (.rdec reg) ((responseOf (.renc reg) a s).q.setWidth 64) s).q.extractLsb' (8 * k) 8 =
        a.extractLsb' (8 * k) 8) ∧
  ∀ (T : DeviceTables) (reg : Reg), T.tiles reg →
    (∀ a : Operand, ∃ q, rdecReply T reg a = .ok q ∧
      rencReply T reg (q.setWidth 64) = .ok ((a.extractLsb' 0 8).setWidth 128)) ∧
    ∀ (a : Operand) (q : Result), rencReply T reg a = .ok q →
      ∃ p, rdecReply T reg (q.setWidth 64) = .ok p ∧
        ∀ k, k < (T.regLanes reg).length → p.extractLsb' (8 * k) 8 = a.extractLsb' (8 * k) 8

/-- R155: with `dual` = 0, MalformedRegister where some field of the register holds an undefined code; otherwise the raw
echoed, and bit 16 set exactly where some field holds a reserved member. With `dual` = 1, for the registers that start a
pair, the same over the fields of both registers, the first in the low byte of the composite and the one above it in the
high byte. -/
def Obligations.RchkResult : Prop :=
  (∀ (dual : Bool) (reg : Reg), encode (.rchk dual reg) = 0x04#8 ++ BitVec.ofBool dual ++ 0#2 ++ regCode reg) ∧
  (∀ (reg : Reg) (s : State),
    ((∃ f, fieldReg f = reg ∧ malformedCode f (codeIn f (operandLane s.cmd.a 0))) →
      exec (.rchk false reg) s = .next (s.push { status := 3#4, q := 0#128 })) ∧
    ((∀ f, fieldReg f = reg → ¬ malformedCode f (codeIn f (operandLane s.cmd.a 0))) →
      ((∃ f, fieldReg f = reg ∧ reservedMember f (codeIn f (operandLane s.cmd.a 0))) →
        exec (.rchk false reg) s =
          .next (s.push { status := 0#4, q := BitVec.ofNat 128 (operandLane s.cmd.a 0 + 65536) })) ∧
      ((∀ f, fieldReg f = reg → ¬ reservedMember f (codeIn f (operandLane s.cmd.a 0))) →
        exec (.rchk false reg) s = .next (s.push { status := 0#4, q := BitVec.ofNat 128 (operandLane s.cmd.a 0) })))) ∧
  ∀ (lo hi : Reg) (s : State), lo.startsPair = true → (regCode hi).toNat = (regCode lo).toNat + 1 →
    ((∃ f, (fieldReg f = lo ∧ malformedCode f (codeIn f (operandLane s.cmd.a 0))) ∨
        (fieldReg f = hi ∧ malformedCode f (codeIn f (operandLane s.cmd.a 1)))) →
      exec (.rchk true lo) s = .next (s.push { status := 3#4, q := 0#128 })) ∧
    ((∀ f, (fieldReg f = lo → ¬ malformedCode f (codeIn f (operandLane s.cmd.a 0))) ∧
        (fieldReg f = hi → ¬ malformedCode f (codeIn f (operandLane s.cmd.a 1)))) →
      ((∃ f, (fieldReg f = lo ∧ reservedMember f (codeIn f (operandLane s.cmd.a 0))) ∨
          (fieldReg f = hi ∧ reservedMember f (codeIn f (operandLane s.cmd.a 1)))) →
        exec (.rchk true lo) s =
          .next (s.push { status := 0#4, q := BitVec.ofNat 128 (s.cmd.a.toNat % 65536 + 65536) })) ∧
      ((∀ f, (fieldReg f = lo → ¬ reservedMember f (codeIn f (operandLane s.cmd.a 0))) ∧
          (fieldReg f = hi → ¬ reservedMember f (codeIn f (operandLane s.cmd.a 1)))) →
        exec (.rchk true lo) s =
          .next (s.push { status := 0#4, q := BitVec.ofNat 128 (s.cmd.a.toNat % 65536) })))

/-- R156: FGET answers the field's code with `rsv`, and raises MalformedRegister exactly where the field is class N and
its code is reserved. -/
def Obligations.FgetResult : Prop :=
  ∀ (f : Field) (s : State),
    encode (.fget f) = 0x05#8 ++ 0#2 ++ fieldCode f ∧
    (malformedCode f (codeIn f (operandLane s.cmd.a 0)) →
      exec (.fget f) s = .next (s.push { status := 3#4, q := 0#128 })) ∧
    (reservedMember f (codeIn f (operandLane s.cmd.a 0)) →
      exec (.fget f) s =
        .next (s.push { status := 0#4, q := BitVec.ofNat 128 (codeIn f (operandLane s.cmd.a 0) + 256) })) ∧
    (¬ malformedCode f (codeIn f (operandLane s.cmd.a 0)) → ¬ reservedMember f (codeIn f (operandLane s.cmd.a 0)) →
      exec (.fget f) s = .next (s.push { status := 0#4, q := BitVec.ofNat 128 (codeIn f (operandLane s.cmd.a 0)) }))

/-- R157: FSET puts a code that fits and is not reserved in class N into the field's bits and changes no other bit; a code
too wide, or a reserved code of a class N field, is BadOperand. -/
def Obligations.FsetResult : Prop :=
  ∀ (f : Field) (s : State),
    encode (.fset f) = 0x06#8 ++ 0#2 ++ fieldCode f ∧
    (fieldSize f ≤ operandLane s.cmd.a 1 ∨
        malformedCode f (operandLane s.cmd.a 1) →
      exec (.fset f) s = .next (s.push { status := 10#4, q := 0#128 })) ∧
    (operandLane s.cmd.a 1 < fieldSize f →
      ¬ malformedCode f (operandLane s.cmd.a 1) →
      exec (.fset f) s =
        .next (s.push
          { status := 0#4
            q := BitVec.ofNat 128
              (operandLane s.cmd.a 0 - codeIn f (operandLane s.cmd.a 0) * fieldUnit f +
                operandLane s.cmd.a 1 * fieldUnit f) }))

/-- R158: where FSET succeeds on a raw byte and a code, FGET of the same field that succeeds gives the code; FGET of any
other field of the register answers as before the FSET; and FSETs of different fields of one register commute. The first two
under any other tables too, for fields that lie in a byte and share no bit (R7, R26). -/
def Obligations.FieldInsertionLaws : Prop :=
  (∀ (f : Field) (a : Operand) (s : State), (responseOf (.fset f) a s).status = 0#4 →
    (responseOf (.fget f) ((responseOf (.fset f) a s).q.setWidth 64) s).status = 0#4 →
    (responseOf (.fget f) ((responseOf (.fset f) a s).q.setWidth 64) s).q.extractLsb' 0 8 = a.extractLsb' 8 8) ∧
  (∀ (f g : Field) (a : Operand) (s : State), fieldReg f = fieldReg g → f ≠ g →
    (responseOf (.fset f) a s).status = 0#4 →
    responseOf (.fget g) ((responseOf (.fset f) a s).q.setWidth 64) s = responseOf (.fget g) a s) ∧
  (∀ (f g : Field) (raw c d : Byte) (s : State), fieldReg f = fieldReg g → f ≠ g →
    (responseOf (.fset f) ((c ++ raw).setWidth 64) s).status = 0#4 →
    (responseOf (.fset g) ((d ++ raw).setWidth 64) s).status = 0#4 →
    responseOf (.fset g) ((d ++ (responseOf (.fset f) ((c ++ raw).setWidth 64) s).q.extractLsb' 0 8).setWidth 64) s =
      responseOf (.fset f) ((c ++ (responseOf (.fset g) ((d ++ raw).setWidth 64) s).q.extractLsb' 0 8).setWidth 64) s) ∧
  ∀ (T : DeviceTables) (f : Field) (a : Operand) (q : Result), T.inByte f → fsetReply T f a = .ok q →
    (∀ p, fgetReply T f (q.setWidth 64) = .ok p → p.extractLsb' 0 8 = a.extractLsb' 8 8) ∧
    ∀ g, T.inByte g → T.apart f g → fgetReply T g (q.setWidth 64) = fgetReply T g a

/-- R159: RCHK of the declared default of every register succeeds, and FGET of every field of it gives code 0. -/
def Obligations.DefaultsDecodeToCodeZero : Prop :=
  (∀ (reg : Reg) (s : State), (responseOf (.rchk false reg) ((responseOf (.rdef reg) 0#64 s).q.setWidth 64) s).status = 0#4) ∧
  ∀ (f : Field) (s : State),
    responseOf (.fget f) ((responseOf (.rdef (fieldReg f)) 0#64 s).q.setWidth 64) s = { status := 0#4, q := 0#128 }

/-- The tables the codec computes with are the spec's, number by number: the `fid`, register, bits and class of every field
are those of R86, the address of every register that of R24, and the bits and fields of its lanes those of R30 to R58. The
reserved codes of every field are those of R86, and (R60 to R62, R67 to R69, R78) exactly the codes to which the field's
enumeration gives no defined member. The rows of the nine status fields are log entry 17's reading. -/
def Obligations.CodecTablesMatchTheSpec : Prop :=
  (∀ row ∈ fieldTable, (fieldCode row.field).toNat = row.fid ∧ (regCode (fieldReg row.field)).toNat = row.addr ∧
    (fieldSpan row.field).hi = row.hi ∧ (fieldSpan row.field).lo = row.lo ∧ fieldClass row.field = row.cls) ∧
  (∀ f, ∃ row ∈ fieldTable, row.field = f) ∧
  (∀ row ∈ registerTable, (regCode row.reg).toNat = row.addr ∧
    (regLanes row.reg).map (fun l => (l.span.hi, l.span.lo)) = row.lanes ∧
    (regLanes row.reg).filterMap Lane.field? = (fieldTable.filter fun f => f.addr == row.addr).map FieldRow.field) ∧
  (∀ reg, ∃ row ∈ registerTable, row.reg = reg) ∧
  (∀ f code, code < fieldSize f → ((fieldReserved f).contains code = true ↔ malformedCode f code ∨ reservedMember f code)) ∧
  (∀ c, (fieldReserved .i2cRd).contains c.toNat = decide (i2cReadMode c = .reserved)) ∧
  (∀ c, (fieldReserved .convAvg).contains c.toNat = (conversionAveraging c).isNone) ∧
  (∀ c, (fieldReserved .magTempco).contains c.toNat = (magnetTempco c).isNone) ∧
  (∀ c, (fieldReserved .thrHyst).contains c.toNat = (thresholdHysteresis c).isNone) ∧
  (∀ c, (fieldReserved .sleeptime).contains c.toNat = (sleepTimeMs c).isNone) ∧
  (∀ c, (fieldReserved .magChEn).contains c.toNat = (channelSequence c).isNone) ∧
  (∀ c, (fieldReserved .intMode).contains c.toNat = (interruptMode c).isNone)

/-! ## Composition and frames -/

/-- R170 to R173: PK16LE and PK16BE put wire byte 0 into the low and the high half of the composite; UP16LE and UP16BE take
it from there. -/
def Obligations.CompositionResults : Prop :=
  ∀ s : State,
    (encode .pk16le = 0x0800#16 ∧ encode .pk16be = 0x0900#16 ∧ encode .up16le = 0x0A00#16 ∧ encode .up16be = 0x0B00#16) ∧
    exec .pk16le s = .next (s.push { status := 0#4, q := BitVec.ofNat 128 (s.cmd.a.toNat % 65536) }) ∧
    exec .pk16be s =
      .next (s.push { status := 0#4, q := BitVec.ofNat 128 (s.cmd.a.toNat % 256 * 256 + s.cmd.a.toNat / 256 % 256) }) ∧
    exec .up16le s = .next (s.push { status := 0#4, q := BitVec.ofNat 128 (s.cmd.a.toNat % 65536) }) ∧
    exec .up16be s =
      .next (s.push { status := 0#4, q := BitVec.ofNat 128 (s.cmd.a.toNat % 256 * 256 + s.cmd.a.toNat / 256 % 256) })

/-- R176: splitting a composite gives its bytes back and composing them gives the composite back, in either byte order, and
the two orders differ by a swap of the bytes. -/
def Obligations.CompositionRoundTrip : Prop :=
  ∀ (b0 b1 : Byte) (h : Half) (s : State),
    responseOf .up16le ((responseOf .pk16le ((b1 ++ b0).setWidth 64) s).q.setWidth 64) s =
      { status := 0#4, q := (b1 ++ b0).setWidth 128 } ∧
    responseOf .up16be ((responseOf .pk16be ((b1 ++ b0).setWidth 64) s).q.setWidth 64) s =
      { status := 0#4, q := (b1 ++ b0).setWidth 128 } ∧
    responseOf .pk16le ((responseOf .up16le (h.setWidth 64) s).q.setWidth 64) s = { status := 0#4, q := h.setWidth 128 } ∧
    responseOf .pk16be ((responseOf .up16be (h.setWidth 64) s).q.setWidth 64) s = { status := 0#4, q := h.setWidth 128 } ∧
    responseOf .pk16be ((b1 ++ b0).setWidth 64) s = responseOf .pk16le ((b0 ++ b1).setWidth 64) s

/-- R174: WFRM answers the register address and the value for a read-write register, and BadOperand from 0x0D up. -/
def Obligations.WfrmResult : Prop :=
  ∀ (reg : Reg) (s : State),
    encode (.wfrm reg) = 0x0C#8 ++ 0#3 ++ regCode reg ∧
    ((regCode reg).toNat < 0x0D →
      exec (.wfrm reg) s =
        .next (s.push { status := 0#4, q := BitVec.ofNat 128 ((regCode reg).toNat + 256 * (s.cmd.a.toNat % 256)) })) ∧
    (0x0D ≤ (regCode reg).toNat → exec (.wfrm reg) s = .next (s.push { status := 10#4, q := 0#128 }))

/-- R175, R108: RFRM answers the pointer byte and the number of bytes: 1 anywhere, 2 up to 0x1B, 8 at 0x10 only, and
BadOperand otherwise. -/
def Obligations.RfrmResult : Prop :=
  ∀ (reg : Reg) (s : State),
    (∀ len, encode (.rfrm len reg) = 0x0D#8 ++ 0#1 ++ lenCode len ++ regCode reg) ∧
    exec (.rfrm .one reg) s = .next (s.push { status := 0#4, q := BitVec.ofNat 128 ((regCode reg).toNat + 256 * 1) }) ∧
    ((regCode reg).toNat ≤ 0x1B →
      exec (.rfrm .two reg) s = .next (s.push { status := 0#4, q := BitVec.ofNat 128 ((regCode reg).toNat + 256 * 2) })) ∧
    ((regCode reg).toNat = 0x1C → exec (.rfrm .two reg) s = .next (s.push { status := 10#4, q := 0#128 })) ∧
    ((regCode reg).toNat = 0x10 →
      exec (.rfrm .eight reg) s = .next (s.push { status := 0#4, q := BitVec.ofNat 128 (0x10 + 256 * 8) })) ∧
    ((regCode reg).toNat ≠ 0x10 → exec (.rfrm .eight reg) s = .next (s.push { status := 10#4, q := 0#128 }))

/-! ## Variants and identity -/

/-- R185 to R187: the address of a variant is its family's, its expected id is 1 plus its class bit, its class is the class
bit, the variant code being family and class bit. -/
def Obligations.VariantLookupResults : Prop :=
  ∀ (v : Variant) (s : State),
    (encode (.vaddr v) = 0x10#8 ++ 0#5 ++ variantCode v ∧ encode (.vdid v) = 0x11#8 ++ 0#5 ++ variantCode v ∧
      encode (.vcls v) = 0x12#8 ++ 0#5 ++ variantCode v) ∧
    exec (.vaddr v) s =
      .next (s.push
        { status := 0#4
          q := BitVec.ofNat 128 ([0x35, 0x22, 0x78, 0x44].getD ((variantCode v).toNat / 2) 0) }) ∧
    exec (.vdid v) s = .next (s.push { status := 0#4, q := BitVec.ofNat 128 (1 + (variantCode v).toNat % 2) }) ∧
    exec (.vcls v) s = .next (s.push { status := 0#4, q := BitVec.ofNat 128 ((variantCode v).toNat % 2) })

/-- R188: VRNG answers the binary32 value of 40, 80, 133 or 266 millitesla. -/
def Obligations.VrngResult : Prop :=
  ∀ (c : RangeClass) (r : RangeBit) (s : State),
    encode (.vrng c r) = 0x13#8 ++ 0#4 ++ classCode c ++ rangeBitCode r ++ 0#2 ∧
    ∃ x : F32, exec (.vrng c r) s = .next (s.push { status := 0#4, q := x.setWidth 128 }) ∧ f32Finite x ∧
      f32Units x = rangeMt c r * f32One

/-- R191: MIDCHK answers 0x5449 where the two bytes are 0x49 then 0x54, and WrongDevice otherwise. -/
def Obligations.MidchkResult : Prop :=
  ∀ s : State,
    encode .midchk = 0x1400#16 ∧
    (s.cmd.a.toNat % 256 = 0x49 ∧ s.cmd.a.toNat / 256 % 256 = 0x54 →
      exec .midchk s = .next (s.push { status := 0#4, q := 0x5449#128 })) ∧
    (¬ (s.cmd.a.toNat % 256 = 0x49 ∧ s.cmd.a.toNat / 256 % 256 = 0x54) →
      exec .midchk s = .next (s.push { status := 2#4, q := 0#128 }))

/-- R192: DIDCHK compares bits 1:0 with 1 plus the class bit of the variant, and nothing else. -/
def Obligations.DidchkResult : Prop :=
  ∀ (v : Variant) (s : State),
    encode (.didchk v) = 0x15#8 ++ 0#5 ++ variantCode v ∧
    (s.cmd.a.toNat % 4 = 1 + (variantCode v).toNat % 2 →
      exec (.didchk v) s = .next (s.push { status := 0#4, q := BitVec.ofNat 128 (s.cmd.a.toNat % 4) })) ∧
    (s.cmd.a.toNat % 4 ≠ 1 + (variantCode v).toNat % 2 →
      exec (.didchk v) s = .next (s.push { status := 2#4, q := 0#128 }))

/-! ## Channel guards -/

/-- R200 with the exclusion sets it names: CHAXIS is WrongMode on code 0, MalformedRegister from 0xC up, ChannelDisabled
on the codes that leave the axis out, and otherwise answers the enabled set of R69. -/
def Obligations.ChaxisResult : Prop :=
  ∀ (axis : Axis) (s : State),
    encode (.chaxis axis) = 0x18#8 ++ 0#6 ++ axisCode axis ∧
    (s.cmd.a.toNat / 16 % 16 = 0 → exec (.chaxis axis) s = .next (s.push { status := 4#4, q := 0#128 })) ∧
    (0xC ≤ s.cmd.a.toNat / 16 % 16 → exec (.chaxis axis) s = .next (s.push { status := 3#4, q := 0#128 })) ∧
    ((axis = .x ∧ s.cmd.a.toNat / 16 % 16 ∈ [2, 4, 6, 0xA]) ∨ (axis = .y ∧ s.cmd.a.toNat / 16 % 16 ∈ [1, 4, 5, 0xB]) ∨
        (axis = .z ∧ s.cmd.a.toNat / 16 % 16 ∈ [1, 2, 3, 8, 9]) →
      exec (.chaxis axis) s = .next (s.push { status := 6#4, q := 0#128 })) ∧
    ((axis = .x ∧ s.cmd.a.toNat / 16 % 16 ∈ [1, 3, 5, 7, 8, 9, 0xB]) ∨
        (axis = .y ∧ s.cmd.a.toNat / 16 % 16 ∈ [2, 3, 6, 7, 8, 9, 0xA]) ∨
        (axis = .z ∧ s.cmd.a.toNat / 16 % 16 ∈ [4, 5, 6, 7, 0xA, 0xB]) →
      exec (.chaxis axis) s =
        .next (s.push
          { status := 0#4
            q := BitVec.ofNat 128 ([0, 1, 2, 3, 4, 5, 6, 7, 3, 3, 6, 5].getD (s.cmd.a.toNat / 16 % 16) 0) }))

/-- R201: CHALL accepts code 7 and no other. That it is WrongMode on 0, MalformedRegister from 0xC up and ChannelDisabled on
the rest is R201's pseudocode and the model's choice, since R201 also offers the set of the three kinds (log entry 16). -/
def Obligations.ChallResult : Prop :=
  ∀ s : State,
    encode .chall = 0x1900#16 ∧
    (s.cmd.a.toNat / 16 % 16 = 7 → exec .chall s = .next (s.push { status := 0#4, q := 7#128 })) ∧
    (s.cmd.a.toNat / 16 % 16 = 0 → exec .chall s = .next (s.push { status := 4#4, q := 0#128 })) ∧
    (0xC ≤ s.cmd.a.toNat / 16 % 16 → exec .chall s = .next (s.push { status := 3#4, q := 0#128 })) ∧
    (s.cmd.a.toNat / 16 % 16 ≠ 0 ∧ s.cmd.a.toNat / 16 % 16 < 0xC ∧ s.cmd.a.toNat / 16 % 16 ≠ 7 →
      exec .chall s = .next (s.push { status := 6#4, q := 0#128 }))

/-- R202: CHSET answers the enabled set of every defined code, the empty set for 0, and MalformedRegister from 0xC up. -/
def Obligations.ChsetResult : Prop :=
  ∀ s : State,
    encode .chset = 0x1A00#16 ∧
    (s.cmd.a.toNat / 16 % 16 < 0xC →
      exec .chset s =
        .next (s.push
          { status := 0#4
            q := BitVec.ofNat 128 ([0, 1, 2, 3, 4, 5, 6, 7, 3, 3, 6, 5].getD (s.cmd.a.toNat / 16 % 16) 0) })) ∧
    (0xC ≤ s.cmd.a.toNat / 16 % 16 → exec .chset s = .next (s.push { status := 3#4, q := 0#128 }))

/-- R203, R204: TCHK answers 1 where bit 0 is set and ChannelDisabled where it is clear; ANGCHK answers `sc[11:10]` where it
is not 0 and ChannelDisabled where it is. -/
def Obligations.EnableGuardResults : Prop :=
  ∀ s : State,
    (encode .tchk = 0x1B00#16 ∧ encode .angchk = 0x1C00#16) ∧
    (s.cmd.a.toNat % 2 = 1 → exec .tchk s = .next (s.push { status := 0#4, q := 1#128 })) ∧
    (s.cmd.a.toNat % 2 = 0 → exec .tchk s = .next (s.push { status := 6#4, q := 0#128 })) ∧
    (s.cmd.a.toNat / 1024 % 4 ≠ 0 →
      exec .angchk s = .next (s.push { status := 0#4, q := BitVec.ofNat 128 (s.cmd.a.toNat / 1024 % 4) })) ∧
    (s.cmd.a.toNat / 1024 % 4 = 0 → exec .angchk s = .next (s.push { status := 6#4, q := 0#128 }))

/-- R205: RNGSEL answers `sc[9]` for X and Y and `sc[8]` for Z. -/
def Obligations.RngselResult : Prop :=
  ∀ (axis : Axis) (s : State),
    encode (.rngsel axis) = 0x1D#8 ++ 0#6 ++ axisCode axis ∧
    exec (.rngsel axis) s =
      .next (s.push
        { status := 0#4
          q := BitVec.ofNat 128 (if axis = .z then s.cmd.a.toNat / 256 % 2 else s.cmd.a.toNat / 512 % 2) })

/-- R206: CHALL succeeds exactly where CHAXIS succeeds for all three axes. -/
def Obligations.ChallIffEveryAxis : Prop :=
  ∀ (a : Operand) (s : State),
    (responseOf .chall a s).status = 0#4 ↔ ∀ axis : Axis, (responseOf (.chaxis axis) a s).status = 0#4

/-! ## Scaling converters -/

/-- R217: CVMAG is exact: the result times 32768 is the signed raw times the range, negated for X; the sign bit of a zero
is set for X and clear for Y and Z. -/
def Obligations.CvmagResult : Prop :=
  ∀ (c : RangeClass) (r : RangeBit) (axis : Axis) (s : State),
    encode (.cvmag c r axis) = 0x20#8 ++ 0#4 ++ classCode c ++ rangeBitCode r ++ axisCode axis ∧
    ∃ x : F32, exec (.cvmag c r axis) s = .next (s.push { status := 0#4, q := x.setWidth 128 }) ∧ f32Finite x ∧
      f32Units x * 32768 =
        (if axis = .x then -(s.cmd.a.extractLsb' 0 16).toInt else (s.cmd.a.extractLsb' 0 16).toInt) *
          (rangeMt c r * f32One : Nat) ∧
      f32Sign x = if axis = .x then decide (0 ≤ (s.cmd.a.extractLsb' 0 16).toInt)
        else decide ((s.cmd.a.extractLsb' 0 16).toInt < 0)

/-- R219: CVTEMP is 25.0 plus the quotient of the exact difference of the unsigned raw and 17508 by the binary32 value
nearest to 60.1, one rounding each; 17508 gives exactly 25.0. -/
def Obligations.CvtempResult : Prop :=
  ∀ s : State,
    encode .cvtemp = 0x2100#16 ∧
    ∃ d : F32, f32Finite d ∧ f32Units d = ((s.cmd.a.toNat % 65536 : Nat) - 17508 : Int) * f32One ∧
      (s.cmd.a.toNat % 65536 = 17508 → d = 0#32) ∧
      exec .cvtemp s =
        .next (s.push { status := 0#4, q := (fadd 0x41C80000#32 (fdiv d 0x42706666#32)).setWidth 128 }) ∧
      (s.cmd.a.toNat % 65536 = 17508 → exec .cvtemp s = .next (s.push { status := 0#4, q := 0x41C80000#128 }))

/-- R219: the temperature is monotone non-decreasing in the raw value. -/
def Obligations.CvtempIsMonotone : Prop :=
  ∀ (a b : Operand) (s : State), a.toNat % 65536 ≤ b.toNat % 65536 →
    f32Units ((responseOf .cvtemp a s).q.setWidth 32) ≤ f32Units ((responseOf .cvtemp b s).q.setWidth 32)

/-- R221: CVANG is exact: the result times 16 is the raw value. -/
def Obligations.CvangResult : Prop :=
  ∀ s : State,
    encode .cvang = 0x2200#16 ∧
    ∃ x : F32, exec .cvang s = .next (s.push { status := 0#4, q := x.setWidth 128 }) ∧ f32Finite x ∧
      f32Units x * 16 = (s.cmd.a.toNat % 65536 * f32One : Nat) ∧ f32Sign x = false

/-- R223: CVBURST is one CVTEMP and three CVMAG on the big-endian pairs of the eight bytes, packed, with no interaction
between the lanes. -/
def Obligations.CvburstResult : Prop :=
  ∀ (c : RangeClass) (rxy rz : RangeBit) (s : State),
    encode (.cvburst c rxy rz) = 0x23#8 ++ 0#4 ++ classCode c ++ 0#1 ++ rangeBitCode rxy ++ rangeBitCode rz ∧
    ∃ q : Result, exec (.cvburst c rxy rz) s = .next (s.push { status := 0#4, q := q }) ∧
      q.extractLsb' 0 32 =
        (responseOf .cvtemp ((s.cmd.a.extractLsb' 0 8 ++ s.cmd.a.extractLsb' 8 8).setWidth 64) s).q.extractLsb' 0 32 ∧
      q.extractLsb' 32 32 =
        (responseOf (.cvmag c rxy .x) ((s.cmd.a.extractLsb' 16 8 ++ s.cmd.a.extractLsb' 24 8).setWidth 64) s).q.extractLsb' 0 32 ∧
      q.extractLsb' 64 32 =
        (responseOf (.cvmag c rxy .y) ((s.cmd.a.extractLsb' 32 8 ++ s.cmd.a.extractLsb' 40 8).setWidth 64) s).q.extractLsb' 0 32 ∧
      q.extractLsb' 96 32 =
        (responseOf (.cvmag c rz .z) ((s.cmd.a.extractLsb' 48 8 ++ s.cmd.a.extractLsb' 56 8).setWidth 64) s).q.extractLsb' 0 32

/-- R225, R226, under either setting of `THR_QUANT`: THRENC refuses a NaN with BadOperand and a magnitude above the range,
infinities among them, with OutOfRange; within the range it answers the byte of `k = QUANT(m / range · 128)` held at 127
at most, the quotient rounded once and the product exact. -/
def Obligations.ThrencResult : Prop :=
  ∀ (c : RangeClass) (r : RangeBit) (s : State),
    encode (.threnc c r) = 0x24#8 ++ 0#4 ++ classCode c ++ rangeBitCode r ++ 0#2 ∧
    (isNaN (s.cmd.a.extractLsb' 0 32) = true →
      exec (.threnc c r) s = .next (s.push { status := 10#4, q := 0#128 })) ∧
    (isNaN (s.cmd.a.extractLsb' 0 32) = false → rangeMt c r * f32One < f32Mag (s.cmd.a.extractLsb' 0 32) →
      exec (.threnc c r) s = .next (s.push { status := 5#4, q := 0#128 })) ∧
    (isInf (s.cmd.a.extractLsb' 0 32) = true → exec (.threnc c r) s = .next (s.push { status := 5#4, q := 0#128 })) ∧
    (isNaN (s.cmd.a.extractLsb' 0 32) = false → f32Mag (s.cmd.a.extractLsb' 0 32) ≤ rangeMt c r * f32One →
      ∃ k : Int,
        k = min 127 (quantUnits s.thrQuant (f32Units (fdiv (s.cmd.a.extractLsb' 0 32) (rangeF32 c r)) * 128)) ∧
        -128 ≤ k ∧ k ≤ 127 ∧
        exec (.threnc c r) s = .next (s.push { status := 0#4, q := (BitVec.ofInt 8 k).setWidth 128 }))

/-- R228: THRDEC is exact: the result times 128 is the signed byte times the range. -/
def Obligations.ThrdecResult : Prop :=
  ∀ (c : RangeClass) (r : RangeBit) (s : State),
    encode (.thrdec c r) = 0x25#8 ++ 0#4 ++ classCode c ++ rangeBitCode r ++ 0#2 ∧
    ∃ x : F32, exec (.thrdec c r) s = .next (s.push { status := 0#4, q := x.setWidth 128 }) ∧ f32Finite x ∧
      f32Units x * 128 = (s.cmd.a.extractLsb' 0 8).toInt * (rangeMt c r * f32One : Nat) ∧
      f32Sign x = decide ((s.cmd.a.extractLsb' 0 8).toInt < 0)

/-- R229: encoding a decoded threshold byte gives the byte back, under both settings of `THR_QUANT`. -/
def Obligations.ThresholdByteRoundTrip : Prop :=
  ∀ (c : RangeClass) (r : RangeBit) (b : Byte) (s : State),
    responseOf (.threnc c r) ((responseOf (.thrdec c r) (b.setWidth 64) s).q.setWidth 64) s =
      { status := 0#4, q := b.setWidth 128 }

/-- R229: for every threshold within the range R, the value read back is within R/128 of the value set, under both
settings of `THR_QUANT`. -/
def Obligations.ThresholdRoundTripBound : Prop :=
  ∀ (c : RangeClass) (r : RangeBit) (m : F32) (s : State),
    isNaN m = false → f32Mag m ≤ rangeMt c r * f32One →
    ∃ (b : Byte) (x : F32), responseOf (.threnc c r) (m.setWidth 64) s = { status := 0#4, q := b.setWidth 128 } ∧
      responseOf (.thrdec c r) (b.setWidth 64) s = { status := 0#4, q := x.setWidth 128 } ∧
      (f32Units x - f32Units m).natAbs * 128 ≤ rangeMt c r * f32One

/-- R231, R232: GAIN and MAGN answer the byte they are given. -/
def Obligations.GainMagnResults : Prop :=
  ∀ s : State,
    encode .gain = 0x2600#16 ∧ encode .magn = 0x2700#16 ∧
    exec .gain s = .next (s.push { status := 0#4, q := BitVec.ofNat 128 (s.cmd.a.toNat % 256) }) ∧
    exec .magn s = .next (s.push { status := 0#4, q := BitVec.ofNat 128 (s.cmd.a.toNat % 256) })

/-- R233, R234, their pseudocode: the offset operations answer WrongMode where the angle calculation is disabled and
Unimplemented where it is enabled; they never answer ok. Log entry 16 says why the model takes no wider set. -/
def Obligations.OffsetOperationsFault : Prop :=
  ∀ s : State,
    encode .offenc = 0x2800#16 ∧ encode .offdec = 0x2900#16 ∧
    (s.cmd.a.toNat / 1024 % 4 = 0 →
      exec .offenc s = .next (s.push { status := 4#4, q := 0#128 }) ∧
      exec .offdec s = .next (s.push { status := 4#4, q := 0#128 })) ∧
    (s.cmd.a.toNat / 1024 % 4 ≠ 0 →
      exec .offenc s = .next (s.push { status := 8#4, q := 0#128 }) ∧
      exec .offdec s = .next (s.push { status := 8#4, q := 0#128 }))

/-- R216: the converters never produce a NaN or an infinity from any input, in any lane. -/
def Obligations.ConvertersFormFiniteValues : Prop :=
  ∀ (a : Operand) (s : State),
    f32Finite ((responseOf .cvtemp a s).q.extractLsb' 0 32) ∧ f32Finite ((responseOf .cvang a s).q.extractLsb' 0 32) ∧
    (∀ c r axis, f32Finite ((responseOf (.cvmag c r axis) a s).q.extractLsb' 0 32)) ∧
    (∀ c r, f32Finite ((responseOf (.thrdec c r) a s).q.extractLsb' 0 32)) ∧
    ∀ c rxy rz k, k < 4 → f32Finite ((responseOf (.cvburst c rxy rz) a s).q.extractLsb' (32 * k) 32)

/-- R10: `fadd`, `fmul` and `fdiv` of finite values are rounded once, to nearest, ties to even: they overflow exactly where
the exact result is at least half a step beyond the largest finite value, and otherwise no binary32 value is nearer, and
where another is as near the one given is even. Subnormal operands and results are among the finite values: that they are
handled exactly is the model's reading (log entry 22). -/
def Obligations.ArithmeticRoundsToNearestEven : Prop :=
  ∀ x y : F32, f32Finite x → f32Finite y →
    (isNaN (fadd x y) = false ∧
      (isInf (fadd x y) = true ↔ (2 ^ 25 - 1) * 2 ^ 253 ≤ 2 * (f32Units x + f32Units y).natAbs) ∧
      ∀ w, f32Finite w → isInf (fadd x y) = false →
        (f32Units (fadd x y) - (f32Units x + f32Units y)).natAbs ≤ (f32Units w - (f32Units x + f32Units y)).natAbs ∧
        ((f32Units (fadd x y) - (f32Units x + f32Units y)).natAbs =
            (f32Units w - (f32Units x + f32Units y)).natAbs → f32Units w ≠ f32Units (fadd x y) →
          (fadd x y).getLsbD 0 = false)) ∧
    (isNaN (fmul x y) = false ∧
      (isInf (fmul x y) = true ↔ (2 ^ 25 - 1) * 2 ^ 253 * f32One ≤ 2 * (f32Units x * f32Units y).natAbs) ∧
      ∀ w, f32Finite w → isInf (fmul x y) = false →
        (f32Units (fmul x y) * f32One - f32Units x * f32Units y).natAbs ≤
            (f32Units w * f32One - f32Units x * f32Units y).natAbs ∧
        ((f32Units (fmul x y) * f32One - f32Units x * f32Units y).natAbs =
            (f32Units w * f32One - f32Units x * f32Units y).natAbs → f32Units w ≠ f32Units (fmul x y) →
          (fmul x y).getLsbD 0 = false)) ∧
    (f32Mag y ≠ 0 →
      isNaN (fdiv x y) = false ∧
      (isInf (fdiv x y) = true ↔ (2 ^ 25 - 1) * 2 ^ 253 * f32Mag y ≤ 2 * (f32Mag x * f32One)) ∧
      ∀ w, f32Finite w → isInf (fdiv x y) = false →
        (f32Units (fdiv x y) * f32Units y - f32Units x * f32One).natAbs ≤
            (f32Units w * f32Units y - f32Units x * f32One).natAbs ∧
        ((f32Units (fdiv x y) * f32Units y - f32Units x * f32One).natAbs =
            (f32Units w * f32Units y - f32Units x * f32One).natAbs → f32Units w ≠ f32Units (fdiv x y) →
          (fdiv x y).getLsbD 0 = false))

/-! ## Device, bus and host sequences -/

/-- The reset state is sound; its device is within the spec and holds the manufacturer id (R44, R45); there is no session
(R292); `THR_QUANT` has its default (R226); and the registers whose default is D0's, those of the three configuration
groups, hold it (R92, R94). That the command port holds zeros and no response stands on the response port is the model's
choice (log entry 2), and so is taking these declared defaults for what the device holds (log entry 6). -/
def Obligations.ResetIsSound : Prop :=
  State.reset.Sound ∧ State.reset.strayed = false ∧ State.reset.IdentityHolds ∧
  State.reset.cmd = { op := 0#8, sel := 0#8, a := 0#64 } ∧ State.reset.responses = [] ∧ State.reset.session = none ∧
  State.reset.thrQuant = .trunc ∧ ∀ addr ∈ [0x00, 0x01, 0x02, 0x03, 0x08], State.reset.regs.read addr = 0x00#8

/-- Every step, whatever the host does, keeps the machine sound: the register file keeps its canonical form (the
model's own, log entry 21), every response is one the block may form (R120, R271), and the fixed parameter stays (R7,
log entry 3). -/
def Obligations.StepKeepsSound : Prop :=
  ∀ s t : State, s.Sound → step s = .next t → t.Sound ∧ t.thrQuant = s.thrQuant

/-- R25, R44, R45, R174: nothing the host can do through a step changes the manufacturer id of a device that is within
the spec. Which bits a device may change by itself is the model's reading (log entries 8 and 10). -/
def Obligations.StepKeepsManufacturerId : Prop :=
  ∀ s t : State, s.Sound → s.IdentityHolds → step s = .next t → t.IdentityHolds

/-- R109, R174, R175: the block forms no frame for an address that names no register and no write frame for a read-
only one, so a host sequence comes to an end in every state; the model refuses it only without a session (R292) or
with a configuration that is not one code per field (log entry 15). A sequence is one step (log entry 14). -/
def Obligations.HostSequencesComeToAnEnd : Prop :=
  ∀ (s : State) (h : HostCall) (rest : List HostAction), s.inputs = .call h :: rest →
    (s.session ≠ none ∨ (∃ v, h = .construct v) ∨ ∃ w v, h = .constructWithAddress w v) →
    (∀ c, h = .setGroup c → c.codes.length = (groupFields c.group).length) →
    ∃ t, step s = .next t

/-- R292: without a session every host sequence but a construction is refused; that this is a refusal of the model is
log entry 13. -/
def Obligations.SequencesNeedSession : Prop :=
  ∀ (s : State) (h : HostCall) (rest : List HostAction), s.inputs = .call h :: rest → s.session = none →
    (∀ v, h ≠ .construct v) → (∀ w v, h ≠ .constructWithAddress w v) → step s = .refused .noSession

/-- R284 (a), R295: a getter whose guard faults ends with the guard's status after the reads of the mode registers up to the
one that guard looks at; no data read follows. GetAllData has two guards, CHALL and then TCHK (R255); which fault CHALL
answers is log entry 16. A sequence is one step (log entry 14) and the transaction's outcome is the next event (log entry
7). -/
def Obligations.GuardFaultPreventsDataRead : Prop :=
  ∀ (s : State) (x : Session) (rest : List HostAction), s.session = some x → s.envEvent.fails = false →
    ((s.inputs = .call .getTemperature :: rest → (s.settle.regs.read 0x07).getLsbD 0 = false →
        ∃ t, step s = .next t ∧ t.results = s.results ++ [.failed 6#4] ∧
          t.trace = s.trace ++ [.read x.addr7 [0x07#8] 1 (some [s.settle.regs.read 0x07])]) ∧
      (s.inputs = .call .getAngle :: rest → (s.settle.regs.read 0x03).extractLsb' 2 2 = 0#2 →
        ∃ t, step s = .next t ∧ t.results = s.results ++ [.failed 6#4] ∧
          t.trace = s.trace ++ [.read x.addr7 [0x02#8] 2 (some [s.settle.regs.read 0x02, s.settle.regs.read 0x03])]) ∧
      (∀ axis, s.inputs = .call (.getMagData axis) :: rest →
        (responseOf (.chaxis axis) ((s.settle.regs.read 0x02).setWidth 64) s).status ≠ 0#4 →
        ∃ t, step s = .next t ∧
          t.results = s.results ++ [.failed (responseOf (.chaxis axis) ((s.settle.regs.read 0x02).setWidth 64) s).status] ∧
          t.trace = s.trace ++ [.read x.addr7 [0x02#8] 2 (some [s.settle.regs.read 0x02, s.settle.regs.read 0x03])]) ∧
      (s.inputs = .call .getAllData :: rest → (s.settle.regs.read 0x02).extractLsb' 4 4 ≠ 7#4 →
        ∃ t, step s = .next t ∧
          t.results = s.results ++ [.failed (responseOf .chall ((s.settle.regs.read 0x02).setWidth 64) s).status] ∧
          t.trace = s.trace ++ [.read x.addr7 [0x02#8] 2 (some [s.settle.regs.read 0x02, s.settle.regs.read 0x03])]) ∧
      (s.inputs = .call .getAllData :: rest → (s.settle.regs.read 0x02).extractLsb' 4 4 = 7#4 →
        s.settle.envEvent.fails = false → (s.settle.settle.regs.read 0x07).getLsbD 0 = false →
        ∃ t, step s = .next t ∧ t.results = s.results ++ [.failed 6#4] ∧
          t.trace = s.trace ++
            [.read x.addr7 [0x02#8] 2 (some [s.settle.regs.read 0x02, s.settle.regs.read 0x03]),
             .read x.addr7 [0x07#8] 1 (some [s.settle.settle.regs.read 0x07])]))

/-- R255, R296: GetAllData whose two guards hold returns the four values that CVBURST gives on the eight bytes of one burst
read, the range bits and the class those the guard saw; the burst is the third and last transaction (log entries 7 and 14
for the form). That the eight bytes are the registers of one moment is the model's reading (log entry 28), since R296 calls
it a premise that no source confirms. -/
def Obligations.GetAllDataIsOneBurst : Prop :=
  ∀ (s : State) (x : Session) (rest : List HostAction), s.session = some x → s.inputs = .call .getAllData :: rest →
    (∀ e ∈ s.env, e.fails = false) → (s.settle.regs.read 0x02).extractLsb' 4 4 = 7#4 →
    (s.settle.settle.regs.read 0x07).getLsbD 0 = true →
    ∃ (t : State) (q : Result), step s = .next t ∧
      responseOf
        (.cvburst (variantClass x.variant) (rangeBitOfCode ((s.settle.regs.read 0x03).extractLsb' 1 1))
          (rangeBitOfCode ((s.settle.regs.read 0x03).extractLsb' 0 1)))
        (operandOf (s.settle.settle.settle.regs.readBytes 0x10 8)) s = { status := 0#4, q := q } ∧
      t.results = s.results ++
        [.returned (.quad (q.extractLsb' 32 32) (q.extractLsb' 64 32) (q.extractLsb' 96 32) (q.extractLsb' 0 32))] ∧
      t.trace = s.trace ++
        [.read x.addr7 [0x02#8] 2 (some [s.settle.regs.read 0x02, s.settle.regs.read 0x03]),
         .read x.addr7 [0x07#8] 1 (some [s.settle.settle.regs.read 0x07]),
         .read x.addr7 [0x10#8] 8 (some (s.settle.settle.settle.regs.readBytes 0x10 8))]

/-- R247, R284 (b): a threshold beyond the range of the axis ends SetMagThreshold with OutOfRange before any bus
write: the one transaction is the read of the configuration, and no register is written (log entries 7 and 14 for the
form). -/
def Obligations.OutOfRangeThresholdWritesNothing : Prop :=
  ∀ (s : State) (x : Session) (rest : List HostAction) (m : F32) (axis : Axis),
    s.session = some x → s.envEvent.fails = false → s.inputs = .call (.setMagThreshold m axis) :: rest →
    isNaN m = false →
    rangeMt (variantClass x.variant)
        (if axis = .z then (if (s.settle.regs.read 0x03).getLsbD 0 then .high else .low)
          else (if (s.settle.regs.read 0x03).getLsbD 1 then .high else .low)) * f32One < f32Mag m →
    ∃ t, step s = .next t ∧ t.results = s.results ++ [.failed 5#4] ∧ t.regs = s.settle.regs ∧
      t.trace = s.trace ++ [.read x.addr7 [0x02#8] 2 (some [s.settle.regs.read 0x02, s.settle.regs.read 0x03])]

/-- R244: InitDefault on a working transport writes the four frames in order and returns; where the device changes
nothing of its own, the four registers then hold the bytes written and every other register what it held (log entries
7 and 11 for the form). -/
def Obligations.InitDefaultWritesFourFrames : Prop :=
  ∀ (s : State) (x : Session) (rest : List HostAction), s.session = some x → s.inputs = .call .initDefault :: rest →
    (∀ e ∈ s.env, e.fails = false) →
    ∃ t, step s = .next t ∧ t.results = s.results ++ [.returned .unit] ∧
      t.trace = s.trace ++
        [.wrote x.addr7 [0x02#8, 0x7C#8] true, .wrote x.addr7 [0x03#8, 0x03#8] true,
         .wrote x.addr7 [0x07#8, 0x01#8] true, .wrote x.addr7 [0x01#8, 0x02#8] true] ∧
      (s.regs.wf = true → (∀ e ∈ s.env, e.changes = []) →
        ∀ addr, t.regs.read addr =
          if addr = 0x02 then 0x7C#8 else if addr = 0x03 then 0x03#8 else if addr = 0x07 then 0x01#8
          else if addr = 0x01 then 0x02#8 else s.regs.read addr)

/-- R297: a Device group `set` whose second write fails ends with Bus; the first register holds its new byte, the
second and every other register what they held (log entry 12: a write that fails does not land). -/
def Obligations.GroupSetIsNotAtomic : Prop :=
  ∀ (s : State) (x : Session) (rest : List HostAction) (c0 c1 c2 c3 c4 c5 c6 c7 : Byte) (es : List EnvEvent),
    s.session = some x → s.regs.wf = true →
    s.inputs = .call (.setGroup { group := .device, codes := [c0, c1, c2, c3, c4, c5, c6, c7] }) :: rest →
    s.env = { fails := false, changes := [] } :: { fails := true, changes := [] } :: es →
    c0.toNat < 4 → c1.toNat < 6 → c2.toNat < 4 → c3.toNat < 4 → c4.toNat < 2 → c5.toNat < 2 → c6.toNat < 2 →
    c7.toNat < 2 →
    ∃ t, step s = .next t ∧ t.results = s.results ++ [.failed 7#4] ∧
      t.trace = s.trace ++
        [.wrote x.addr7 [0x00#8, BitVec.ofNat 8 (c0.toNat + 4 * c1.toNat + 32 * c2.toNat)] true,
         .wrote x.addr7
          [0x01#8,
           BitVec.ofNat 8 (c3.toNat + 4 * c4.toNat + 8 * c5.toNat + 16 * c6.toNat + 32 * c7.toNat)] false] ∧
      ∀ addr, t.regs.read addr =
        if addr = 0x00 then BitVec.ofNat 8 (c0.toNat + 4 * c1.toNat + 32 * c2.toNat) else s.regs.read addr

/-- R241, R242: a construction, at a given address or at the default address of the variant (R88), on a device that changes
nothing of its own reads the manufacturer id and, only where it is
0x5449, the device id; there is a session afterwards exactly where both identities fit, and otherwise the end is
WrongDevice. That an earlier session is closed is the model's reading (log entry 9). -/
def Obligations.ConstructionChecksIdentity : Prop :=
  ∀ (s : State) (w : BitVec 7) (v : Variant) (rest : List HostAction),
    (s.inputs = .call (.constructWithAddress w v) :: rest ∨
      s.inputs = .call (.construct v) :: rest ∧
        w = BitVec.ofNat 7 ([0x35, 0x22, 0x78, 0x44].getD ((variantCode v).toNat / 2) 0)) →
    (∀ e ∈ s.env, e.fails = false ∧ e.changes = []) →
    (¬ (s.regs.read 0x0E = 0x49#8 ∧ s.regs.read 0x0F = 0x54#8) →
      ∃ t, step s = .next t ∧ t.session = none ∧ t.results = s.results ++ [.failed 2#4] ∧
        t.trace = s.trace ++ [.read w [0x0E#8] 2 (some [s.regs.read 0x0E, s.regs.read 0x0F])]) ∧
    (s.regs.read 0x0E = 0x49#8 ∧ s.regs.read 0x0F = 0x54#8 →
      ∃ t, step s = .next t ∧
        t.trace = s.trace ++
          [.read w [0x0E#8] 2 (some [0x49#8, 0x54#8]), .read w [0x0D#8] 1 (some [s.regs.read 0x0D])] ∧
        ((s.regs.read 0x0D).toNat % 4 = 1 + (variantCode v).toNat % 2 →
          t.session = some { variant := v, addr7 := w } ∧ t.results = s.results ++ [.returned .unit]) ∧
        ((s.regs.read 0x0D).toNat % 4 ≠ 1 + (variantCode v).toNat % 2 →
          t.session = none ∧ t.results = s.results ++ [.failed 2#4]))

/-- R113, R298: a byte the host has written to a read-write register is what it reads back, in every bit that a field
covers or that belongs to a register without sub-fields, whatever the device does by itself in between, as long as the
byte does not take the device out of the spec (log entries 8, 10 and 19; for a byte that sets bits no field covers, entry
29). -/
def Obligations.WrittenByteReadsBack : Prop :=
  ∀ (s : State) (x : Session) (reg : Reg) (v : Byte) (rest : List HostAction),
    s.session = some x → s.regs.wf = true → s.strayed = false → (regCode reg).toNat < 0x0D →
    leavesSpec (regCode reg).toNat v = false → (∀ e ∈ s.env, e.fails = false) →
    s.inputs = .call (.memWrite reg v) :: .call (.memRead reg .one) :: rest →
    ∃ (t : State) (b : Byte), runs 2 s = .next t ∧
      t.results = s.results ++ [.returned .unit, .returned (.bytes [b])] ∧
      ∀ k, k < 8 → (regLanes reg = [.bits 7 0] ∨ ∃ f, fieldReg f = reg ∧ (fieldSpan f).lo ≤ k ∧ k ≤ (fieldSpan f).hi) →
        b.getLsbD k = v.getLsbD k
end

