-- ==== Sys2Proof/Laws/Codes.lean ====
section
/-! SUPPORT. The codes of the selector sub-fields and the names they stand for are inverse to each other. -/

namespace Sys2Proof

/-- Every register is in the list. -/
theorem mem_allRegs (r : Reg) : r ∈ allRegs := by
  cases r <;> decide

/-- An address map that gives different registers different addresses is inverted by `regOfCodeWith` (R24). -/
theorem regOfCodeWith_apply {regAddr : Reg → BitVec 5} (hinj : ∀ r r', regAddr r = regAddr r' → r = r') (r : Reg) :
    regOfCodeWith regAddr (regAddr r) = some r := by
  unfold regOfCodeWith
  cases h : allRegs.find? fun r' => regAddr r' == regAddr r with
  | none => simpa using List.find?_eq_none.mp h r (mem_allRegs r)
  | some r' => rw [hinj r' r (by simpa using List.find?_some h)]

/-- The register found at an address has that address. -/
theorem apply_of_regOfCodeWith {regAddr : Reg → BitVec 5} {c : BitVec 5} {r : Reg} (h : regOfCodeWith regAddr c = some r) :
    regAddr r = c := by
  simpa using List.find?_some h

/-- The machine's decoder and encoder are those of the spec's address map. -/
theorem decode_eq_decodeWith (w : Half) : decode w = decodeWith regCode w := rfl

theorem encode_eq_encodeWith (i : Instr) : encode i = encodeWith regCode i := rfl

/-- The spec's address map gives different registers different addresses (R24). -/
theorem regCode_injective {r r' : Reg} (h : regCode r = regCode r') : r = r' := by
  revert h; cases r <;> cases r' <;> decide

@[simp] theorem regOfCode_regCode (r : Reg) : regOfCode (regCode r) = some r :=
  regOfCodeWith_apply (fun _ _ => regCode_injective) r

theorem regCode_of_regOfCode {c : BitVec 5} {r : Reg} (h : regOfCode c = some r) : regCode r = c :=
  apply_of_regOfCodeWith h

@[simp] theorem fieldOfCode_fieldCode (f : Field) : fieldOfCode (fieldCode f) = some f := by
  cases f <;> decide

theorem fieldCode_of_fieldOfCode {c : BitVec 6} {f : Field} (h : fieldOfCode c = some f) : fieldCode f = c := by
  simpa using List.find?_some h

@[simp] theorem axisOfCode_axisCode (a : Axis) : axisOfCode (axisCode a) = some a := by
  cases a <;> decide

theorem axisCode_of_axisOfCode {c : BitVec 2} {a : Axis} (h : axisOfCode c = some a) : axisCode a = c := by
  simpa using List.find?_some h

@[simp] theorem lenOfCode_lenCode (l : ReadLen) : lenOfCode (lenCode l) = some l := by
  cases l <;> decide

theorem lenCode_of_lenOfCode {c : BitVec 2} {l : ReadLen} (h : lenOfCode c = some l) : lenCode l = c := by
  simpa using List.find?_some h

@[simp] theorem variantOfCode_variantCode (v : Variant) : variantOfCode (variantCode v) = v := by
  cases v <;> decide

@[simp] theorem variantCode_variantOfCode (c : BitVec 3) : variantCode (variantOfCode c) = c := by
  revert c; decide

@[simp] theorem classOfCode_classCode (c : RangeClass) : classOfCode (classCode c) = c := by
  cases c <;> decide

@[simp] theorem classCode_classOfCode (c : BitVec 1) : classCode (classOfCode c) = c := by
  revert c; decide

@[simp] theorem rangeBitOfCode_rangeBitCode (r : RangeBit) : rangeBitOfCode (rangeBitCode r) = r := by
  cases r <;> decide

@[simp] theorem rangeBitCode_rangeBitOfCode (r : BitVec 1) : rangeBitCode (rangeBitOfCode r) = r := by
  revert r; decide

/-- Every register address is at most 0x1C (R23). -/
theorem regCode_le (r : Reg) : (regCode r).toNat ≤ 0x1C := by
  cases r <;> decide

end Sys2Proof
end

