-- ==== Sys2Proof/Laws/Fields.lean ====
section
/-! SUPPORT. Bit fields, for any layout: what `getSpan` and `setSpan` do bit by bit and as numbers, the laws of R26, the
byte lanes of a result, and the facts the layout tables give (R86, R151). -/

namespace Sys2Proof.Machine

/-- A span that lies in a byte. -/
abbrev Span.ok (s : Span) : Prop := s.lo ≤ s.hi ∧ s.hi ≤ 7

/-- Two spans share no bit. -/
abbrev Span.disjoint (s t : Span) : Prop := s.hi < t.lo ∨ t.hi < s.lo

theorem Span.lo_add_width {s : Span} (h : s.ok) : s.lo + s.width = s.hi + 1 := by
  unfold Span.width; omega

/-- `field(F, raw)` bit by bit (R26). -/
theorem getSpan_getLsbD {s : Span} (h : s.ok) (raw : Byte) (k : Nat) :
    (getSpan s raw).getLsbD k = (decide (k < s.width) && raw.getLsbD (s.lo + k)) := by
  have hw := Span.lo_add_width h
  unfold getSpan
  rw [BitVec.getLsbD_and, BitVec.getLsbD_ushiftRight]
  by_cases hk : k < 8
  · rw [BitVec.getLsbD_ofNat, Nat.testBit_two_pow_sub_one]
    simp [hk, Bool.and_comm]
  · rw [BitVec.getLsbD_of_ge raw (s.lo + k) (by omega)]
    simp

/-- The mask bit by bit (R26). -/
theorem Span.mask_getLsbD {s : Span} (h : s.ok) (k : Nat) (hk : k < 8) :
    s.mask.getLsbD k = decide (s.lo ≤ k ∧ k ≤ s.hi) := by
  have hw := Span.lo_add_width h
  unfold Span.mask
  rw [BitVec.getLsbD_ofNat, Nat.testBit_mul_two_pow, Nat.testBit_two_pow_sub_one]
  simp only [hk, decide_true, Bool.true_and]
  by_cases h1 : s.lo ≤ k <;> by_cases h2 : k ≤ s.hi <;> simp [h1, h2] <;> omega

/-- `with_field(F, raw, c)` bit by bit (R26). -/
theorem setSpan_getLsbD {s : Span} (h : s.ok) (raw c : Byte) (k : Nat) (hk : k < 8) :
    (setSpan s raw c).getLsbD k = if s.lo ≤ k ∧ k ≤ s.hi then c.getLsbD (k - s.lo) else raw.getLsbD k := by
  unfold setSpan
  rw [BitVec.getLsbD_or, BitVec.getLsbD_and, BitVec.getLsbD_and, BitVec.getLsbD_not, BitVec.getLsbD_shiftLeft,
    Span.mask_getLsbD h k hk]
  by_cases hin : s.lo ≤ k ∧ k ≤ s.hi
  · have h2 : ¬ k < s.lo := by omega
    simp [hin, h2, hk]
  · simp [hin, hk]

/-- `field(F, raw)` as a number. -/
theorem getSpan_toNat {s : Span} (h : s.ok) (raw : Byte) :
    (getSpan s raw).toNat = raw.toNat / 2 ^ s.lo % 2 ^ s.width := by
  have hw := Span.lo_add_width h
  have hle : 2 ^ s.width ≤ 2 ^ 8 := Nat.pow_le_pow_right (by omega) (by omega)
  have hpos : 0 < 2 ^ s.width := Nat.two_pow_pos _
  unfold getSpan
  rw [BitVec.toNat_and, BitVec.toNat_ushiftRight, BitVec.toNat_ofNat, Nat.mod_eq_of_lt (by omega),
    Nat.and_two_pow_sub_one_eq_mod, Nat.shiftRight_eq_div_pow]

/-- A code read from a field fits the field. -/
theorem getSpan_lt {s : Span} (h : s.ok) (raw : Byte) : (getSpan s raw).toNat < 2 ^ s.width := by
  rw [getSpan_toNat h]
  exact Nat.mod_lt _ (Nat.two_pow_pos _)

theorem fitsSpan_getSpan {s : Span} (h : s.ok) (raw : Byte) : fitsSpan s (getSpan s raw) = true := by
  simp [fitsSpan, getSpan_lt h]

/-- A code that fits has no bit at or above the width. -/
theorem getLsbD_of_fits {s : Span} {c : Byte} (hc : fitsSpan s c = true) {k : Nat} (hk : s.width ≤ k) :
    c.getLsbD k = false := by
  simp only [fitsSpan, decide_eq_true_eq] at hc
  exact Nat.testBit_lt_two_pow (Nat.lt_of_lt_of_le hc (Nat.pow_le_pow_right (by omega) hk))

/-- R26: `field(F, with_field(F, raw, c)) = c`. -/
theorem getSpan_setSpan_same {s : Span} (h : s.ok) (raw : Byte) {c : Byte} (hc : fitsSpan s c = true) :
    getSpan s (setSpan s raw c) = c := by
  have hw := Span.lo_add_width h
  apply BitVec.eq_of_getLsbD_eq
  intro k hk
  rw [getSpan_getLsbD h]
  by_cases hkw : k < s.width
  · rw [setSpan_getLsbD h _ _ _ (by omega), if_pos (by omega)]
    simp [hkw]
  · simp [hkw, getLsbD_of_fits hc (Nat.le_of_not_lt hkw)]

/-- R26: a field is untouched by an insertion into a disjoint one. -/
theorem getSpan_setSpan_other {s t : Span} (hs : s.ok) (ht : t.ok) (hd : s.disjoint t) (raw c : Byte) :
    getSpan t (setSpan s raw c) = getSpan t raw := by
  have hw := Span.lo_add_width ht
  apply BitVec.eq_of_getLsbD_eq
  intro k hk
  rw [getSpan_getLsbD ht, getSpan_getLsbD ht]
  by_cases hkw : k < t.width
  · rw [setSpan_getLsbD hs _ _ _ (by omega), if_neg (by omega)]
  · simp [hkw]

/-- R26: `with_field(F, raw, field(F, raw)) = raw`. -/
theorem setSpan_getSpan {s : Span} (h : s.ok) (raw : Byte) : setSpan s raw (getSpan s raw) = raw := by
  have hw := Span.lo_add_width h
  apply BitVec.eq_of_getLsbD_eq
  intro k hk
  rw [setSpan_getLsbD h _ _ _ hk]
  split
  · rename_i hin
    rw [getSpan_getLsbD h, show s.lo + (k - s.lo) = k by omega]
    have : k - s.lo < s.width := by omega
    simp [this]
  · rfl

/-- Insertions into disjoint fields commute (R158). -/
theorem setSpan_comm {s t : Span} (hs : s.ok) (ht : t.ok) (hd : s.disjoint t) (raw c d : Byte) :
    setSpan s (setSpan t raw d) c = setSpan t (setSpan s raw c) d := by
  apply BitVec.eq_of_getLsbD_eq
  intro k hk
  rw [setSpan_getLsbD hs _ _ _ hk, setSpan_getLsbD ht _ _ _ hk, setSpan_getLsbD ht _ _ _ hk, setSpan_getLsbD hs _ _ _ hk]
  by_cases h1 : s.lo ≤ k ∧ k ≤ s.hi
  · rw [if_pos h1, if_neg (by omega), if_pos h1]
  · rw [if_neg h1, if_neg h1]

/-! ## Byte lanes of a result -/

/-- Byte `k` of packed bytes (R105), `q` being 16 bytes long. -/
theorem packBytes_byte (bs : List Byte) (k : Nat) (hk : k < 16) :
    (packBytes bs).extractLsb' (8 * k) 8 = bs.getD k 0#8 := by
  induction bs generalizing k with
  | nil => simp [packBytes]
  | cons b bs ih =>
    apply BitVec.eq_of_getLsbD_eq
    intro j hj
    rw [BitVec.getLsbD_extractLsb']
    simp only [packBytes, BitVec.getLsbD_or, BitVec.getLsbD_setWidth, BitVec.getLsbD_shiftLeft, hj, decide_true,
      Bool.true_and]
    cases k with
    | zero =>
      have h1 : j < 128 := by omega
      simp [h1, hj]
    | succ k =>
      have h1 : ¬ 8 * (k + 1) + j < 8 := by omega
      have h2 : 8 * (k + 1) + j < 128 := by omega
      have hb : b.getLsbD (8 * (k + 1) + j) = false := BitVec.getLsbD_of_ge _ _ (by omega)
      have := congrArg (fun x => x.getLsbD j) (ih k (by omega))
      simp only [BitVec.getLsbD_extractLsb', hj, decide_true, Bool.true_and] at this
      rw [show 8 * (k + 1) + j - 8 = 8 * k + j by omega]
      simp [h1, h2, hb, this]

/-- Bits above the packed bytes are 0 (R127: "bits not named are 0"). -/
theorem packBytes_high (bs : List Byte) (k : Nat) (hk : 8 * bs.length ≤ k) : (packBytes bs).getLsbD k = false := by
  induction bs generalizing k with
  | nil => simp [packBytes]
  | cons b bs ih =>
    simp only [List.length_cons] at hk
    simp only [packBytes, BitVec.getLsbD_or, BitVec.getLsbD_setWidth, BitVec.getLsbD_shiftLeft]
    rw [BitVec.getLsbD_of_ge b k (by omega), ih (k - 8) (by omega)]
    simp

/-! ## The tables -/

/-- Every field lies in a byte (R26). -/
theorem fieldSpan_ok (f : Field) : (fieldSpan f).ok := by
  cases f <;> decide

/-- Every lane lies in a byte (R151). -/
theorem lane_ok (r : Reg) : ∀ l ∈ regLanes r, l.span.ok := by
  cases r <;> decide

/-- The spec's layout gives a lane the span of `Lane.span`. -/
@[simp] theorem laneSpan_tables (l : Lane) : laneSpan tables l = l.span := by
  cases l <;> rfl

/-- The spec's lanes cover every register (R151). -/
theorem tables_tiles (r : Reg) : tables.tiles r := by
  cases r <;> decide

/-- Lanes that tile from bit `n` up all lie in a byte, at or above `n`, whatever the layout. -/
theorem tilesFrom_ok {T : DeviceTables} {n : Nat} {ls : List Lane} (h : tilesFrom T n ls = true) :
    n ≤ 8 ∧ ∀ l ∈ ls, (laneSpan T l).ok ∧ n ≤ (laneSpan T l).lo := by
  induction ls generalizing n with
  | nil => simp only [tilesFrom, beq_iff_eq] at h; simp [h]
  | cons l ls ih =>
    simp only [tilesFrom, Bool.and_eq_true, beq_iff_eq, decide_eq_true_eq] at h
    obtain ⟨⟨hn, hle⟩, ht⟩ := h
    obtain ⟨h8, hall⟩ := ih ht
    refine ⟨by omega, fun l' hl' => ?_⟩
    rcases List.mem_cons.mp hl' with rfl | hm
    · exact ⟨⟨hle, by omega⟩, by omega⟩
    · exact ⟨(hall l' hm).1, by have := (hall l' hm).2; omega⟩

/-- There are at most eight of them, one per bit. -/
theorem tilesFrom_length {T : DeviceTables} {n : Nat} {ls : List Lane} (h : tilesFrom T n ls = true) :
    n + ls.length ≤ 8 := by
  induction ls generalizing n with
  | nil => simp only [tilesFrom, beq_iff_eq] at h; simp [h]
  | cons l ls ih =>
    simp only [tilesFrom, Bool.and_eq_true, beq_iff_eq, decide_eq_true_eq] at h
    have := ih h.2
    simp only [List.length_cons]
    omega

/-- Two different fields of one register share no bit (R26). -/
theorem fields_disjoint {f g : Field} (hr : fieldReg f = fieldReg g) (hne : f ≠ g) :
    (fieldSpan f).disjoint (fieldSpan g) := by
  revert hr hne
  cases f <;> cases g <;> decide

/-- A field is a lane of its own register and of no other (R86, R151). -/
theorem mem_regFields (r : Reg) (f : Field) : f ∈ regFields tables r ↔ fieldReg f = r := by
  cases r <;> cases f <;> decide

end Sys2Proof.Machine
end

