-- ==== Sys2Proof/Laws/State.lean ====
section
/-! SUPPORT. One lemma per field per update of the state, true by rfl. -/

namespace Sys2Proof.Machine

/-! ## push -/

@[simp] theorem State.push_inputs (s : State) (r : Response) : (s.push r).inputs = s.inputs := rfl
@[simp] theorem State.push_cmd (s : State) (r : Response) : (s.push r).cmd = s.cmd := rfl
@[simp] theorem State.push_responses (s : State) (r : Response) : (s.push r).responses = s.responses ++ [r] := rfl
@[simp] theorem State.push_thrQuant (s : State) (r : Response) : (s.push r).thrQuant = s.thrQuant := rfl
@[simp] theorem State.push_session (s : State) (r : Response) : (s.push r).session = s.session := rfl
@[simp] theorem State.push_results (s : State) (r : Response) : (s.push r).results = s.results := rfl
@[simp] theorem State.push_regs (s : State) (r : Response) : (s.push r).regs = s.regs := rfl
@[simp] theorem State.push_strayed (s : State) (r : Response) : (s.push r).strayed = s.strayed := rfl
@[simp] theorem State.push_env (s : State) (r : Response) : (s.push r).env = s.env := rfl
@[simp] theorem State.push_trace (s : State) (r : Response) : (s.push r).trace = s.trace := rfl

/-! ## present -/

@[simp] theorem State.present_inputs (s : State) (c : Command) : (s.present c).inputs = s.inputs := rfl
@[simp] theorem State.present_cmd (s : State) (c : Command) : (s.present c).cmd = c := rfl
@[simp] theorem State.present_responses (s : State) (c : Command) : (s.present c).responses = s.responses := rfl
@[simp] theorem State.present_thrQuant (s : State) (c : Command) : (s.present c).thrQuant = s.thrQuant := rfl
@[simp] theorem State.present_session (s : State) (c : Command) : (s.present c).session = s.session := rfl
@[simp] theorem State.present_results (s : State) (c : Command) : (s.present c).results = s.results := rfl
@[simp] theorem State.present_regs (s : State) (c : Command) : (s.present c).regs = s.regs := rfl
@[simp] theorem State.present_strayed (s : State) (c : Command) : (s.present c).strayed = s.strayed := rfl
@[simp] theorem State.present_env (s : State) (c : Command) : (s.present c).env = s.env := rfl
@[simp] theorem State.present_trace (s : State) (c : Command) : (s.present c).trace = s.trace := rfl

/-! ## pushResult -/

@[simp] theorem State.pushResult_inputs (s : State) (r : HostResult) : (s.pushResult r).inputs = s.inputs := rfl
@[simp] theorem State.pushResult_cmd (s : State) (r : HostResult) : (s.pushResult r).cmd = s.cmd := rfl
@[simp] theorem State.pushResult_responses (s : State) (r : HostResult) : (s.pushResult r).responses = s.responses := rfl
@[simp] theorem State.pushResult_thrQuant (s : State) (r : HostResult) : (s.pushResult r).thrQuant = s.thrQuant := rfl
@[simp] theorem State.pushResult_session (s : State) (r : HostResult) : (s.pushResult r).session = s.session := rfl
@[simp] theorem State.pushResult_results (s : State) (r : HostResult) : (s.pushResult r).results = s.results ++ [r] := rfl
@[simp] theorem State.pushResult_regs (s : State) (r : HostResult) : (s.pushResult r).regs = s.regs := rfl
@[simp] theorem State.pushResult_strayed (s : State) (r : HostResult) : (s.pushResult r).strayed = s.strayed := rfl
@[simp] theorem State.pushResult_env (s : State) (r : HostResult) : (s.pushResult r).env = s.env := rfl
@[simp] theorem State.pushResult_trace (s : State) (r : HostResult) : (s.pushResult r).trace = s.trace := rfl

/-! ## openSession -/

@[simp] theorem State.openSession_inputs (s : State) (v : Variant) (w : BitVec 7) : (s.openSession v w).inputs = s.inputs := rfl
@[simp] theorem State.openSession_cmd (s : State) (v : Variant) (w : BitVec 7) : (s.openSession v w).cmd = s.cmd := rfl
@[simp] theorem State.openSession_responses (s : State) (v : Variant) (w : BitVec 7) : (s.openSession v w).responses = s.responses := rfl
@[simp] theorem State.openSession_thrQuant (s : State) (v : Variant) (w : BitVec 7) : (s.openSession v w).thrQuant = s.thrQuant := rfl
@[simp] theorem State.openSession_session (s : State) (v : Variant) (w : BitVec 7) : (s.openSession v w).session = some { variant := v, addr7 := w } := rfl
@[simp] theorem State.openSession_results (s : State) (v : Variant) (w : BitVec 7) : (s.openSession v w).results = s.results := rfl
@[simp] theorem State.openSession_regs (s : State) (v : Variant) (w : BitVec 7) : (s.openSession v w).regs = s.regs := rfl
@[simp] theorem State.openSession_strayed (s : State) (v : Variant) (w : BitVec 7) : (s.openSession v w).strayed = s.strayed := rfl
@[simp] theorem State.openSession_env (s : State) (v : Variant) (w : BitVec 7) : (s.openSession v w).env = s.env := rfl
@[simp] theorem State.openSession_trace (s : State) (v : Variant) (w : BitVec 7) : (s.openSession v w).trace = s.trace := rfl

/-! ## closeSession -/

@[simp] theorem State.closeSession_inputs (s : State) : (s.closeSession).inputs = s.inputs := rfl
@[simp] theorem State.closeSession_cmd (s : State) : (s.closeSession).cmd = s.cmd := rfl
@[simp] theorem State.closeSession_responses (s : State) : (s.closeSession).responses = s.responses := rfl
@[simp] theorem State.closeSession_thrQuant (s : State) : (s.closeSession).thrQuant = s.thrQuant := rfl
@[simp] theorem State.closeSession_session (s : State) : (s.closeSession).session = none := rfl
@[simp] theorem State.closeSession_results (s : State) : (s.closeSession).results = s.results := rfl
@[simp] theorem State.closeSession_regs (s : State) : (s.closeSession).regs = s.regs := rfl
@[simp] theorem State.closeSession_strayed (s : State) : (s.closeSession).strayed = s.strayed := rfl
@[simp] theorem State.closeSession_env (s : State) : (s.closeSession).env = s.env := rfl
@[simp] theorem State.closeSession_trace (s : State) : (s.closeSession).trace = s.trace := rfl

/-! ## settle -/

@[simp] theorem State.settle_inputs (s : State) : (s.settle).inputs = s.inputs := rfl
@[simp] theorem State.settle_cmd (s : State) : (s.settle).cmd = s.cmd := rfl
@[simp] theorem State.settle_responses (s : State) : (s.settle).responses = s.responses := rfl
@[simp] theorem State.settle_thrQuant (s : State) : (s.settle).thrQuant = s.thrQuant := rfl
@[simp] theorem State.settle_session (s : State) : (s.settle).session = s.session := rfl
@[simp] theorem State.settle_results (s : State) : (s.settle).results = s.results := rfl
@[simp] theorem State.settle_regs (s : State) : (s.settle).regs = s.envEvent.changes.foldl (deviceChange s.strayed) s.regs := rfl
@[simp] theorem State.settle_strayed (s : State) : (s.settle).strayed = s.strayed := rfl
@[simp] theorem State.settle_env (s : State) : (s.settle).env = s.env.tail := rfl
@[simp] theorem State.settle_trace (s : State) : (s.settle).trace = s.trace := rfl

/-! ## logBus -/

@[simp] theorem State.logBus_inputs (s : State) (e : BusEvent) : (s.logBus e).inputs = s.inputs := rfl
@[simp] theorem State.logBus_cmd (s : State) (e : BusEvent) : (s.logBus e).cmd = s.cmd := rfl
@[simp] theorem State.logBus_responses (s : State) (e : BusEvent) : (s.logBus e).responses = s.responses := rfl
@[simp] theorem State.logBus_thrQuant (s : State) (e : BusEvent) : (s.logBus e).thrQuant = s.thrQuant := rfl
@[simp] theorem State.logBus_session (s : State) (e : BusEvent) : (s.logBus e).session = s.session := rfl
@[simp] theorem State.logBus_results (s : State) (e : BusEvent) : (s.logBus e).results = s.results := rfl
@[simp] theorem State.logBus_regs (s : State) (e : BusEvent) : (s.logBus e).regs = s.regs := rfl
@[simp] theorem State.logBus_strayed (s : State) (e : BusEvent) : (s.logBus e).strayed = s.strayed := rfl
@[simp] theorem State.logBus_env (s : State) (e : BusEvent) : (s.logBus e).env = s.env := rfl
@[simp] theorem State.logBus_trace (s : State) (e : BusEvent) : (s.logBus e).trace = s.trace ++ [e] := rfl

/-! ## land -/

@[simp] theorem State.land_inputs (s : State) (p : Nat) (b : Byte) : (s.land p b).inputs = s.inputs := rfl
@[simp] theorem State.land_cmd (s : State) (p : Nat) (b : Byte) : (s.land p b).cmd = s.cmd := rfl
@[simp] theorem State.land_responses (s : State) (p : Nat) (b : Byte) : (s.land p b).responses = s.responses := rfl
@[simp] theorem State.land_thrQuant (s : State) (p : Nat) (b : Byte) : (s.land p b).thrQuant = s.thrQuant := rfl
@[simp] theorem State.land_session (s : State) (p : Nat) (b : Byte) : (s.land p b).session = s.session := rfl
@[simp] theorem State.land_results (s : State) (p : Nat) (b : Byte) : (s.land p b).results = s.results := rfl
@[simp] theorem State.land_regs (s : State) (p : Nat) (b : Byte) : (s.land p b).regs = s.regs.write p b := rfl
@[simp] theorem State.land_strayed (s : State) (p : Nat) (b : Byte) : (s.land p b).strayed = (s.strayed || leavesSpec p b) := rfl
@[simp] theorem State.land_env (s : State) (p : Nat) (b : Byte) : (s.land p b).env = s.env := rfl
@[simp] theorem State.land_trace (s : State) (p : Nat) (b : Byte) : (s.land p b).trace = s.trace := rfl

/-! ## withFetchWord -/

@[simp] theorem State.withFetchWord_inputs (s : State) (n w : Nat) :
    (s.withFetchWord n w).inputs =
      .command
        { op := (BitVec.ofNat 16 (w % 2 ^ n)).extractLsb' 8 8
          sel := (BitVec.ofNat 16 (w % 2 ^ n)).extractLsb' 0 8
          a := s.cmd.a } :: s.inputs := rfl
@[simp] theorem State.withFetchWord_cmd (s : State) (n w : Nat) : (s.withFetchWord n w).cmd = s.cmd := rfl
@[simp] theorem State.withFetchWord_responses (s : State) (n w : Nat) : (s.withFetchWord n w).responses = s.responses := rfl
@[simp] theorem State.withFetchWord_thrQuant (s : State) (n w : Nat) : (s.withFetchWord n w).thrQuant = s.thrQuant := rfl
@[simp] theorem State.withFetchWord_session (s : State) (n w : Nat) : (s.withFetchWord n w).session = s.session := rfl
@[simp] theorem State.withFetchWord_results (s : State) (n w : Nat) : (s.withFetchWord n w).results = s.results := rfl
@[simp] theorem State.withFetchWord_regs (s : State) (n w : Nat) : (s.withFetchWord n w).regs = s.regs := rfl
@[simp] theorem State.withFetchWord_strayed (s : State) (n w : Nat) : (s.withFetchWord n w).strayed = s.strayed := rfl
@[simp] theorem State.withFetchWord_env (s : State) (n w : Nat) : (s.withFetchWord n w).env = s.env := rfl
@[simp] theorem State.withFetchWord_trace (s : State) (n w : Nat) : (s.withFetchWord n w).trace = s.trace := rfl

/-! ## Small facts -/

/-- The last response after one more is that one. -/
@[simp] theorem State.lastResponse_push (s : State) (r : Response) : (s.push r).lastResponse = r := by
  simp [State.lastResponse]

/-- `envEvent` of a state whose list has not ended. -/
theorem State.envEvent_cons {s : State} {e : EnvEvent} {es : List EnvEvent} (h : s.env = e :: es) : s.envEvent = e := by
  simp [State.envEvent, h]

/-- `envEvent` where the list has ended: the transport works and the device changes nothing. -/
theorem State.envEvent_nil {s : State} (h : s.env = []) : s.envEvent = { fails := false, changes := [] } := by
  simp [State.envEvent, h]

/-- The environment event depends on `env` alone. -/
theorem State.envEvent_congr {s t : State} (h : s.env = t.env) : s.envEvent = t.envEvent := by
  simp [State.envEvent, h]

@[simp] theorem State.envEvent_push (s : State) (r : Response) : (s.push r).envEvent = s.envEvent := rfl
@[simp] theorem State.envEvent_present (s : State) (c : Command) : (s.present c).envEvent = s.envEvent := rfl
@[simp] theorem State.envEvent_pushResult (s : State) (r : HostResult) : (s.pushResult r).envEvent = s.envEvent := rfl
@[simp] theorem State.envEvent_logBus (s : State) (e : BusEvent) : (s.logBus e).envEvent = s.envEvent := rfl
@[simp] theorem State.envEvent_land (s : State) (p : Nat) (b : Byte) : (s.land p b).envEvent = s.envEvent := rfl
@[simp] theorem State.envEvent_openSession (s : State) (v : Variant) (w : BitVec 7) :
    (s.openSession v w).envEvent = s.envEvent := rfl
@[simp] theorem State.envEvent_closeSession (s : State) : s.closeSession.envEvent = s.envEvent := rfl

/-- `fetch` takes the first action and leaves the rest. -/
theorem fetch_cons {s : State} {act : HostAction} {rest : List HostAction} (h : s.inputs = act :: rest) :
    fetch s = some (act, { s with inputs := rest }) := by
  simp [fetch, h]

/-- `fetch` of a host that does nothing more. -/
theorem fetch_nil {s : State} (h : s.inputs = []) : fetch s = none := by
  simp [fetch, h]

end Sys2Proof.Machine
end

