-- ==== Sys2Proof/Laws/Commands.lean ====
section
/-! SUPPORT. What a command can do, said once: `exec` puts one reply on the response port and does nothing else, and the
reply is a function of the instruction, the data operand and the switch `THR_QUANT` (R12). -/

namespace Sys2Proof.Machine

/-- The reply of an instruction to a data operand. -/
def replyOf (t : Config.ThrQuant) (a : Operand) : Instr → Reply
  | .rdef reg => rdefReply reg
  | .rdec reg => rdecReply tables reg a
  | .renc reg => rencReply tables reg a
  | .rchk dual reg => rchkReply tables dual reg a
  | .fget f => fgetReply tables f a
  | .fset f => fsetReply tables f a
  | .pk16le => pk16leReply a
  | .pk16be => pk16beReply a
  | .up16le => up16leReply a
  | .up16be => up16beReply a
  | .wfrm reg => wfrmReply tables reg a
  | .rfrm len reg => rfrmReply tables len reg
  | .vaddr v => vaddrReply v
  | .vdid v => vdidReply v
  | .vcls v => vclsReply v
  | .vrng c r => vrngReply c r
  | .midchk => midchkReply a
  | .didchk v => didchkReply tables v a
  | .chaxis axis => chaxisReply tables axis a
  | .chall => challReply tables a
  | .chset => chsetReply tables a
  | .tchk => tchkReply tables a
  | .angchk => angchkReply tables a
  | .rngsel axis => rngselReply tables axis a
  | .cvmag c r axis => cvmagReply c r axis a
  | .cvtemp => cvtempReply a
  | .cvang => cvangReply a
  | .cvburst c rxy rz => cvburstReply c rxy rz a
  | .threnc c r => threncReply t c r a
  | .thrdec c r => thrdecReply c r a
  | .gain => gainReply a
  | .magn => magnReply a
  | .offenc => offencReply tables a
  | .offdec => offdecReply tables a

/-- What `exec` does. -/
theorem exec_eq_answer (i : Instr) (s : State) : exec i s = answer (replyOf s.thrQuant s.cmd.a i) s := by
  cases i <;> rfl

/-- `exec` as the next state. -/
theorem exec_eq_next (i : Instr) (s : State) :
    exec i s = .next (s.push (respond (replyOf s.thrQuant s.cmd.a i))) :=
  exec_eq_answer i s

/-- If `exec` gives a next state, it is the old one with one response more. -/
theorem exec_next {i : Instr} {s t : State} (h : exec i s = .next t) :
    t = s.push (respond (replyOf s.thrQuant s.cmd.a i)) := by
  rw [exec_eq_next] at h
  exact (Host.Outcome.next.inj h).symm

@[simp] theorem respond_ok (q : Result) : respond (.ok q) = { status := 0#4, q := q } := rfl

@[simp] theorem respond_error (f : FaultKind) : respond (.error f) = { status := statusCode f, q := 0#128 } := rfl

/-- No fault has the status of success (R270). -/
@[simp] theorem statusCode_ne_zero (f : FaultKind) : statusCode f ≠ 0#4 := by
  cases f <;> decide

/-- The status codes are pairwise different (R270). -/
theorem statusCode_injective {f g : FaultKind} (h : statusCode f = statusCode g) : f = g := by
  revert h; cases f <;> cases g <;> decide

/-- What a command does: the decoded instruction's reply, or IllegalOp. -/
theorem runCommand_eq (c : Command) (s : State) :
    runCommand c s =
      .next ((s.present c).push
        (respond (match decode c.iw with
          | .ok i => replyOf s.thrQuant c.a i
          | .error _ => .error .illegalOp))) := by
  unfold runCommand
  cases decode c.iw with
  | ok i => exact exec_eq_next i (s.present c)
  | error e => rfl

/-- A command is answered by one response, whatever its word (R271). -/
theorem runCommand_next (c : Command) (s : State) :
    ∃ r : Reply, runCommand c s = .next ((s.present c).push (respond r)) :=
  ⟨_, runCommand_eq c s⟩

/-- The instruction word of `commandOf` is the instruction's encoding. -/
@[simp] theorem commandOf_iw (i : Instr) (a : Operand) : (commandOf i a).iw = encode i := rfl

@[simp] theorem commandOf_a (i : Instr) (a : Operand) : (commandOf i a).a = a := rfl

/-- A block command inside a host sequence, for an instruction that decodes from its own encoding. -/
theorem ask_eq {i : Instr} (hi : decode (encode i) = .ok i) (a : Operand) (s : State) :
    ask i a s =
      match replyOf s.thrQuant a i with
      | .ok q => .value q ((s.present (commandOf i a)).push { status := 0#4, q := q })
      | .error f => .ended (statusCode f) ((s.present (commandOf i a)).push { status := statusCode f, q := 0#128 }) := by
  unfold ask
  rw [runCommand_eq]
  simp only [commandOf_iw, hi, commandOf_a]
  cases h : replyOf s.thrQuant a i with
  | ok q => simp
  | error f => simp

/-- `step` on a command. -/
theorem step_command {s : State} {c : Command} {rest : List HostAction} (h : s.inputs = .command c :: rest) :
    step s = runCommand c { s with inputs := rest } := by
  simp [step, fetch_cons h, runAction]

/-- `step` on a host sequence. -/
theorem step_call {s : State} {h : HostCall} {rest : List HostAction} (hs : s.inputs = .call h :: rest) :
    step s = finish (runCall h { s with inputs := rest }) := by
  simp [step, fetch_cons hs, runAction]

end Sys2Proof.Machine
end

