-- ==== Sys2Proof/Laws/Memory.lean ====
section
/-! SUPPORT. The register file: read after write, and that every operation on it keeps the canonical form. -/

namespace Sys2Proof.Machine

/-- A listed form is above `lo` only if it is above everything below `lo`. -/
theorem Memory.wfAbove_mono {m : Memory} {lo lo' : Nat} (h : m.wfAbove lo = true) (hle : lo' ≤ lo) :
    m.wfAbove lo' = true := by
  cases m with
  | nil => rfl
  | cons c rest =>
    simp only [Memory.wfAbove, Bool.and_eq_true, decide_eq_true_eq] at h ⊢
    exact ⟨⟨⟨by omega, h.1.1.2⟩, h.1.2⟩, h.2⟩

/-- Below its first listed address a form reads as `unlisted`. -/
theorem Memory.read_of_lt {m : Memory} {lo addr : Nat} (h : m.wfAbove lo = true) (hlt : addr < lo) :
    m.read addr = unlisted addr := by
  induction m generalizing lo with
  | nil => rfl
  | cons c rest ih =>
    simp only [Memory.wfAbove, Bool.and_eq_true, decide_eq_true_eq] at h
    have hne : c.1 ≠ addr := by omega
    simp only [Memory.read, if_neg hne]
    exact ih h.2 (by omega)

/-- A read after a write to the same register gives the byte written. -/
theorem Memory.read_write_same {m : Memory} {lo : Nat} (h : m.wfAbove lo = true) (addr : Nat) (b : Byte) :
    (m.write addr b).read addr = b := by
  induction m generalizing lo with
  | nil =>
    by_cases hb : b = unlisted addr
    · simp [Memory.write, Memory.read, hb]
    · simp [Memory.write, Memory.read, hb]
  | cons c rest ih =>
    obtain ⟨k, v⟩ := c
    have h' := h
    simp only [Memory.wfAbove, Bool.and_eq_true, decide_eq_true_eq] at h
    simp only [Memory.write]
    split
    · rename_i hlt
      split
      · rename_i hb
        rw [hb]
        exact Memory.read_of_lt (lo := k) (by simp [Memory.wfAbove, h.1.1.2, h.1.2, h.2]) hlt
      · simp [Memory.read]
    · split
      · rename_i heq
        subst heq
        split
        · rename_i hb
          rw [hb]
          exact Memory.read_of_lt h.2 (by omega)
        · simp [Memory.read]
      · rename_i hne
        simp only [Memory.read, if_neg (fun e => hne (Eq.symm e))]
        exact ih h.2

/-- A write leaves every other register alone. -/
theorem Memory.read_write_other (m : Memory) {addr addr' : Nat} (b : Byte) (hne : addr' ≠ addr) :
    (m.write addr b).read addr' = m.read addr' := by
  induction m with
  | nil =>
    by_cases hb : b = unlisted addr
    · simp [Memory.write, Memory.read, hb]
    · simp [Memory.write, Memory.read, hb, hne.symm]
  | cons c rest ih =>
    obtain ⟨k, v⟩ := c
    simp only [Memory.write]
    split
    · split
      · rfl
      · simp [Memory.read, hne.symm]
    · split
      · rename_i heq
        subst heq
        split
        · simp [Memory.read, hne.symm]
        · simp [Memory.read, hne.symm]
      · simp only [Memory.read, ih]

/-- A write keeps the canonical form. -/
theorem Memory.wfAbove_write {m : Memory} {lo addr : Nat} (h : m.wfAbove lo = true) (hlo : lo ≤ addr)
    (hmap : addr ≤ 0x1C) (b : Byte) : (m.write addr b).wfAbove lo = true := by
  induction m generalizing lo with
  | nil =>
    by_cases hb : b = unlisted addr
    · simp [Memory.write, Memory.wfAbove, hb]
    · simp [Memory.write, Memory.wfAbove, hb, hlo, hmap]
  | cons c rest ih =>
    obtain ⟨k, v⟩ := c
    simp only [Memory.wfAbove, Bool.and_eq_true, decide_eq_true_eq] at h
    obtain ⟨⟨⟨h1, h2⟩, h3⟩, h4⟩ := h
    simp only [Memory.write]
    split
    · rename_i hlt
      split
      · simp [Memory.wfAbove, h1, h2, h3, h4]
      · rename_i hb
        simp [Memory.wfAbove, hlo, hmap, hb, h2, h3, h4]
        omega
    · split
      · rename_i heq
        subst heq
        split
        · exact Memory.wfAbove_mono h4 (by omega)
        · rename_i hb
          simp [Memory.wfAbove, h1, h2, hb, h4]
      · simp [Memory.wfAbove, h1, h2, h3]
        exact ih h4 (by omega)

theorem Memory.wf_write {m : Memory} (h : m.wf = true) {addr : Nat} (hmap : addr ≤ 0x1C) (b : Byte) :
    (m.write addr b).wf = true :=
  Memory.wfAbove_write h (Nat.zero_le _) hmap b

/-- The device's own changes keep the canonical form. -/
theorem deviceChange_wf {m : Memory} (h : m.wf = true) (strayed : Bool) (c : Host.Cell) :
    (deviceChange strayed m c).wf = true := by
  unfold deviceChange
  split
  · rename_i hle
    exact Memory.wf_write h hle _
  · exact h

theorem deviceChanges_wf {m : Memory} (h : m.wf = true) (strayed : Bool) (cs : List Host.Cell) :
    (cs.foldl (deviceChange strayed) m).wf = true := by
  induction cs generalizing m with
  | nil => exact h
  | cons c cs ih => exact ih (deviceChange_wf h strayed c)

/-- What one change by the device leaves in a register: the bits it may not change, and its own in the others. -/
theorem deviceChange_read {m : Memory} (h : m.wf = true) (strayed : Bool) (c : Host.Cell) (addr : Nat) :
    (deviceChange strayed m c).read addr =
      if c.1 = addr ∧ addr ≤ 0x1C then
        (m.read addr &&& ~~~deviceMask strayed addr) ||| (c.2 &&& deviceMask strayed addr)
      else m.read addr := by
  unfold deviceChange
  by_cases hle : c.1 ≤ 0x1C
  · by_cases hc : c.1 = addr
    · subst hc
      rw [if_pos hle, if_pos ⟨rfl, hle⟩, Memory.read_write_same h]
    · rw [if_pos hle, if_neg (fun e => hc e.1), Memory.read_write_other _ _ (Ne.symm hc)]
  · rw [if_neg hle, if_neg (by omega)]

/-- A bit outside the device's mask is the same after any changes by the device. -/
theorem deviceChanges_keep_bit {m : Memory} (h : m.wf = true) (strayed : Bool) (cs : List Host.Cell) (addr k : Nat)
    (hk : (deviceMask strayed addr).getLsbD k = false) :
    ((cs.foldl (deviceChange strayed) m).read addr).getLsbD k = (m.read addr).getLsbD k := by
  induction cs generalizing m with
  | nil => rfl
  | cons c cs ih =>
    rw [List.foldl_cons, ih (deviceChange_wf h strayed c), deviceChange_read h]
    split
    · by_cases hk8 : k < 8
      · have hk' : (deviceMask strayed addr)[k] = false := by rw [← BitVec.getLsbD_eq_getElem]; exact hk
        simp [hk8, hk']
      · rw [BitVec.getLsbD_of_ge _ _ (by omega), BitVec.getLsbD_of_ge _ _ (by omega)]
    · rfl

/-- A register whose mask is empty is untouched by any changes by the device. -/
theorem deviceChanges_keep {m : Memory} (h : m.wf = true) (strayed : Bool) (cs : List Host.Cell) (addr : Nat)
    (hmask : deviceMask strayed addr = 0#8) : (cs.foldl (deviceChange strayed) m).read addr = m.read addr := by
  apply BitVec.eq_of_getLsbD_eq
  intro k _
  exact deviceChanges_keep_bit h strayed cs addr k (by rw [hmask]; simp)

/-- Settling keeps the canonical form. -/
theorem State.settle_wf {s : State} (h : s.regs.wf = true) : s.settle.regs.wf = true :=
  deviceChanges_wf h _ _

/-- Landing a write keeps the canonical form. -/
theorem State.land_wf {s : State} (h : s.regs.wf = true) {p : Nat} (hp : p ≤ 0x1C) (b : Byte) :
    (s.land p b).regs.wf = true :=
  Memory.wf_write h hp b

end Sys2Proof.Machine
end

