-- ==== Sys2Proof/Laws/Sequences.lean ====
section
/-! SUPPORT. Host sequences: how `andThen` goes on, what the bus primitives can do, and a way to show once that a sequence
keeps a property of the state and never stops the machine. -/

namespace Sys2Proof.Machine

@[simp] theorem HostRun.andThen_value {α β : Type} (v : α) (s : State) (k : α → State → HostRun β) :
    (HostRun.value v s).andThen k = k v s := rfl

@[simp] theorem HostRun.andThen_ended {α β : Type} (st : BitVec 4) (s : State) (k : α → State → HostRun β) :
    (HostRun.ended st s : HostRun α).andThen k = .ended st s := rfl

@[simp] theorem HostRun.andThen_fault {α β : Type} (f : Fault) (k : α → State → HostRun β) :
    (HostRun.fault f : HostRun α).andThen k = .fault f := rfl

@[simp] theorem HostRun.andThen_refused {α β : Type} (r : Refusal) (k : α → State → HostRun β) :
    (HostRun.refused r : HostRun α).andThen k = .refused r := rfl

/-- Wherever the sequence leaves a state, the state has the property. -/
def HostRun.Keeps {α : Type} (P : State → Prop) : HostRun α → Prop
  | .value _ s => P s
  | .ended _ s => P s
  | .fault _ => True
  | .refused _ => True

/-- The sequence comes to a value or an end, not to a stop of the model. -/
def HostRun.NoStop {α : Type} : HostRun α → Prop
  | .value _ _ => True
  | .ended _ _ => True
  | .fault _ => False
  | .refused _ => False

@[simp] theorem HostRun.keeps_value {α : Type} (P : State → Prop) (v : α) (s : State) :
    (HostRun.value v s).Keeps P ↔ P s := Iff.rfl

@[simp] theorem HostRun.keeps_ended {α : Type} (P : State → Prop) (st : BitVec 4) (s : State) :
    (HostRun.ended st s : HostRun α).Keeps P ↔ P s := Iff.rfl

@[simp] theorem HostRun.keeps_fault {α : Type} (P : State → Prop) (f : Fault) :
    (HostRun.fault f : HostRun α).Keeps P := trivial

@[simp] theorem HostRun.keeps_refused {α : Type} (P : State → Prop) (r : Refusal) :
    (HostRun.refused r : HostRun α).Keeps P := trivial

/-- A sequence keeps what each of its parts keeps. -/
theorem HostRun.Keeps.andThen {α β : Type} {P : State → Prop} {x : HostRun α} {k : α → State → HostRun β}
    (hx : x.Keeps P) (hk : ∀ v s, P s → (k v s).Keeps P) : (x.andThen k).Keeps P := by
  cases x with
  | value v s => exact hk v s hx
  | ended st s => exact hx
  | fault f => trivial
  | refused r => trivial

/-- A sequence stops nowhere if none of its parts does. -/
theorem HostRun.NoStop.andThen {α β : Type} {x : HostRun α} {k : α → State → HostRun β}
    (hx : x.NoStop) (hk : ∀ v s, x = .value v s → (k v s).NoStop) : (x.andThen k).NoStop := by
  cases x with
  | value v s => exact hk v s rfl
  | ended st s => trivial
  | fault f => exact hx.elim
  | refused r => exact hx.elim

/-- A property that every command keeps is kept by every block command of a sequence. -/
theorem ask_keeps {P : State → Prop} (hP : ∀ s c t, P s → runCommand c s = .next t → P t) (i : Instr) (a : Operand)
    {s : State} (h : P s) : (ask i a s).Keeps P := by
  obtain ⟨r, hr⟩ := runCommand_next (commandOf i a) s
  have ht := hP _ _ _ h hr
  unfold ask
  rw [hr]
  by_cases h0 : (respond r).status = 0#4 <;> simpa [h0] using ht

/-- A block command of a sequence never stops the model. -/
theorem ask_noStop (i : Instr) (a : Operand) (s : State) : (ask i a s).NoStop := by
  obtain ⟨r, hr⟩ := runCommand_next (commandOf i a) s
  unfold ask
  rw [hr]
  by_cases h0 : (respond r).status = 0#4 <;> simp [h0, HostRun.NoStop]

/-- Every outcome of the primitive `write` on a frame for a read-write register. -/
theorem busWrite_frame (w : BitVec 7) {p : Byte} (b : Byte) (hp : p.toNat ≤ 0x0C) (s : State) :
    busWrite w [p, b] s =
      if s.envEvent.fails then .ended (statusCode .bus) (s.settle.logBus (.wrote w [p, b] false))
      else .value () ((s.settle.land p.toNat b).logBus (.wrote w [p, b] true)) := by
  simp only [busWrite, if_neg (show ¬ 0x1C < p.toNat by omega), if_neg (show ¬ 0x0D ≤ p.toNat by omega)]

/-- Every outcome of the primitive `writeRead` on a frame whose bytes are all registers. -/
theorem busWriteRead_frame (w : BitVec 7) {p : Byte} {n : Nat} (hn : n = 1 ∨ n = 2 ∨ n = 8)
    (hp : p.toNat + (n - 1) ≤ 0x1C) (s : State) :
    busWriteRead w [p] n s =
      if s.envEvent.fails then .ended (statusCode .bus) (s.settle.logBus (.read w [p] n none))
      else
        .value (s.settle.regs.readBytes p.toNat n)
          (s.settle.logBus (.read w [p] n (some (s.settle.regs.readBytes p.toNat n)))) := by
  simp only [busWriteRead, if_pos hn, if_neg (show ¬ 0x1C < p.toNat + (n - 1) by omega)]

/-- A property that settling, landing at a read-write register and logging keep is kept by the primitive `write`. -/
theorem busWrite_keeps {P : State → Prop} (hs : ∀ s, P s → P s.settle)
    (hl : ∀ s p b, P s → p ≤ 0x0C → P (s.land p b)) (hg : ∀ s e, P s → P (s.logBus e)) (w : BitVec 7)
    (bytes : List Byte) {s : State} (h : P s) : (busWrite w bytes s).Keeps P := by
  unfold busWrite
  split
  · split
    · trivial
    · split
      · trivial
      · split
        · exact hg _ _ (hs _ h)
        · exact hg _ _ (hl _ _ _ (hs _ h) (by omega))
  · trivial

/-- A property that settling and logging keep is kept by the primitive `writeRead`. -/
theorem busWriteRead_keeps {P : State → Prop} (hs : ∀ s, P s → P s.settle) (hg : ∀ s e, P s → P (s.logBus e))
    (w : BitVec 7) (out : List Byte) (n : Nat) {s : State} (h : P s) : (busWriteRead w out n s).Keeps P := by
  unfold busWriteRead
  split
  · split
    · split
      · trivial
      · split
        · exact hg _ _ (hs _ h)
        · exact hg _ _ (hs _ h)
    · trivial
  · trivial

/-- What `finish` answers if it answers a next state: the state the sequence left, with its result on the record. -/
theorem finish_next {x : HostRun HostValue} {t : State} (h : finish x = .next t) :
    (∃ v s, x = .value v s ∧ t = s.pushResult (.returned v)) ∨
    (∃ st s, x = .ended st s ∧ t = s.pushResult (.failed st)) := by
  cases x with
  | value v s => exact .inl ⟨v, s, rfl, (Host.Outcome.next.inj h).symm⟩
  | ended st s => exact .inr ⟨st, s, rfl, (Host.Outcome.next.inj h).symm⟩
  | fault f => cases h
  | refused r => cases h

/-- A property that a sequence keeps, and that one more result keeps, holds of the state `finish` answers. -/
theorem finish_keeps {P : State → Prop} (hr : ∀ s r, P s → P (s.pushResult r)) {x : HostRun HostValue} (hx : x.Keeps P)
    {t : State} (h : finish x = .next t) : P t := by
  rcases finish_next h with ⟨v, s, rfl, rfl⟩ | ⟨st, s, rfl, rfl⟩
  · exact hr _ _ hx
  · exact hr _ _ hx

/-- The bytes read are as many as asked for (R102). -/
@[simp] theorem Memory.readBytes_length (m : Memory) (addr n : Nat) : (m.readBytes addr n).length = n := by
  simp [Memory.readBytes]

/-- Byte `k` of a read is the register `k` above the first (R102). -/
theorem Memory.readBytes_getElem (m : Memory) (addr n k : Nat) (h : k < n) :
    (m.readBytes addr n)[k]? = some (m.read (addr + k)) := by
  simp [Memory.readBytes, h]

end Sys2Proof.Machine
end

