-- ==== Sys2Proof/Laws/Runs.lean ====
section
/-! SUPPORT. What every host sequence keeps, said once: a property that commands, bus primitives and the opening and closing
of a session keep. -/

namespace Sys2Proof.Machine

/-- What a property of the state must survive to survive every host sequence. -/
structure SequenceStable (P : State → Prop) : Prop where
  answered : ∀ s c t, P s → runCommand c s = .next t → P t
  settled : ∀ s, P s → P s.settle
  landed : ∀ s p b, P s → p ≤ 0x0C → P (s.land p b)
  logged : ∀ s e, P s → P (s.logBus e)
  opened : ∀ s v w, P s → P (s.openSession v w)
  closed : ∀ s, P s → P s.closeSession

variable {P : State → Prop}

theorem SequenceStable.ask (hP : SequenceStable P) (i : Instr) (a : Operand) {s : State} (h : P s) :
    (ask i a s).Keeps P := ask_keeps hP.answered i a h

theorem SequenceStable.memWrite (hP : SequenceStable P) (w : BitVec 7) (reg : Reg) (x : Byte) {s : State} (h : P s) :
    (memWrite w reg x s).Keeps P :=
  (hP.ask _ _ h).andThen fun _ _ h => busWrite_keeps hP.settled hP.landed hP.logged _ _ h

theorem SequenceStable.memRead (hP : SequenceStable P) (w : BitVec 7) (reg : Reg) (len : ReadLen) {s : State} (h : P s) :
    (memRead w reg len s).Keeps P :=
  (hP.ask _ _ h).andThen fun _ _ h => busWriteRead_keeps hP.settled hP.logged _ _ _ h

theorem SequenceStable.readPair (hP : SequenceStable P) (w : BitVec 7) (reg : Reg) {s : State} (h : P s) :
    (readPair w reg s).Keeps P :=
  (hP.memRead w reg .two h).andThen fun _ _ h => (hP.ask _ _ h).andThen fun _ _ h => h

theorem SequenceStable.readResult (hP : SequenceStable P) (w : BitVec 7) (reg : Reg) {s : State} (h : P s) :
    (readResult w reg s).Keeps P :=
  (hP.memRead w reg .two h).andThen fun _ _ h => (hP.ask _ _ h).andThen fun _ _ h => h

theorem SequenceStable.applySets (hP : SequenceStable P) (sets : List (Field × Byte)) (raw : Byte) {s : State} (h : P s) :
    (applySets sets raw s).Keeps P := by
  induction sets generalizing raw s with
  | nil => exact h
  | cons fc rest ih => exact (hP.ask _ _ h).andThen fun _ _ h => ih _ h

theorem SequenceStable.writeBuilt (hP : SequenceStable P) (w : BitVec 7) (reg : Reg) (sets : List (Field × Byte)) {s : State}
    (h : P s) : (writeBuilt w reg sets s).Keeps P :=
  ((hP.ask _ _ h).andThen fun _ _ h => hP.applySets _ _ h).andThen fun _ _ h => hP.memWrite _ _ _ h

theorem SequenceStable.setRegs (hP : SequenceStable P) (w : BitVec 7) (rs : List Reg) (codes : List Byte) {s : State}
    (h : P s) : (setRegs w rs codes s).Keeps P := by
  induction rs generalizing codes s with
  | nil => exact h
  | cons r rs ih => exact (hP.writeBuilt _ _ _ h).andThen fun _ _ h => ih _ h

theorem SequenceStable.getCodes (hP : SequenceStable P) (fs : List (Field × Byte)) {s : State} (h : P s) :
    (getCodes fs s).Keeps P := by
  induction fs generalizing s with
  | nil => exact h
  | cons fr rest ih => exact (hP.ask _ _ h).andThen fun _ _ h => (ih h).andThen fun _ _ h => h

theorem SequenceStable.readManufacturer (hP : SequenceStable P) (w : BitVec 7) {s : State} (h : P s) :
    (readManufacturer w s).Keeps P :=
  (hP.memRead _ _ _ h).andThen fun _ _ h => (hP.ask _ _ h).andThen fun _ _ h => h

theorem SequenceStable.readDeviceId (hP : SequenceStable P) (w : BitVec 7) (v : Variant) {s : State} (h : P s) :
    (readDeviceId w v s).Keeps P :=
  (hP.memRead _ _ _ h).andThen fun _ _ h => (hP.ask _ _ h).andThen fun _ _ h => h

theorem SequenceStable.constructAt (hP : SequenceStable P) (w : BitVec 7) (v : Variant) {s : State} (h : P s) :
    (constructAt w v s).Keeps P :=
  (hP.readManufacturer _ (hP.closed _ h)).andThen fun _ _ h =>
    (hP.readDeviceId _ _ h).andThen fun _ _ h => hP.opened _ _ _ h

theorem SequenceStable.selectRange (hP : SequenceStable P) (axis : Axis) (sc : Half) {s : State} (h : P s) :
    (selectRange axis sc s).Keeps P :=
  (hP.ask _ _ h).andThen fun _ _ h => h

theorem SequenceStable.withSession (k : Session → HostRun HostValue) {s : State} (hk : ∀ x, (k x).Keeps P) :
    (withSession s k).Keeps P := by
  unfold Machine.withSession
  split
  · trivial
  · exact hk _

theorem SequenceStable.isConnected (hP : SequenceStable P) (w : BitVec 7) {s : State} (h : P s) :
    (isConnected w s).Keeps P := by
  have hm := hP.readManufacturer w h
  unfold Machine.isConnected
  revert hm
  cases Machine.readManufacturer w s <;> exact id

/-- A property that is stable in this sense is kept by every host sequence. -/
theorem SequenceStable.runCall (hP : SequenceStable P) (c : HostCall) {s : State} (h : P s) : (runCall c s).Keeps P := by
  cases c with
  | memWrite reg v => exact withSession _ fun x => (hP.memWrite _ _ _ h).andThen fun _ _ h => h
  | memRead reg len => exact withSession _ fun x => (hP.memRead _ _ _ h).andThen fun _ _ h => h
  | writeRegister reg lanes =>
    exact withSession _ fun x =>
      ((hP.ask _ _ h).andThen fun _ _ h => hP.memWrite _ _ _ h).andThen fun _ _ h => h
  | readRegister reg =>
    exact withSession _ fun x =>
      ((hP.memRead _ _ _ h).andThen fun _ _ h => hP.ask _ _ h).andThen fun _ _ h => h
  | readDualRegister reg =>
    refine withSession _ fun x => HostRun.Keeps.andThen (HostRun.Keeps.andThen (hP.readPair _ _ h) fun _ _ h =>
      (hP.ask _ _ h).andThen fun _ s h => ?_) fun _ _ h => h
    cases nextReg tables reg with
    | none => exact h
    | some r => exact (hP.ask _ _ h).andThen fun _ _ h => h
  | construct v => exact (hP.ask _ _ (hP.closed _ h)).andThen fun _ _ h => hP.constructAt _ _ h
  | constructWithAddress w v => exact hP.constructAt _ _ h
  | isConnected => exact withSession _ fun x => hP.isConnected _ h
  | initDefault =>
    exact withSession _ fun x => (hP.writeBuilt _ _ _ h).andThen fun _ _ h => (hP.writeBuilt _ _ _ h).andThen fun _ _ h =>
      (hP.writeBuilt _ _ _ h).andThen fun _ _ h => (hP.writeBuilt _ _ _ h).andThen fun _ _ h => h
  | getDeviceId => exact withSession _ fun x => (hP.readDeviceId _ _ h).andThen fun _ _ h => h
  | getManufacturerId => exact withSession _ fun x => (hP.readManufacturer _ h).andThen fun _ _ h => h
  | setMagThreshold m axis =>
    exact withSession _ fun x => (hP.readPair _ _ h).andThen fun _ _ h => (hP.selectRange _ _ h).andThen fun _ _ h =>
      (hP.ask _ _ h).andThen fun _ _ h => (hP.memWrite _ _ _ h).andThen fun _ _ h => h
  | getMagThreshold axis =>
    exact withSession _ fun x => (hP.readPair _ _ h).andThen fun _ _ h => (hP.selectRange _ _ h).andThen fun _ _ h =>
      (hP.memRead _ _ _ h).andThen fun _ _ h => (hP.ask _ _ h).andThen fun _ _ h => h
  | setMagneticGain g =>
    exact withSession _ fun x => (hP.ask _ _ h).andThen fun _ _ h => (hP.memWrite _ _ _ h).andThen fun _ _ h => h
  | getMagneticGain =>
    exact withSession _ fun x => (hP.memRead _ _ _ h).andThen fun _ _ h => (hP.ask _ _ h).andThen fun _ _ h => h
  | setMagneticOffset m =>
    exact withSession _ fun x => (hP.readPair _ _ h).andThen fun _ _ h => (hP.ask _ _ h).andThen fun _ _ h => h
  | getMagneticOffset =>
    exact withSession _ fun x => (hP.readPair _ _ h).andThen fun _ _ h => (hP.ask _ _ h).andThen fun _ _ h => h
  | getTemperature =>
    exact withSession _ fun x => (hP.memRead _ _ _ h).andThen fun _ _ h => (hP.ask _ _ h).andThen fun _ _ h =>
      (hP.readResult _ _ h).andThen fun _ _ h => (hP.ask _ _ h).andThen fun _ _ h => h
  | getMagData axis =>
    exact withSession _ fun x => (hP.readPair _ _ h).andThen fun _ _ h => (hP.ask _ _ h).andThen fun _ _ h =>
      (hP.selectRange _ _ h).andThen fun _ _ h => (hP.readResult _ _ h).andThen fun _ _ h =>
        (hP.ask _ _ h).andThen fun _ _ h => h
  | getAllData =>
    exact withSession _ fun x => (hP.readPair _ _ h).andThen fun _ _ h => (hP.ask _ _ h).andThen fun _ _ h =>
      (hP.memRead _ _ _ h).andThen fun _ _ h => (hP.ask _ _ h).andThen fun _ _ h =>
        (hP.memRead _ _ _ h).andThen fun _ _ h => (hP.ask _ _ h).andThen fun _ _ h => h
  | getAngle =>
    exact withSession _ fun x => (hP.readPair _ _ h).andThen fun _ _ h => (hP.ask _ _ h).andThen fun _ _ h =>
      (hP.readResult _ _ h).andThen fun _ _ h => (hP.ask _ _ h).andThen fun _ _ h => h
  | getMagnitude =>
    exact withSession _ fun x => (hP.memRead _ _ _ h).andThen fun _ _ h => (hP.ask _ _ h).andThen fun _ _ h => h
  | setGroup c =>
    refine withSession _ fun x => ?_
    unfold Machine.setGroup
    split
    · exact (hP.setRegs _ _ _ h).andThen fun _ _ h => h
    · trivial
  | getGroup g =>
    refine withSession _ fun x => ?_
    cases g with
    | device | sensor =>
      exact (hP.readPair _ _ h).andThen fun _ _ h => (hP.ask _ _ h).andThen fun _ _ h =>
        (hP.getCodes _ h).andThen fun _ _ h => h
    | interrupt =>
      exact (hP.memRead _ _ _ h).andThen fun _ _ h => (hP.ask _ _ h).andThen fun _ _ h =>
        (hP.getCodes _ h).andThen fun _ _ h => h

/-- Such a property, where it does not look at the host's list or record, is kept by every step. -/
theorem SequenceStable.step (hP : SequenceStable P) (hi : ∀ s l, P s → P { s with inputs := l })
    (hr : ∀ s r, P s → P (s.pushResult r)) {s t : State} (h : P s) (e : step s = .next t) : P t := by
  unfold Machine.step at e
  cases hs : s.inputs with
  | nil => simp [fetch_nil hs] at e
  | cons act rest =>
    rw [fetch_cons hs] at e
    cases act with
    | command c => exact hP.answered _ _ _ (hi _ _ h) e
    | busWrite w bs =>
      exact finish_keeps hr
        ((busWrite_keeps hP.settled hP.landed hP.logged _ _ (hi _ _ h)).andThen
          (k := fun _ s => HostRun.value _ s) fun _ _ h => h) e
    | busWriteRead w o n =>
      exact finish_keeps hr
        ((busWriteRead_keeps hP.settled hP.logged _ _ _ (hi _ _ h)).andThen
          (k := fun _ s => HostRun.value _ s) fun _ _ h => h) e
    | call c => exact finish_keeps hr (hP.runCall c (hi _ _ h)) e

end Sys2Proof.Machine
end

