-- ==== Sys2Proof/Laws/Accessors.lean ====
section
/-! SUPPORT. The accessors of R240, said once each: `MemWrite` and `MemRead` are the frame command followed by one bus
primitive on a frame that names registers only, and so they never stop the machine. -/

namespace Sys2Proof.Machine

theorem decode_encode_wfrm (reg : Reg) : decode (encode (.wfrm reg)) = .ok (.wfrm reg) := by
  cases reg <;> decide

theorem decode_encode_rfrm (len : ReadLen) (reg : Reg) : decode (encode (.rfrm len reg)) = .ok (.rfrm len reg) := by
  cases len <;> cases reg <;> decide

/-- The bytes of a result are the bytes packed into it. -/
theorem resultByte_packBytes (bs : List Byte) (k : Nat) (hk : k < 16) :
    resultByte (packBytes bs) k = bs.getD k 0#8 :=
  packBytes_byte bs k hk

/-- The bytes of the data operand are the bytes laid into it. -/
theorem byteAt_operandOf (bs : List Byte) (k : Nat) (hk : k < 8) : byteAt (operandOf bs) k = bs.getD k 0#8 := by
  rw [← packBytes_byte bs k (by omega)]
  ext i hi
  simp only [byteAt, operandOf, BitVec.getElem_extractLsb', BitVec.getLsbD_setWidth, Bool.and_eq_right_iff_imp]
  intro _
  simp only [decide_eq_true_eq]
  omega

/-- The state after a block command of a sequence that answered `r`. -/
def State.answered (s : State) (i : Instr) (a : Operand) (r : Response) : State :=
  (s.present (commandOf i a)).push r

/-- `MemWrite`: BadOperand on a read-only register, otherwise one write frame (R174, R240). -/
theorem memWrite_eq (w : BitVec 7) (reg : Reg) (x : Byte) (s : State) :
    memWrite w reg x s =
      if isReadOnly tables reg then
        .ended (statusCode .badOperand)
          (s.answered (.wfrm reg) (operandOf [x]) { status := statusCode .badOperand, q := 0#128 })
      else
        busWrite w [addrByte tables reg, x]
          (s.answered (.wfrm reg) (operandOf [x]) { status := 0#4, q := packBytes [addrByte tables reg, x] }) := by
  unfold memWrite
  rw [ask_eq (decode_encode_wfrm reg)]
  by_cases h : isReadOnly tables reg = true
  · simp [replyOf, wfrmReply, h, State.answered]
  · have hx : byteAt (operandOf [x]) 0 = x := by simp [byteAt_operandOf]
    simp [replyOf, wfrmReply, h, State.answered, resultByte_packBytes, hx]

/-- `MemRead`: BadOperand where the block frames no such read, otherwise one pointer write and read (R108, R175, R240). -/
theorem memRead_eq (w : BitVec 7) (reg : Reg) (len : ReadLen) (s : State) :
    memRead w reg len s =
      if readAllowed tables len reg then
        busWriteRead w [addrByte tables reg] (lenBytes len)
          (s.answered (.rfrm len reg) 0#64 { status := 0#4, q := packBytes [addrByte tables reg, BitVec.ofNat 8 (lenBytes len)] })
      else
        .ended (statusCode .badOperand)
          (s.answered (.rfrm len reg) 0#64 { status := statusCode .badOperand, q := 0#128 }) := by
  unfold memRead
  rw [ask_eq (decode_encode_rfrm len reg)]
  by_cases h : readAllowed tables len reg = true
  · have hn : ((packBytes [addrByte tables reg, BitVec.ofNat 8 (lenBytes len)]).extractLsb' 8 4).toNat = lenBytes len := by
      cases len <;> cases reg <;> decide
    simp only [replyOf, rfrmReply, h, if_true, HostRun.andThen_value, resultByte_packBytes _ _ (show 0 < 16 by omega), hn]
    rfl
  · simp [replyOf, rfrmReply, h, State.answered]

/-- Every frame the block forms for a write names a read-write register. -/
theorem addrByte_le_of_writable {reg : Reg} (h : isReadOnly tables reg = false) : (addrByte tables reg).toNat ≤ 0x0C := by
  revert h; cases reg <;> decide

/-- Every read the block frames ends at a register. -/
theorem addrByte_le_of_readAllowed {len : ReadLen} {reg : Reg} (h : readAllowed tables len reg = true) :
    (addrByte tables reg).toNat + (lenBytes len - 1) ≤ 0x1C := by
  revert h; cases len <;> cases reg <;> decide

/-- `MemWrite` comes to an end (R109, R174). -/
theorem memWrite_noStop (w : BitVec 7) (reg : Reg) (x : Byte) (s : State) : (memWrite w reg x s).NoStop := by
  rw [memWrite_eq]
  split
  · trivial
  · rename_i h
    rw [busWrite_frame w x (addrByte_le_of_writable (by simpa using h))]
    split <;> trivial

/-- `MemRead` comes to an end (R108, R109). -/
theorem memRead_noStop (w : BitVec 7) (reg : Reg) (len : ReadLen) (s : State) : (memRead w reg len s).NoStop := by
  rw [memRead_eq]
  split
  · rename_i h
    rw [busWriteRead_frame w (by cases len <;> simp [lenBytes]) (addrByte_le_of_readAllowed h)]
    split <;> trivial
  · trivial

end Sys2Proof.Machine
end

