-- ==== Sys2Proof/Laws/Float.lean ====
section
/-! SUPPORT. binary32: the parts of a packed pattern, what `roundMag` gives in units of 2^-149, and that a value which
binary32 holds is given back exactly (R10, R216). -/

namespace Sys2Proof.Machine

/-- The magnitude, in units of 2^-149, of a pattern read as one number `exponent · 2^23 + fraction`. -/
def patternMag (m : Nat) : Nat :=
  if m / 2 ^ 23 = 0 then m % 2 ^ 23 else (2 ^ 23 + m % 2 ^ 23) * 2 ^ (m / 2 ^ 23 - 1)

theorem f32Pack_toNat (neg : Bool) {m : Nat} (hm : m < 2 ^ 31) :
    (f32Pack neg m).toNat = m + if neg then 2 ^ 31 else 0 := by
  unfold f32Pack
  rw [BitVec.toNat_ofNat, Nat.mod_eq_of_lt]
  split <;> omega

@[simp] theorem f32Sign_pack (neg : Bool) {m : Nat} (hm : m < 2 ^ 31) : f32Sign (f32Pack neg m) = neg := by
  unfold f32Sign
  rw [BitVec.getLsbD, f32Pack_toNat neg hm, Nat.testBit_eq_decide_div_mod_eq]
  cases neg <;> simp <;> omega

@[simp] theorem f32Exp_pack (neg : Bool) {m : Nat} (hm : m < 2 ^ 31) : f32Exp (f32Pack neg m) = m / 2 ^ 23 := by
  unfold f32Exp
  rw [BitVec.extractLsb'_toNat, f32Pack_toNat neg hm, Nat.shiftRight_eq_div_pow]
  split <;> omega

@[simp] theorem f32Frac_pack (neg : Bool) {m : Nat} (hm : m < 2 ^ 31) : f32Frac (f32Pack neg m) = m % 2 ^ 23 := by
  unfold f32Frac
  rw [BitVec.extractLsb'_toNat, f32Pack_toNat neg hm, Nat.shiftRight_eq_div_pow]
  split <;> omega

theorem f32Mag_pack (neg : Bool) {m : Nat} (hm : m < 2 ^ 31) : f32Mag (f32Pack neg m) = patternMag m := by
  unfold f32Mag patternMag
  rw [f32Exp_pack neg hm, f32Frac_pack neg hm]

/-- A pattern below infinity's is finite. -/
theorem isNaN_pack (neg : Bool) {m : Nat} (hm : m < 0x7F800000) : isNaN (f32Pack neg m) = false := by
  have h : (m / 2 ^ 23 == 255) = false := by rw [beq_eq_false_iff_ne]; omega
  unfold isNaN
  rw [f32Exp_pack neg (show m < 2 ^ 31 by omega), h, Bool.false_and]

theorem isInf_pack (neg : Bool) {m : Nat} (hm : m < 0x7F800000) : isInf (f32Pack neg m) = false := by
  have h : (m / 2 ^ 23 == 255) = false := by rw [beq_eq_false_iff_ne]; omega
  unfold isInf
  rw [f32Exp_pack neg (show m < 2 ^ 31 by omega), h, Bool.false_and]

/-- `k` steps of the exponent on a fraction `t`: the fraction may reach 2^24, and then carries. -/
theorem patternMag_scaled {k t : Nat} (ht : t ≤ 2 ^ 24) (hk : k = 0 ∨ 2 ^ 23 ≤ t) :
    patternMag (k * 2 ^ 23 + t) = t * 2 ^ k := by
  unfold patternMag
  by_cases h1 : t < 2 ^ 23
  · have hk0 : k = 0 := by omega
    subst hk0
    simp only [Nat.zero_mul, Nat.zero_add, Nat.pow_zero, Nat.mul_one]
    rw [if_pos (by omega), Nat.mod_eq_of_lt h1]
  · by_cases h2 : t = 2 ^ 24
    · subst h2
      rw [show k * 2 ^ 23 + 2 ^ 24 = (k + 2) * 2 ^ 23 by omega, Nat.mul_div_cancel _ (by omega), if_neg (by omega),
        Nat.mul_mod_left, Nat.add_zero, show k + 2 - 1 = k + 1 by omega, Nat.pow_succ]
      omega
    · have hdiv : (k * 2 ^ 23 + t) / 2 ^ 23 = k + 1 := by omega
      have hmod : (k * 2 ^ 23 + t) % 2 ^ 23 = t - 2 ^ 23 := by omega
      rw [hdiv, hmod, if_neg (by omega), show k + 1 - 1 = k by omega, show 2 ^ 23 + (t - 2 ^ 23) = t by omega]

/-- Rounding is to one of the two neighbours. -/
theorem roundNearestEven_bounds (n d : Nat) : n / d ≤ roundNearestEven n d ∧ roundNearestEven n d ≤ n / d + 1 := by
  unfold roundNearestEven
  split <;> omega

/-- A quotient without remainder is not rounded. -/
theorem roundNearestEven_exact {d : Nat} (hd : 0 < d) (v : Nat) : roundNearestEven (v * d) d = v := by
  unfold roundNearestEven
  rw [Nat.mul_mod_left, Nat.mul_div_cancel _ hd, if_neg (by omega)]

/-- The number of exponent steps of a magnitude. -/
def expSteps (q : Nat) : Nat := Nat.log2 q - 23

theorem f32Ulp_eq (q : Nat) : f32Ulp q = 2 ^ expSteps q := rfl

/-- A magnitude is below 2^24 steps of its own binade. -/
theorem lt_steps (q : Nat) : q < 2 ^ 24 * 2 ^ expSteps q := by
  unfold expSteps
  rcases Nat.eq_zero_or_pos q with rfl | hq
  · simp
  · have h := Nat.lt_log2_self (n := q)
    rw [← Nat.pow_add]
    exact Nat.lt_of_lt_of_le h (Nat.pow_le_pow_right (by omega) (by omega))

/-- Above the lowest binade a magnitude is at least 2^23 steps of its own binade. -/
theorem steps_le {q : Nat} (h : expSteps q ≠ 0) : 2 ^ 23 * 2 ^ expSteps q ≤ q := by
  unfold expSteps at h ⊢
  have hq : q ≠ 0 := by rintro rfl; simp at h
  have := Nat.log2_self_le hq
  rw [← Nat.pow_add, show 23 + (q.log2 - 23) = q.log2 by omega]
  exact this

/-- The fraction that `roundMag` packs. -/
def roundFrac (n d : Nat) : Nat := roundNearestEven n (d * 2 ^ expSteps (n / d))

theorem roundMag_eq (n d : Nat) :
    roundMag n d = min (expSteps (n / d) * 2 ^ 23 + roundFrac n d) 0x7F800000 := rfl

theorem roundMag_lt (n d : Nat) : roundMag n d < 2 ^ 31 := by
  rw [roundMag_eq]; omega

theorem roundFrac_le (n d : Nat) : roundFrac n d ≤ 2 ^ 24 := by
  have h := (roundNearestEven_bounds n (d * 2 ^ expSteps (n / d))).2
  have hq : n / (d * 2 ^ expSteps (n / d)) < 2 ^ 24 := by
    rw [← Nat.div_div_eq_div_mul]
    exact Nat.div_lt_of_lt_mul (by rw [Nat.mul_comm]; exact lt_steps _)
  unfold roundFrac
  omega

theorem le_roundFrac {n d : Nat} (h : expSteps (n / d) ≠ 0) : 2 ^ 23 ≤ roundFrac n d := by
  have h1 := (roundNearestEven_bounds n (d * 2 ^ expSteps (n / d))).1
  have hq : 2 ^ 23 ≤ n / (d * 2 ^ expSteps (n / d)) := by
    rw [← Nat.div_div_eq_div_mul]
    exact (Nat.le_div_iff_mul_le (Nat.two_pow_pos _)).2 (steps_le h)
  unfold roundFrac
  omega

/-- What `roundMag` gives, in units of 2^-149, where it does not overflow: the rounded fraction times its step. -/
theorem patternMag_roundMag {n d : Nat} (hfin : roundMag n d < 0x7F800000) :
    patternMag (roundMag n d) = roundFrac n d * f32Ulp (n / d) := by
  have h : roundMag n d = expSteps (n / d) * 2 ^ 23 + roundFrac n d := by
    rw [roundMag_eq] at hfin ⊢; omega
  rw [h, f32Ulp_eq]
  refine patternMag_scaled (roundFrac_le n d) ?_
  by_cases hk : expSteps (n / d) = 0
  · exact .inl hk
  · exact .inr (le_roundFrac hk)

/-- The number of steps of `j · 2^p` is at most `p` where `j` has 24 bits. -/
theorem expSteps_le {j p : Nat} (hj : j < 2 ^ 24) : expSteps (j * 2 ^ p) ≤ p := by
  unfold expSteps
  rcases Nat.eq_zero_or_pos j with rfl | hpos
  · simp
  · have hne : j * 2 ^ p ≠ 0 := by positivity
    have : (j * 2 ^ p).log2 < 24 + p := by
      rw [Nat.log2_lt hne, Nat.pow_add]
      exact Nat.mul_lt_mul_of_pos_right hj (Nat.two_pow_pos p)
    omega

/-- A value of 24 significant bits below 2^277 units is given back exactly: its pattern is finite and holds it. -/
theorem roundMag_exact {j p d : Nat} (hd : 0 < d) (hj : j < 2 ^ 24) (hp : p ≤ 253) :
    roundMag (j * 2 ^ p * d) d < 0x7F800000 ∧ patternMag (roundMag (j * 2 ^ p * d) d) = j * 2 ^ p := by
  have hq : j * 2 ^ p * d / d = j * 2 ^ p := Nat.mul_div_cancel _ hd
  have hk : expSteps (j * 2 ^ p) ≤ p := expSteps_le hj
  have hsplit : j * 2 ^ p = j * 2 ^ (p - expSteps (j * 2 ^ p)) * 2 ^ expSteps (j * 2 ^ p) := by
    rw [Nat.mul_assoc, ← Nat.pow_add, Nat.sub_add_cancel hk]
  have hfrac : roundFrac (j * 2 ^ p * d) d = j * 2 ^ (p - expSteps (j * 2 ^ p)) := by
    unfold roundFrac
    rw [hq]
    have : j * 2 ^ p * d = j * 2 ^ (p - expSteps (j * 2 ^ p)) * (d * 2 ^ expSteps (j * 2 ^ p)) := by
      rw [Nat.mul_comm d, ← Nat.mul_assoc, ← hsplit]
    rw [this]
    exact roundNearestEven_exact (Nat.mul_pos hd (Nat.two_pow_pos _)) _
  have hlt : roundFrac (j * 2 ^ p * d) d < 2 ^ 24 := by
    rw [hfrac]
    have hlt := lt_steps (j * 2 ^ p)
    generalize expSteps (j * 2 ^ p) = e at hsplit hlt
    rw [hsplit] at hlt
    exact Nat.lt_of_mul_lt_mul_right hlt
  have hfin : roundMag (j * 2 ^ p * d) d < 0x7F800000 := by
    rw [roundMag_eq, hq]; omega
  refine ⟨hfin, ?_⟩
  rw [patternMag_roundMag hfin, hfrac, hq, f32Ulp_eq, ← hsplit]

/-- Two magnitudes below 2^24 have patterns in their order: the pattern of an integer's magnitude is not 0 unless it is. -/
theorem f32Units_pack (neg : Bool) {m : Nat} (hm : m < 2 ^ 31) :
    f32Units (f32Pack neg m) = if neg then -(patternMag m : Int) else patternMag m := by
  simp only [f32Units, f32Sign_pack neg hm, f32Mag_pack neg hm]

/-- `f32_of_int` is exact below 2^24 (R10): in units of 2^-149 the value is `k · 2^149`. -/
theorem f32OfInt_exact {k : Int} (hk : k.natAbs < 2 ^ 24) :
    isNaN (f32OfInt k) = false ∧ isInf (f32OfInt k) = false ∧ f32Sign (f32OfInt k) = decide (k < 0) ∧
      f32Mag (f32OfInt k) = k.natAbs * 2 ^ 149 := by
  have h := roundMag_exact (j := k.natAbs) (p := 149) (d := 1) (by omega) hk (by omega)
  rw [Nat.mul_one] at h
  unfold f32OfInt
  refine ⟨isNaN_pack _ h.1, isInf_pack _ h.1, f32Sign_pack _ (roundMag_lt _ _), ?_⟩
  rw [f32Mag_pack _ (roundMag_lt _ _)]
  exact h.2

/-- `fneg` flips the sign and changes nothing else (R10). -/
theorem f32Sign_fneg (x : F32) : f32Sign (fneg x) = !f32Sign x := by
  simp [f32Sign, fneg]

theorem f32Exp_fneg (x : F32) : f32Exp (fneg x) = f32Exp x := by
  unfold f32Exp fneg
  congr 1
  apply BitVec.eq_of_getLsbD_eq
  intro k hk
  rw [BitVec.getLsbD_extractLsb', BitVec.getLsbD_extractLsb', BitVec.getLsbD_xor]
  have : BitVec.getLsbD 0x80000000#32 (23 + k) = false := by revert hk; revert k; decide
  simp [this]

theorem f32Frac_fneg (x : F32) : f32Frac (fneg x) = f32Frac x := by
  unfold f32Frac fneg
  congr 1
  apply BitVec.eq_of_getLsbD_eq
  intro k hk
  rw [BitVec.getLsbD_extractLsb', BitVec.getLsbD_extractLsb', BitVec.getLsbD_xor]
  have : BitVec.getLsbD 0x80000000#32 k = false := by revert hk; revert k; decide
  simp [this]

theorem f32Mag_fneg (x : F32) : f32Mag (fneg x) = f32Mag x := by
  simp [f32Mag, f32Exp_fneg, f32Frac_fneg]

theorem isNaN_fneg (x : F32) : isNaN (fneg x) = isNaN x := by
  simp [isNaN, f32Exp_fneg, f32Frac_fneg]

theorem isInf_fneg (x : F32) : isInf (fneg x) = isInf x := by
  simp [isInf, f32Exp_fneg, f32Frac_fneg]

/-- `fmul` of finite values is one rounding of the exact product (R10). -/
theorem fmul_finite {x y : F32} (hx : isNaN x = false ∧ isInf x = false) (hy : isNaN y = false ∧ isInf y = false) :
    fmul x y = f32Pack (f32Sign x != f32Sign y) (roundMag (f32Mag x * f32Mag y) (2 ^ 149)) := by
  simp [fmul, hx, hy]

/-- `fdiv` of finite values, the divisor not zero, is one rounding of the exact quotient (R10). -/
theorem fdiv_finite {x y : F32} (hx : isNaN x = false ∧ isInf x = false) (hy : isNaN y = false ∧ isInf y = false)
    (h0 : f32Mag y ≠ 0) :
    fdiv x y = f32Pack (f32Sign x != f32Sign y) (roundMag (f32Mag x * 2 ^ 149) (f32Mag y)) := by
  simp [fdiv, hx, hy, h0]

/-- `fadd` of finite values is one rounding of the exact sum (R10). -/
theorem fadd_finite {x y : F32} (hx : isNaN x = false ∧ isInf x = false) (hy : isNaN y = false ∧ isInf y = false) :
    fadd x y =
      if f32Units x + f32Units y = 0 then f32Pack (f32Sign x && f32Sign y) 0
      else f32Pack (decide (f32Units x + f32Units y < 0)) (roundMag (f32Units x + f32Units y).natAbs 1) := by
  simp [fadd, hx, hy]

end Sys2Proof.Machine
end

