-- ==== Sys2Proof/Laws/PerInstr.lean ====
section
/-! SUPPORT. Families of lemmas with one member per instruction. `TableRow`: the encoding of an instruction shows the fixed
bits of a row of the opcode table, and its selector sub-fields are legal in that row's format (R122 to R124). -/

namespace Sys2Proof.Laws.TableRow

open Sys2Proof.Machine

/-- The word of an instruction lies in a row of the opcode table, with legal sub-fields if the instruction is well formed. -/
def Statement (i : Instr) : Prop :=
  ∃ row ∈ opcodeTable, encode i &&& row.mask = row.pattern ∧ (i.wellFormed = true → row.format.legal (encode i) = true)

/-- The statement at a row given by its place in the table. -/
theorem of_row {i : Instr} (k : Nat)
    (h : (match opcodeTable[k]? with
      | some row => decide (encode i &&& row.mask = row.pattern) && (!i.wellFormed || row.format.legal (encode i))
      | none => false) = true) : Statement i := by
  cases hk : opcodeTable[k]? with
  | none => simp [hk] at h
  | some row =>
    simp only [hk, Bool.and_eq_true, decide_eq_true_eq, Bool.or_eq_true, Bool.not_eq_true'] at h
    exact ⟨row, List.mem_of_getElem? hk, h.1, fun hw => h.2.resolve_left (by simp [hw])⟩

theorem rdef (reg : Reg) : Statement (.rdef reg) := by
  cases reg <;> exact of_row 0 (by decide)

theorem rdec (reg : Reg) : Statement (.rdec reg) := by
  cases reg <;> exact of_row 1 (by decide)

theorem renc (reg : Reg) : Statement (.renc reg) := by
  cases reg <;> exact of_row 2 (by decide)

theorem rchk (dual : Bool) (reg : Reg) : Statement (.rchk dual reg) := by
  cases dual <;> cases reg <;> exact of_row 3 (by decide)

theorem fget (f : Field) : Statement (.fget f) := by
  cases f <;> exact of_row 4 (by decide)

theorem fset (f : Field) : Statement (.fset f) := by
  cases f <;> exact of_row 5 (by decide)

theorem pk16le : Statement (.pk16le) := by
  exact of_row 6 (by decide)

theorem pk16be : Statement (.pk16be) := by
  exact of_row 7 (by decide)

theorem up16le : Statement (.up16le) := by
  exact of_row 8 (by decide)

theorem up16be : Statement (.up16be) := by
  exact of_row 9 (by decide)

theorem wfrm (reg : Reg) : Statement (.wfrm reg) := by
  cases reg <;> exact of_row 10 (by decide)

theorem rfrm (len : ReadLen) (reg : Reg) : Statement (.rfrm len reg) := by
  cases len <;> cases reg <;> exact of_row 11 (by decide)

theorem vaddr (v : Variant) : Statement (.vaddr v) := by
  cases v <;> exact of_row 12 (by decide)

theorem vdid (v : Variant) : Statement (.vdid v) := by
  cases v <;> exact of_row 13 (by decide)

theorem vcls (v : Variant) : Statement (.vcls v) := by
  cases v <;> exact of_row 14 (by decide)

theorem vrng (c : RangeClass) (r : RangeBit) : Statement (.vrng c r) := by
  cases c <;> cases r <;> exact of_row 15 (by decide)

theorem midchk : Statement (.midchk) := by
  exact of_row 16 (by decide)

theorem didchk (v : Variant) : Statement (.didchk v) := by
  cases v <;> exact of_row 17 (by decide)

theorem chaxis (axis : Axis) : Statement (.chaxis axis) := by
  cases axis <;> exact of_row 18 (by decide)

theorem chall : Statement (.chall) := by
  exact of_row 19 (by decide)

theorem chset : Statement (.chset) := by
  exact of_row 20 (by decide)

theorem tchk : Statement (.tchk) := by
  exact of_row 21 (by decide)

theorem angchk : Statement (.angchk) := by
  exact of_row 22 (by decide)

theorem rngsel (axis : Axis) : Statement (.rngsel axis) := by
  cases axis <;> exact of_row 23 (by decide)

theorem cvmag (c : RangeClass) (r : RangeBit) (axis : Axis) : Statement (.cvmag c r axis) := by
  cases c <;> cases r <;> cases axis <;> exact of_row 24 (by decide)

theorem cvtemp : Statement (.cvtemp) := by
  exact of_row 25 (by decide)

theorem cvang : Statement (.cvang) := by
  exact of_row 26 (by decide)

theorem cvburst (c : RangeClass) (rxy rz : RangeBit) : Statement (.cvburst c rxy rz) := by
  cases c <;> cases rxy <;> cases rz <;> exact of_row 27 (by decide)

theorem threnc (c : RangeClass) (r : RangeBit) : Statement (.threnc c r) := by
  cases c <;> cases r <;> exact of_row 28 (by decide)

theorem thrdec (c : RangeClass) (r : RangeBit) : Statement (.thrdec c r) := by
  cases c <;> cases r <;> exact of_row 29 (by decide)

theorem gain : Statement (.gain) := by
  exact of_row 30 (by decide)

theorem magn : Statement (.magn) := by
  exact of_row 31 (by decide)

theorem offenc : Statement (.offenc) := by
  exact of_row 32 (by decide)

theorem offdec : Statement (.offdec) := by
  exact of_row 33 (by decide)

end Sys2Proof.Laws.TableRow
end

