-- ==== Sys2Proof/Tests/Slice0.lean ====
section
/-! SUPPORT. Tests: the well-formedness check refuses what it should, words written out bit by bit from the spec's encodings
decode to the instruction they stand for, worked examples of the spec's rules come out, and every statement's hypotheses
are met by a concrete state and operands. Expected values are the spec's (the rules named, 95_test_vectors.md). -/

namespace Sys2Proof.Tests

open Sys2Proof Sys2Proof.Machine

/-! ## States to test on -/

/-- The response of an instruction to a data operand right after reset. -/
def reply (i : Instr) (a : Operand) : Response := responseOf i a State.reset

/-- A state with a data operand on the command port. -/
def portState (a : Operand) : State := State.reset.present { op := 0#8, sel := 0#8, a := a }

/-- A state with a session of variant A1 at 0x35, given registers, host actions and events. -/
def hostState (regs : Memory) (inputs : List HostAction) (env : List EnvEvent) : State :=
  { State.reset.openSession .a1 0x35#7 with inputs := inputs, regs := regs, env := env }

/-- What one step leaves, where it leaves a state. -/
def after (s : State) : Option State :=
  match step s with
  | .next t => some t
  | _ => none

/-! ## Well-formedness -/

/-- The one ill-formed shape: `dual` = 1 with a register that starts no pair (R124). -/
theorem test_wellFormed_refuses :
    (Instr.rchk true .deviceConfig2).wellFormed = false ∧ (Instr.rchk true .manufacturerIdMsb).wellFormed = false ∧
    (Instr.rchk true .deviceConfig1).wellFormed = true ∧ (Instr.rchk false .deviceConfig2).wellFormed = true := by
  decide

/-- Each test of R128 rejects a word under its own name. -/
theorem test_decode_rejects :
    decode 0x0000#16 = .error .undefinedOp ∧ decode 0x0700#16 = .error .undefinedOp ∧
    decode 0x2A00#16 = .error .undefinedOp ∧ decode 0x0801#16 = .error .mustBeZero ∧
    decode 0x011D#16 = .error .noSuchRegister ∧ decode 0x0522#16 = .error .noSuchField ∧
    decode 0x0D70#16 = .error .badLength ∧ decode 0x2003#16 = .error .badAxis ∧ decode 0x0481#16 = .error .badDual := by
  decide

/-! ## Decoding, word by word from R122 and R123 -/

theorem test_decode_codec :
    decode 0b0000000100001110#16 = .ok (.rdef .manufacturerIdLsb) ∧
    decode 0b0000001000000010#16 = .ok (.rdec .sensorConfig1) ∧
    decode 0b0000001100000011#16 = .ok (.renc .sensorConfig2) ∧
    decode 0b0000010010000010#16 = .ok (.rchk true .sensorConfig1) ∧
    decode 0b0000010000001000#16 = .ok (.rchk false .intConfig1) ∧
    decode 0b0000010100010111#16 = .ok (.fget .i2cAddress) ∧
    decode 0b0000011000001001#16 = .ok (.fset .magChEn) := by
  decide

theorem test_decode_compose :
    decode 0b0000100000000000#16 = .ok .pk16le ∧ decode 0b0000100100000000#16 = .ok .pk16be ∧
    decode 0b0000101000000000#16 = .ok .up16le ∧ decode 0b0000101100000000#16 = .ok .up16be ∧
    decode 0b0000110000001100#16 = .ok (.wfrm .i2cAddress) ∧ decode 0b0000110101010000#16 = .ok (.rfrm .eight .tMsbResult) ∧
    decode 0b0000110100100010#16 = .ok (.rfrm .two .sensorConfig1) := by
  decide

theorem test_decode_variants :
    decode 0b0001000000000101#16 = .ok (.vaddr .c2) ∧ decode 0b0001000100000011#16 = .ok (.vdid .b2) ∧
    decode 0b0001001000000110#16 = .ok (.vcls .d1) ∧ decode 0b0001001100000100#16 = .ok (.vrng .class1 .high) ∧
    decode 0b0001001100001000#16 = .ok (.vrng .class2 .low) ∧ decode 0b0001010000000000#16 = .ok .midchk ∧
    decode 0b0001010100000001#16 = .ok (.didchk .a2) := by
  decide

theorem test_decode_guards :
    decode 0b0001100000000010#16 = .ok (.chaxis .z) ∧ decode 0b0001100100000000#16 = .ok .chall ∧
    decode 0b0001101000000000#16 = .ok .chset ∧ decode 0b0001101100000000#16 = .ok .tchk ∧
    decode 0b0001110000000000#16 = .ok .angchk ∧ decode 0b0001110100000001#16 = .ok (.rngsel .y) := by
  decide

theorem test_decode_converters :
    decode 0b0010000000000101#16 = .ok (.cvmag .class1 .high .y) ∧ decode 0b0010000000001010#16 = .ok (.cvmag .class2 .low .z) ∧
    decode 0b0010000100000000#16 = .ok .cvtemp ∧ decode 0b0010001000000000#16 = .ok .cvang ∧
    decode 0b0010001100001010#16 = .ok (.cvburst .class2 .high .low) ∧
    decode 0b0010010000000100#16 = .ok (.threnc .class1 .high) ∧ decode 0b0010010100001000#16 = .ok (.thrdec .class2 .low) ∧
    decode 0b0010011000000000#16 = .ok .gain ∧ decode 0b0010011100000000#16 = .ok .magn ∧
    decode 0b0010100000000000#16 = .ok .offenc ∧ decode 0b0010100100000000#16 = .ok .offdec := by
  decide

/-- The table word of a row and the word stored where the next step fetches. -/
theorem test_fetch_word :
    decodeTableWord 16 0x2005 = some (.cvmag .class1 .high .y) ∧ decodeTableWord 16 0x2003 = none ∧
    (after (State.reset.withFetchWord 16 0x010E)).map State.lastResponse = some { status := 0#4, q := 0x49#128 } := by
  decide

/-! ## Worked examples -/

/-- R154, R152. -/
theorem test_rdef_rdec :
    reply (.rdef .deviceConfig2) 0#64 = { status := 0#4, q := 0#128 } ∧
    reply (.rdec .sensorConfig1) 0x7C#64 = { status := 0#4, q := 0x070C#128 } := by
  decide

/-- R153: seven lanes, and a lane too wide. -/
theorem test_renc :
    reply (.renc .sensorConfig2) 0x0000000000000101#64 = { status := 0#4, q := 0x03#128 } ∧
    reply (.renc .sensorConfig2) 0x02#64 = { status := 10#4, q := 0#128 } := by
  decide

/-- R155. -/
theorem test_rchk :
    reply (.rchk false .deviceConfig1) 0x18#64 = { status := 3#4, q := 0#128 } ∧
    reply (.rchk true .sensorConfig1) 0x03C7#64 = { status := 0#4, q := 0x103C7#128 } ∧
    reply (.rchk true .sensorConfig1) 0x037D#64 = { status := 3#4, q := 0#128 } := by
  decide

/-- R156. -/
theorem test_fget :
    reply (.fget .i2cRd) 0x03#64 = { status := 0#4, q := 0x103#128 } ∧
    reply (.fget .intMode) 0x14#64 = { status := 3#4, q := 0#128 } := by
  decide

/-- R157. -/
theorem test_fset :
    reply (.fset .i2cAddress) 0x2201#64 = { status := 0#4, q := 0x45#128 } ∧
    reply (.fset .convAvg) 0x0600#64 = { status := 10#4, q := 0#128 } := by
  decide

/-- R170 to R173. -/
theorem test_composition :
    reply .pk16le 0x5449#64 = { status := 0#4, q := 0x5449#128 } ∧ reply .pk16be 0x480B#64 = { status := 0#4, q := 0x0B48#128 } ∧
    reply .up16le 0x037C#64 = { status := 0#4, q := 0x037C#128 } ∧ reply .up16be 0x4000#64 = { status := 0#4, q := 0x0040#128 } := by
  decide

/-- R174, R175. -/
theorem test_frames :
    reply (.wfrm .sensorConfig1) 0x7C#64 = { status := 0#4, q := 0x7C02#128 } ∧
    reply (.wfrm .deviceId) 0x01#64 = { status := 10#4, q := 0#128 } ∧
    reply (.rfrm .eight .tMsbResult) 0#64 = { status := 0#4, q := 0x0810#128 } ∧
    reply (.rfrm .eight .xMsbResult) 0#64 = { status := 10#4, q := 0#128 } := by
  decide

/-- R185 to R188. -/
theorem test_variants :
    reply (.vaddr .c2) 0#64 = { status := 0#4, q := 0x78#128 } ∧ reply (.vdid .d2) 0#64 = { status := 0#4, q := 2#128 } ∧
    reply (.vcls .b2) 0#64 = { status := 0#4, q := 1#128 } ∧
    reply (.vrng .class2 .low) 0#64 = { status := 0#4, q := 0x43050000#128 } := by
  decide

/-- R191, R192. -/
theorem test_identity :
    reply .midchk 0x5449#64 = { status := 0#4, q := 0x5449#128 } ∧ reply .midchk 0x4954#64 = { status := 2#4, q := 0#128 } ∧
    reply (.didchk .b2) 0xFE#64 = { status := 0#4, q := 2#128 } ∧ reply (.didchk .a1) 0x02#64 = { status := 2#4, q := 0#128 } := by
  decide

/-- R200. -/
theorem test_chaxis :
    reply (.chaxis .z) 0x0030#64 = { status := 6#4, q := 0#128 } ∧
    reply (.chaxis .y) 0x00D0#64 = { status := 3#4, q := 0#128 } := by
  decide

/-- R201, R202. -/
theorem test_chall_chset :
    reply .chall 0x0370#64 = { status := 0#4, q := 7#128 } ∧ reply .chall 0x0380#64 = { status := 6#4, q := 0#128 } ∧
    reply .chset 0x00B0#64 = { status := 0#4, q := 5#128 } ∧ reply .chset 0x0000#64 = { status := 0#4, q := 0#128 } := by
  decide

/-- R203 to R205. -/
theorem test_enables :
    reply .tchk 0xFE#64 = { status := 6#4, q := 0#128 } ∧ reply .angchk 0x0400#64 = { status := 0#4, q := 1#128 } ∧
    reply (.rngsel .y) 0x0270#64 = { status := 0#4, q := 1#128 } ∧ reply (.rngsel .z) 0x0270#64 = { status := 0#4, q := 0#128 } := by
  decide

/-- R218. -/
theorem test_cvmag :
    reply (.cvmag .class1 .low .x) 0x0000#64 = { status := 0#4, q := 0x80000000#128 } ∧
    reply (.cvmag .class2 .low .y) 0xFFFF#64 = { status := 0#4, q := 0xBB850000#128 } := by
  decide

/-- R220. -/
theorem test_cvtemp :
    reply .cvtemp 0x44A1#64 = { status := 0#4, q := 0x41D01EAB#128 } ∧
    reply .cvtemp 0x0000#64 = { status := 0#4, q := 0xC3852841#128 } := by
  decide

/-- R222. -/
theorem test_cvang :
    reply .cvang 0x0B48#64 = { status := 0#4, q := 0x43348000#128 } ∧
    reply .cvang 0xFFFF#64 = { status := 0#4, q := 0x457FFF00#128 } := by
  decide

/-- R223. -/
theorem test_cvburst :
    reply (.cvburst .class1 .high .high) 0x000000C000406444#64 =
      { status := 0#4, q := 0x00000000C2200000C220000041C80000#128 } := by
  decide

/-- R227: a truncated product and the saturated upper end. -/
theorem test_threnc :
    reply (.threnc .class2 .low) 0x3F800000#64 = { status := 0#4, q := 0x00#128 } ∧
    reply (.threnc .class1 .high) 0x42A00000#64 = { status := 0#4, q := 0x7F#128 } := by
  decide

/-- R226: the same two under `round_half_away`. -/
theorem test_threnc_round :
    responseOf (.threnc .class2 .low) 0x3F800000#64 { State.reset with thrQuant := .roundHalfAway } =
      { status := 0#4, q := 0x01#128 } ∧
    responseOf (.threnc .class1 .high) 0xBF700000#64 { State.reset with thrQuant := .roundHalfAway } =
      { status := 0#4, q := 0xFE#128 } := by
  decide

/-- R228. -/
theorem test_thrdec :
    reply (.thrdec .class1 .high) 0x80#64 = { status := 0#4, q := 0xC2A00000#128 } ∧
    reply (.thrdec .class2 .low) 0x01#64 = { status := 0#4, q := 0x3F850000#128 } := by
  decide

/-- R231 to R234. -/
theorem test_gain_magnitude_offset :
    reply .gain 0x1FF#64 = { status := 0#4, q := 0xFF#128 } ∧ reply .magn 0x80#64 = { status := 0#4, q := 0x80#128 } ∧
    reply .offenc 0x0370#64 = { status := 4#4, q := 0#128 } ∧ reply .offdec 0x0470#64 = { status := 8#4, q := 0#128 } := by
  decide

/-! ## Host sequences -/

/-- R260: the frames of a Device group `set` on a working transport. -/
theorem test_set_device_group :
    (after (hostState [] [.call (.setGroup ⟨.device, [0#8, 5#8, 0#8, 2#8, 0#8, 0#8, 1#8, 0#8]⟩)] [])).map State.trace =
      some [.wrote 0x35#7 [0x00#8, 0x14#8] true, .wrote 0x35#7 [0x01#8, 0x12#8] true] := by
  decide

/-- R254: variant A1, `sc` = 0x037C, axis X, data bytes 40 00 answer -40.0. -/
theorem test_get_mag_data :
    (after (hostState [(0x02, 0x7C#8), (0x03, 0x03#8), (0x12, 0x40#8), (0x13, 0x00#8)] [.call (.getMagData .x)] [])).map
      State.results = some [.returned (.float 0xC2200000#32)] := by
  decide

/-! ## Every statement's hypotheses can be met -/

/-- Well-formed instructions, every operand at an end of its range, and an address map other than R24's. -/
theorem witness_DecodeInvertsEncode :
    (Instr.rchk true .manufacturerIdLsb).wellFormed = true ∧ (Instr.rfrm .eight .deviceStatus).wellFormed = true ∧
    (Instr.fset .intbRb).wellFormed = true ∧ ∀ r r', ~~~regCode r = ~~~regCode r' → r = r' := by
  refine ⟨by decide, by decide, by decide, fun r r' h => regCode_injective ?_⟩
  simpa using congrArg (fun c => ~~~c) h

theorem witness_EncodeInvertsDecode : decode 0x23_0B#16 = .ok (.cvburst .class2 .high .high) := by
  decide

/-- A command whose word decodes, next in the host's list. -/
theorem witness_StepRunsDecodedCommand :
    (hostState [] [.command { op := 0x20#8, sel := 0x05#8, a := 0x4000#64 }] []).inputs =
        .command { op := 0x20#8, sel := 0x05#8, a := 0x4000#64 } :: [] ∧
      decode (Command.iw { op := 0x20#8, sel := 0x05#8, a := 0x4000#64 }) = .ok (.cvmag .class1 .high .y) := by
  decide

/-- A command whose word does not decode. -/
theorem witness_IllegalWordAnswersIllegalOp :
    (hostState [] [.command { op := 0xFF#8, sel := 0x05#8, a := 1#64 }] []).inputs =
        .command { op := 0xFF#8, sel := 0x05#8, a := 1#64 } :: [] ∧
      decode (Command.iw { op := 0xFF#8, sel := 0x05#8, a := 1#64 }) = .error .undefinedOp := by
  decide

theorem witness_CommandsLeaveEnvironmentAlone :
    exec .gain (portState 0x1A5#64) = .next ((portState 0x1A5#64).push { status := 0#4, q := 0xA5#128 }) := by
  rfl

/-- Two states that differ in all but the data operand and the parameter. -/
theorem witness_ResponseDependsOnCommandAlone :
    (portState 7#64).cmd.a = ((hostState [(0x02, 0x7C#8)] [] []).present ⟨0x20#8, 0x05#8, 7#64⟩).cmd.a ∧
    (portState 7#64).thrQuant = ((hostState [(0x02, 0x7C#8)] [] []).present ⟨0x20#8, 0x05#8, 7#64⟩).thrQuant := by
  decide

/-- Two operands that differ only in bits that R126 does not name. -/
theorem witness_UnnamedOperandBitsAreIgnored :
    (portState 0xFFFF_FFFF_FFFF_FF07#64).cmd.a &&& namedBits (.rdec .sensorConfig1) =
        (portState 0x07#64).cmd.a &&& namedBits (.rdec .sensorConfig1) ∧
      (portState 0xFFFF_FFFF_FFFF_FF07#64).thrQuant = (portState 0x07#64).thrQuant := by
  decide

/-- One legal and one illegal command, then something else. -/
theorem witness_CommandsAreAnsweredIndependentlyInOrder :
    (hostState [] [.command ⟨0x26#8, 0#8, 9#64⟩, .command ⟨0xFF#8, 0#8, 9#64⟩, .call .getAngle] []).inputs =
      [⟨0x26#8, 0#8, 9#64⟩, ⟨0xFF#8, 0#8, 9#64⟩].map HostAction.command ++ [.call .getAngle] := by
  decide

/-- The last lane of a register, and the first bit above its lanes. -/
theorem witness_RdecResult :
    (regLanes .sensorConfig2)[6]? = some (.bits 7 7) ∧ 8 * (regLanes .sensorConfig2).length ≤ 56 := by
  decide

/-- Every lane at its largest value; and one lane one too large. -/
theorem witness_RencResult :
    (∀ i l, (regLanes .sensorConfig1)[i]? = some l → operandLane (portState 0x0F0F#64).cmd.a i < laneSize l) ∧
    ∃ i l, (regLanes .sensorConfig1)[i]? = some l ∧ laneSize l ≤ operandLane (portState 0x1000#64).cmd.a i := by
  refine ⟨fun i l h => ?_, 1, .field .magChEn, by decide⟩
  match i with
  | 0 => cases h; decide
  | 1 => cases h; decide
  | i + 2 => cases h

/-- A register encoded with success, and a layout other than the spec's with a register encoded with success under it. -/
theorem witness_RegisterRoundTrip :
    (responseOf (.renc .sensorConfig1) 0x0F0F#64 State.reset).status = 0#4 ∧ 1 < (regLanes .sensorConfig1).length ∧
    ({ tables with regLanes := fun _ => [.bits 2 0, .bits 7 3] } : DeviceTables).tiles .magGainConfig ∧
    rencReply { tables with regLanes := fun _ => [.bits 2 0, .bits 7 3] } .magGainConfig 0x1F07#64 = .ok 0xFF#128 := by
  decide

/-- Registers whose fields hold an undefined code, a reserved member, and the last defined codes. -/
theorem witness_RchkResult_single :
    (∃ f, fieldReg f = .deviceConfig1 ∧ malformedCode f (codeIn f (operandLane (portState 0x18#64).cmd.a 0))) ∧
    ((∀ f, fieldReg f = .deviceConfig1 → ¬ malformedCode f (codeIn f (operandLane (portState 0x43#64).cmd.a 0))) ∧
      ∃ f, fieldReg f = .deviceConfig1 ∧ reservedMember f (codeIn f (operandLane (portState 0x43#64).cmd.a 0))) ∧
    (∀ f, fieldReg f = .deviceConfig1 → ¬ malformedCode f (codeIn f (operandLane (portState 0x76#64).cmd.a 0))) ∧
    ∀ f, fieldReg f = .deviceConfig1 → ¬ reservedMember f (codeIn f (operandLane (portState 0x76#64).cmd.a 0)) := by
  refine ⟨⟨.convAvg, rfl, .inl ⟨rfl, by decide⟩⟩, ⟨fun f h => ?_, ⟨.i2cRd, rfl, .inl ⟨rfl, by decide⟩⟩⟩, fun f h => ?_,
    fun f h => ?_⟩ <;>
  · revert h; cases f <;> decide

/-- The same over a pair: an undefined code in the high half, a reserved member in the low half, neither. -/
theorem witness_RchkResult_pair :
    Reg.sensorConfig1.startsPair = true ∧
    (regCode .sensorConfig2).toNat = (regCode .sensorConfig1).toNat + 1 ∧
    (∃ f, (fieldReg f = .deviceConfig1 ∧ malformedCode f (codeIn f (operandLane (portState 0x4000#64).cmd.a 0))) ∨
      (fieldReg f = .deviceConfig2 ∧ malformedCode f (codeIn f (operandLane (portState 0x4000#64).cmd.a 1)))) ∧
    ((∀ f, (fieldReg f = .sensorConfig1 → ¬ malformedCode f (codeIn f (operandLane (portState 0xFFCC#64).cmd.a 0))) ∧
        (fieldReg f = .sensorConfig2 → ¬ malformedCode f (codeIn f (operandLane (portState 0xFFCC#64).cmd.a 1)))) ∧
      ∃ f, (fieldReg f = .sensorConfig1 ∧ reservedMember f (codeIn f (operandLane (portState 0xFFCC#64).cmd.a 0))) ∨
        (fieldReg f = .sensorConfig2 ∧ reservedMember f (codeIn f (operandLane (portState 0xFFCC#64).cmd.a 1)))) ∧
    (∀ f, (fieldReg f = .sensorConfig1 → ¬ malformedCode f (codeIn f (operandLane (portState 0xFFBC#64).cmd.a 0))) ∧
      (fieldReg f = .sensorConfig2 → ¬ malformedCode f (codeIn f (operandLane (portState 0xFFBC#64).cmd.a 1)))) ∧
    ∀ f, (fieldReg f = .sensorConfig1 → ¬ reservedMember f (codeIn f (operandLane (portState 0xFFBC#64).cmd.a 0))) ∧
      (fieldReg f = .sensorConfig2 → ¬ reservedMember f (codeIn f (operandLane (portState 0xFFBC#64).cmd.a 1))) := by
  refine ⟨rfl, rfl, ⟨.thrHyst, .inr ⟨rfl, .inr (.inl ⟨rfl, by decide⟩)⟩⟩,
    ⟨fun f => ?_, ⟨.magChEn, .inl ⟨rfl, .inr (.inr ⟨rfl, by decide⟩)⟩⟩⟩, fun f => ?_, fun f => ?_⟩ <;>
  · cases f <;> decide

/-- The last undefined code, the first reserved member, the last defined code. -/
theorem witness_FgetResult :
    malformedCode .intMode (codeIn .intMode (operandLane (portState 0x14#64).cmd.a 0)) ∧
    reservedMember .magChEn (codeIn .magChEn (operandLane (portState 0xC0#64).cmd.a 0)) ∧
    ¬ malformedCode .intMode (codeIn .intMode (operandLane (portState 0x10#64).cmd.a 0)) ∧
    ¬ reservedMember .intMode (codeIn .intMode (operandLane (portState 0x10#64).cmd.a 0)) := by
  decide

/-- A code one too wide, the first undefined code of a class N field, the last code that is set. -/
theorem witness_FsetResult :
    fieldSize .zRange ≤ operandLane (portState 0x0200#64).cmd.a 1 ∧
    malformedCode .convAvg (operandLane (portState 0x0600#64).cmd.a 1) ∧
    operandLane (portState 0x0500#64).cmd.a 1 < fieldSize .convAvg ∧
    ¬ malformedCode .convAvg (operandLane (portState 0x0500#64).cmd.a 1) := by
  decide

/-- Two fields of one register, both set with success, and both read with success. -/
theorem witness_FieldInsertionLaws :
    fieldReg .sleeptime = fieldReg .magChEn ∧ Field.sleeptime ≠ .magChEn ∧
    (responseOf (.fset .sleeptime) 0x0C00#64 State.reset).status = 0#4 ∧
    (responseOf (.fget .sleeptime)
      ((responseOf (.fset .sleeptime) 0x0C00#64 State.reset).q.setWidth 64) State.reset).status = 0#4 ∧
    (responseOf (.fset .sleeptime) ((0x0C#8 ++ 0x00#8).setWidth 64) State.reset).status = 0#4 ∧
    (responseOf (.fset .magChEn) ((0x07#8 ++ 0x00#8).setWidth 64) State.reset).status = 0#4 := by
  decide

/-- The two fields of a register in each other's bits. -/
def swappedTables : DeviceTables :=
  { tables with fieldSpan := fun f => if f = .sleeptime then ⟨7, 4⟩ else ⟨3, 0⟩ }

/-- The clause for other tables: two fields apart, one set with success and then read with success. -/
theorem witness_FieldInsertionLaws_tables :
    swappedTables.inByte .sleeptime ∧ swappedTables.inByte .magChEn ∧ swappedTables.apart .sleeptime .magChEn ∧
    fsetReply swappedTables .sleeptime 0x0C07#64 = .ok 0xC7#128 ∧
    fgetReply swappedTables .sleeptime 0xC7#64 = .ok 0x0C#128 := by
  decide

/-- The largest code of a class N field and of the field with the most codes. -/
theorem witness_CodecTablesMatchTheSpec : 7 < fieldSize .convAvg ∧ 127 < fieldSize .i2cAddress := by
  decide

/-- The last register with a write frame and the first without. -/
theorem witness_WfrmResult : (regCode .i2cAddress).toNat < 0x0D ∧ 0x0D ≤ (regCode .deviceId).toNat := by
  decide

/-- Both sides of each limit on a read. -/
theorem witness_RfrmResult :
    (regCode .magnitudeResult).toNat ≤ 0x1B ∧ (regCode .magnitudeResult).toNat = 0x1B ∧
    (regCode .deviceStatus).toNat = 0x1C ∧ (regCode .tMsbResult).toNat = 0x10 ∧ (regCode .tLsbResult).toNat ≠ 0x10 := by
  decide

/-- The two id bytes, and the same swapped. -/
theorem witness_MidchkResult :
    ((portState 0x5449#64).cmd.a.toNat % 256 = 0x49 ∧ (portState 0x5449#64).cmd.a.toNat / 256 % 256 = 0x54) ∧
    ¬ ((portState 0x4954#64).cmd.a.toNat % 256 = 0x49 ∧ (portState 0x4954#64).cmd.a.toNat / 256 % 256 = 0x54) := by
  decide

theorem witness_DidchkResult :
    (portState 0xFE#64).cmd.a.toNat % 4 = 1 + (variantCode .b2).toNat % 2 ∧
    (portState 0xFF#64).cmd.a.toNat % 4 ≠ 1 + (variantCode .b2).toNat % 2 := by
  decide

/-- Code 0, the first reserved code, and for each axis a code without it and one with it. -/
theorem witness_ChaxisResult :
    (portState 0xF0F#64).cmd.a.toNat / 16 % 16 = 0 ∧ 0xC ≤ (portState 0xC0#64).cmd.a.toNat / 16 % 16 ∧
    (portState 0xA0#64).cmd.a.toNat / 16 % 16 ∈ [2, 4, 6, 0xA] ∧ (portState 0xB0#64).cmd.a.toNat / 16 % 16 ∈ [1, 4, 5, 0xB] ∧
    (portState 0x90#64).cmd.a.toNat / 16 % 16 ∈ [1, 2, 3, 8, 9] ∧
    (portState 0xB0#64).cmd.a.toNat / 16 % 16 ∈ [1, 3, 5, 7, 8, 9, 0xB] ∧
    (portState 0xA0#64).cmd.a.toNat / 16 % 16 ∈ [2, 3, 6, 7, 8, 9, 0xA] ∧
    (portState 0xB0#64).cmd.a.toNat / 16 % 16 ∈ [4, 5, 6, 7, 0xA, 0xB] := by
  decide

/-- Codes 7, 0, 0xC, and the last defined one beside 7. -/
theorem witness_ChallResult :
    (portState 0x70#64).cmd.a.toNat / 16 % 16 = 7 ∧ (portState 0x0F#64).cmd.a.toNat / 16 % 16 = 0 ∧
    0xC ≤ (portState 0xC0#64).cmd.a.toNat / 16 % 16 ∧
    ((portState 0xB0#64).cmd.a.toNat / 16 % 16 ≠ 0 ∧ (portState 0xB0#64).cmd.a.toNat / 16 % 16 < 0xC ∧
      (portState 0xB0#64).cmd.a.toNat / 16 % 16 ≠ 7) := by
  decide

theorem witness_ChsetResult :
    (portState 0xBF#64).cmd.a.toNat / 16 % 16 < 0xC ∧ 0xC ≤ (portState 0xC0#64).cmd.a.toNat / 16 % 16 := by
  decide

theorem witness_EnableGuardResults :
    (portState 0x01#64).cmd.a.toNat % 2 = 1 ∧ (portState 0xFE#64).cmd.a.toNat % 2 = 0 ∧
    (portState 0x0C00#64).cmd.a.toNat / 1024 % 4 ≠ 0 ∧ (portState 0xF3FF#64).cmd.a.toNat / 1024 % 4 = 0 := by
  decide

/-- The clause at 17508 is met by 0x4464 with anything above bit 15. -/
theorem witness_CvtempResult : (portState 0xFFFF4464#64).cmd.a.toNat % 65536 = 17508 := by
  decide

theorem witness_CvtempIsMonotone : (0x4464#64 : Operand).toNat % 65536 ≤ (0x1FFFF#64 : Operand).toNat % 65536 := by
  decide

/-- A NaN, the smallest magnitude above the range, an infinity, and the range itself. -/
theorem witness_ThrencResult :
    isNaN ((portState 0x7FC00000#64).cmd.a.extractLsb' 0 32) = true ∧
    (isNaN ((portState 0x42A00001#64).cmd.a.extractLsb' 0 32) = false ∧
      rangeMt .class1 .high * f32One < f32Mag ((portState 0x42A00001#64).cmd.a.extractLsb' 0 32)) ∧
    isInf ((portState 0xFF800000#64).cmd.a.extractLsb' 0 32) = true ∧
    (isNaN ((portState 0xC2A00000#64).cmd.a.extractLsb' 0 32) = false ∧
      f32Mag ((portState 0xC2A00000#64).cmd.a.extractLsb' 0 32) ≤ rangeMt .class1 .high * f32One) := by
  decide

theorem witness_ThresholdRoundTripBound :
    isNaN 0x43850000#32 = false ∧ f32Mag 0x43850000#32 ≤ rangeMt .class2 .high * f32One := by
  decide

/-- The angle disabled, and its last code. -/
theorem witness_OffsetOperationsFault :
    (portState 0xF3FF#64).cmd.a.toNat / 1024 % 4 = 0 ∧ (portState 0x0C00#64).cmd.a.toNat / 1024 % 4 ≠ 0 := by
  decide

/-- A sum that overflows, and one that ends halfway between two values, of finite values. -/
theorem witness_ArithmeticRoundsToNearestEven :
    f32Finite 0x7F7FFFFF#32 ∧ f32Finite 0x73000000#32 ∧ isInf (fadd 0x7F7FFFFF#32 0x73000000#32) = true ∧
    f32Finite 0x4B800000#32 ∧ f32Finite 0x3F800000#32 ∧ isInf (fadd 0x4B800000#32 0x3F800000#32) = false ∧
    f32Mag 0x3F800000#32 ≠ 0 := by
  decide

/-- A sound state with a session and an action, the identity held, and a step from it. -/
theorem witness_StepKeepsSound :
    ∃ t, (hostState [] [.call .getManufacturerId] []).Sound ∧ (hostState [] [.call .getManufacturerId] []).IdentityHolds ∧
      step (hostState [] [.call .getManufacturerId] []) = .next t := by
  refine ⟨_, ⟨by decide, fun r h => by cases h⟩, fun _ => by decide, rfl⟩

/-- With a session and a configuration of the right length, and without a session for a construction. -/
theorem witness_HostSequencesComeToAnEnd :
    ((hostState [] [.call (.setGroup ⟨.interrupt, [0#8, 1#8, 0#8, 0#8, 1#8]⟩)] []).inputs =
        .call (.setGroup ⟨.interrupt, [0#8, 1#8, 0#8, 0#8, 1#8]⟩) :: [] ∧
      (hostState [] [.call (.setGroup ⟨.interrupt, [0#8, 1#8, 0#8, 0#8, 1#8]⟩)] []).session ≠ none ∧
      ∀ c, HostCall.setGroup ⟨.interrupt, [0#8, 1#8, 0#8, 0#8, 1#8]⟩ = .setGroup c →
        c.codes.length = (groupFields c.group).length) ∧
    (({ State.reset with inputs := [.call (.construct .d2)] } : State).inputs = .call (.construct .d2) :: [] ∧
      (∃ v, HostCall.construct .d2 = .construct v) ∧
      ∀ c, HostCall.construct .d2 = .setGroup c → c.codes.length = (groupFields c.group).length) := by
  refine ⟨⟨rfl, by decide, fun c h => ?_⟩, rfl, ⟨.d2, rfl⟩, fun c h => ?_⟩
  · cases h; rfl
  · cases h

theorem witness_SequencesNeedSession :
    ({ hostState [] [.call .getAngle] [] with session := none } : State).inputs = .call .getAngle :: [] ∧
      ({ hostState [] [.call .getAngle] [] with session := none } : State).session = none ∧
      (∀ v, HostCall.getAngle ≠ .construct v) ∧ ∀ w v, HostCall.getAngle ≠ .constructWithAddress w v := by
  refine ⟨rfl, rfl, fun v h => ?_, fun w v h => ?_⟩ <;> cases h

/-- One call on given registers, the device changing a bit no field covers before the second transaction. -/
def guardState (h : HostCall) (regs : Memory) : State :=
  hostState regs [.call h] [⟨false, []⟩, ⟨false, [(0x03, 0x80#8)]⟩]

/-- For each guard one state that meets all hypotheses: every bit set but the one field the guard looks at. -/
theorem witness_GuardFaultPreventsDataRead :
    ((guardState .getTemperature [(0x07, 0xFE#8)]).session = some ⟨.a1, 0x35#7⟩ ∧
      (guardState .getTemperature [(0x07, 0xFE#8)]).envEvent.fails = false ∧
      (guardState .getTemperature [(0x07, 0xFE#8)]).inputs = .call .getTemperature :: [] ∧
      ((guardState .getTemperature [(0x07, 0xFE#8)]).settle.regs.read 0x07).getLsbD 0 = false) ∧
    ((guardState .getAngle [(0x03, 0x73#8)]).session = some ⟨.a1, 0x35#7⟩ ∧
      (guardState .getAngle [(0x03, 0x73#8)]).envEvent.fails = false ∧
      (guardState .getAngle [(0x03, 0x73#8)]).inputs = .call .getAngle :: [] ∧
      ((guardState .getAngle [(0x03, 0x73#8)]).settle.regs.read 0x03).extractLsb' 2 2 = 0#2) ∧
    ((guardState (.getMagData .z) [(0x02, 0x9C#8)]).session = some ⟨.a1, 0x35#7⟩ ∧
      (guardState (.getMagData .z) [(0x02, 0x9C#8)]).envEvent.fails = false ∧
      (guardState (.getMagData .z) [(0x02, 0x9C#8)]).inputs = .call (.getMagData .z) :: [] ∧
      (responseOf (.chaxis .z) (((guardState (.getMagData .z) [(0x02, 0x9C#8)]).settle.regs.read 0x02).setWidth 64)
        (guardState (.getMagData .z) [(0x02, 0x9C#8)])).status ≠ 0#4) := by
  decide

/-- The two guards of GetAllData, one state each. -/
theorem witness_GuardFaultPreventsDataRead_all :
    ((guardState .getAllData [(0x02, 0x8C#8)]).session = some ⟨.a1, 0x35#7⟩ ∧
      (guardState .getAllData [(0x02, 0x8C#8)]).envEvent.fails = false ∧
      (guardState .getAllData [(0x02, 0x8C#8)]).inputs = .call .getAllData :: [] ∧
      ((guardState .getAllData [(0x02, 0x8C#8)]).settle.regs.read 0x02).extractLsb' 4 4 ≠ 7#4) ∧
    ((guardState .getAllData [(0x02, 0x70#8), (0x07, 0xFE#8)]).session = some ⟨.a1, 0x35#7⟩ ∧
      (guardState .getAllData [(0x02, 0x70#8), (0x07, 0xFE#8)]).envEvent.fails = false ∧
      (guardState .getAllData [(0x02, 0x70#8), (0x07, 0xFE#8)]).inputs = .call .getAllData :: [] ∧
      ((guardState .getAllData [(0x02, 0x70#8), (0x07, 0xFE#8)]).settle.regs.read 0x02).extractLsb' 4 4 = 7#4 ∧
      (guardState .getAllData [(0x02, 0x70#8), (0x07, 0xFE#8)]).settle.envEvent.fails = false ∧
      ((guardState .getAllData [(0x02, 0x70#8), (0x07, 0xFE#8)]).settle.settle.regs.read 0x07).getLsbD 0 = false) := by
  decide

/-- One state with both guards holding, the device changing a bit no field covers between their reads. -/
theorem witness_GetAllDataIsOneBurst :
    (guardState .getAllData [(0x02, 0x70#8), (0x07, 0x01#8)]).session = some ⟨.a1, 0x35#7⟩ ∧
      (guardState .getAllData [(0x02, 0x70#8), (0x07, 0x01#8)]).inputs = .call .getAllData :: [] ∧
      (∀ e ∈ (guardState .getAllData [(0x02, 0x70#8), (0x07, 0x01#8)]).env, e.fails = false) ∧
      ((guardState .getAllData [(0x02, 0x70#8), (0x07, 0x01#8)]).settle.regs.read 0x02).extractLsb' 4 4 = 7#4 ∧
      ((guardState .getAllData [(0x02, 0x70#8), (0x07, 0x01#8)]).settle.settle.regs.read 0x07).getLsbD 0 = true := by
  decide

/-- The low range of X chosen while Z has the high one, and the smallest value above 40. -/
def outOfRangeState : State := guardState (.setMagThreshold 0x42200001#32 .x) [(0x03, 0x01#8)]

theorem witness_OutOfRangeThresholdWritesNothing :
    outOfRangeState.session = some ⟨.a1, 0x35#7⟩ ∧ outOfRangeState.envEvent.fails = false ∧
    outOfRangeState.inputs = .call (.setMagThreshold 0x42200001#32 .x) :: [] ∧ isNaN 0x42200001#32 = false ∧
    rangeMt (variantClass .a1)
        (if Axis.x = .z then (if (outOfRangeState.settle.regs.read 0x03).getLsbD 0 then .high else .low)
          else (if (outOfRangeState.settle.regs.read 0x03).getLsbD 1 then .high else .low)) * f32One <
      f32Mag 0x42200001#32 := by
  decide

/-- A working transport, a device that changes nothing of its own, and a register that holds another byte before. -/
def initState : State := hostState [(0x02, 0x10#8)] [.call .initDefault] [⟨false, []⟩]

theorem witness_InitDefaultWritesFourFrames :
    initState.session = some ⟨.a1, 0x35#7⟩ ∧ initState.inputs = .call .initDefault :: [] ∧
    (∀ e ∈ initState.env, e.fails = false) ∧ initState.regs.wf = true ∧ ∀ e ∈ initState.env, e.changes = [] := by
  decide

/-- Each code at its largest defined value, the second write failing. -/
def groupState : State :=
  hostState [(0x01, 0x02#8)] [.call (.setGroup ⟨.device, [3#8, 5#8, 3#8, 3#8, 1#8, 1#8, 1#8, 1#8]⟩)]
    [⟨false, []⟩, ⟨true, []⟩]

theorem witness_GroupSetIsNotAtomic :
    groupState.session = some ⟨.a1, 0x35#7⟩ ∧ groupState.regs.wf = true ∧
    groupState.inputs = .call (.setGroup { group := .device, codes := [3#8, 5#8, 3#8, 3#8, 1#8, 1#8, 1#8, 1#8] }) :: [] ∧
    groupState.env = { fails := false, changes := [] } :: { fails := true, changes := [] } :: [] ∧
    (3#8).toNat < 4 ∧ (5#8).toNat < 6 ∧ (1#8).toNat < 2 := by
  decide

/-- A construction on given registers, of a device that changes nothing of its own. -/
def constructState (h : HostCall) (regs : Memory) : State := hostState regs [.call h] [⟨false, []⟩]

/-- As a B2 at an address of the host's: the identity one bit off; held, with the device id that fits; with one that does
not. -/
theorem witness_ConstructionChecksIdentity :
    ((constructState (.constructWithAddress 0x7F#7 .b2) [(0x0E, 0x48#8)]).inputs =
        .call (.constructWithAddress 0x7F#7 .b2) :: [] ∧
      (∀ e ∈ (constructState (.constructWithAddress 0x7F#7 .b2) [(0x0E, 0x48#8)]).env, e.fails = false ∧ e.changes = []) ∧
      ¬ ((constructState (.constructWithAddress 0x7F#7 .b2) [(0x0E, 0x48#8)]).regs.read 0x0E = 0x49#8 ∧
        (constructState (.constructWithAddress 0x7F#7 .b2) [(0x0E, 0x48#8)]).regs.read 0x0F = 0x54#8)) ∧
    ∀ d ∈ [0xFE#8, 0xFD#8],
      (constructState (.constructWithAddress 0x7F#7 .b2) [(0x0D, d)]).inputs =
        .call (.constructWithAddress 0x7F#7 .b2) :: [] ∧
      (∀ e ∈ (constructState (.constructWithAddress 0x7F#7 .b2) [(0x0D, d)]).env, e.fails = false ∧ e.changes = []) ∧
      ((constructState (.constructWithAddress 0x7F#7 .b2) [(0x0D, d)]).regs.read 0x0E = 0x49#8 ∧
        (constructState (.constructWithAddress 0x7F#7 .b2) [(0x0D, d)]).regs.read 0x0F = 0x54#8) ∧
      (if d = 0xFE#8 then
        ((constructState (.constructWithAddress 0x7F#7 .b2) [(0x0D, d)]).regs.read 0x0D).toNat % 4 =
          1 + (variantCode .b2).toNat % 2
      else
        ((constructState (.constructWithAddress 0x7F#7 .b2) [(0x0D, d)]).regs.read 0x0D).toNat % 4 ≠
          1 + (variantCode .b2).toNat % 2) := by
  decide

/-- The same at the variant's default address, as a D2. -/
theorem witness_ConstructionChecksIdentity_default :
    ((constructState (.construct .d2) [(0x0F, 0x55#8)]).inputs = .call (.construct .d2) :: [] ∧
      (0x44#7 : BitVec 7) = BitVec.ofNat 7 ([0x35, 0x22, 0x78, 0x44].getD ((variantCode .d2).toNat / 2) 0) ∧
      (∀ e ∈ (constructState (.construct .d2) [(0x0F, 0x55#8)]).env, e.fails = false ∧ e.changes = []) ∧
      ¬ ((constructState (.construct .d2) [(0x0F, 0x55#8)]).regs.read 0x0E = 0x49#8 ∧
        (constructState (.construct .d2) [(0x0F, 0x55#8)]).regs.read 0x0F = 0x54#8)) ∧
    ∀ d ∈ [0xFE#8, 0xFD#8],
      (constructState (.construct .d2) [(0x0D, d)]).inputs = .call (.construct .d2) :: [] ∧
      (∀ e ∈ (constructState (.construct .d2) [(0x0D, d)]).env, e.fails = false ∧ e.changes = []) ∧
      ((constructState (.construct .d2) [(0x0D, d)]).regs.read 0x0E = 0x49#8 ∧
        (constructState (.construct .d2) [(0x0D, d)]).regs.read 0x0F = 0x54#8) ∧
      (if d = 0xFE#8 then
        ((constructState (.construct .d2) [(0x0D, d)]).regs.read 0x0D).toNat % 4 = 1 + (variantCode .d2).toNat % 2
      else ((constructState (.construct .d2) [(0x0D, d)]).regs.read 0x0D).toNat % 4 ≠ 1 + (variantCode .d2).toNat % 2) := by
  decide

/-- A byte with every bit set written to a register and read back, the device changing registers meanwhile. -/
def readBackState (reg : Reg) : State :=
  hostState [] [.call (.memWrite reg 0xFF#8), .call (.memRead reg .one)] [⟨false, [(0x06, 0#8)]⟩, ⟨false, [(0x02, 0#8)]⟩]

/-- The last threshold register, without sub-fields, and a register of fields at its top bit. -/
theorem witness_WrittenByteReadsBack :
    ((readBackState .zThrConfig).session = some ⟨.a1, 0x35#7⟩ ∧ (readBackState .zThrConfig).regs.wf = true ∧
      (readBackState .zThrConfig).strayed = false ∧ (regCode .zThrConfig).toNat < 0x0D ∧
      leavesSpec (regCode .zThrConfig).toNat 0xFF#8 = false ∧ (∀ e ∈ (readBackState .zThrConfig).env, e.fails = false) ∧
      (readBackState .zThrConfig).inputs = .call (.memWrite .zThrConfig 0xFF#8) :: .call (.memRead .zThrConfig .one) :: [] ∧
      regLanes .zThrConfig = [.bits 7 0]) ∧
    ((readBackState .sensorConfig1).session = some ⟨.a1, 0x35#7⟩ ∧ (readBackState .sensorConfig1).regs.wf = true ∧
      (readBackState .sensorConfig1).strayed = false ∧ (regCode .sensorConfig1).toNat < 0x0D ∧
      leavesSpec (regCode .sensorConfig1).toNat 0xFF#8 = false ∧ (∀ e ∈ (readBackState .sensorConfig1).env, e.fails = false) ∧
      (readBackState .sensorConfig1).inputs =
        .call (.memWrite .sensorConfig1 0xFF#8) :: .call (.memRead .sensorConfig1 .one) :: [] ∧
      fieldReg .magChEn = .sensorConfig1 ∧ (fieldSpan .magChEn).lo ≤ 7 ∧ 7 ≤ (fieldSpan .magChEn).hi) := by
  decide

end Sys2Proof.Tests
end

/-! O1. Each format's decoder reads back what the encoder wrote in that format (R122, R124); the decoding of an
instruction is that of its format. -/

namespace Sys2Proof

/-- The decoder sees the two bytes the encoder put together (R120). -/
theorem decodeWith_append (regAddr : Reg → BitVec 5) (op sel : Byte) :
    decodeWith regAddr (op ++ sel) = decodeOp regAddr op sel := by
  unfold decodeWith
  rw [BitVec.extractLsb'_append_eq_left, BitVec.extractLsb'_append_eq_right]

/-! ## Formats without a register -/

theorem decodeZ_zero (i : Instr) : decodeZ i 0#8 = .ok i := rfl

theorem decodeF_fieldCode (mk : Field → Instr) (f : Field) : decodeF mk (0#2 ++ fieldCode f) = .ok (mk f) := by
  unfold decodeF
  rw [if_pos BitVec.extractLsb'_append_eq_left, BitVec.extractLsb'_append_eq_right, fieldOfCode_fieldCode]

theorem decodeV_variantCode (mk : Variant → Instr) (v : Variant) :
    decodeV mk (0#5 ++ variantCode v) = .ok (mk v) := by
  unfold decodeV
  rw [if_pos BitVec.extractLsb'_append_eq_left, BitVec.extractLsb'_append_eq_right, variantOfCode_variantCode]

theorem decodeX_axisCode (mk : Axis → Instr) (a : Axis) : decodeX mk (0#6 ++ axisCode a) = .ok (mk a) := by
  unfold decodeX withAxis
  rw [if_pos BitVec.extractLsb'_append_eq_left, BitVec.extractLsb'_append_eq_right, axisOfCode_axisCode]

theorem decodeS_codes (mk : RangeClass → RangeBit → Instr) (c : RangeClass) (r : RangeBit) :
    decodeS mk (0#4 ++ classCode c ++ rangeBitCode r ++ 0#2) = .ok (mk c r) := by
  cases c <;> cases r <;> rfl

theorem decodeSA_codes (mk : RangeClass → RangeBit → Axis → Instr) (c : RangeClass) (r : RangeBit) (a : Axis) :
    decodeSA mk (0#4 ++ classCode c ++ rangeBitCode r ++ axisCode a) = .ok (mk c r a) := by
  cases c <;> cases r <;> cases a <;> rfl

theorem decodeB_codes (mk : RangeClass → RangeBit → RangeBit → Instr) (c : RangeClass) (rxy rz : RangeBit) :
    decodeB mk (0#4 ++ classCode c ++ 0#1 ++ rangeBitCode rxy ++ rangeBitCode rz) = .ok (mk c rxy rz) := by
  cases c <;> cases rxy <;> cases rz <;> rfl

/-! ## Formats with a register, under an address map that tells registers apart -/

section AddressMap

variable {regAddr : Reg → BitVec 5} (hinj : ∀ r r', regAddr r = regAddr r' → r = r')
include hinj

/-- The register is read from the low five bits, whatever stands above them. -/
theorem withReg_append (top : BitVec 3) (r : Reg) (k : Reg → Decoded) :
    withReg regAddr (top ++ regAddr r) k = k r := by
  unfold withReg
  rw [BitVec.extractLsb'_append_eq_right, regOfCodeWith_apply hinj]

theorem decodeR_regAddr (mk : Reg → Instr) (r : Reg) : decodeR regAddr mk (0#3 ++ regAddr r) = .ok (mk r) := by
  unfold decodeR
  rw [if_pos BitVec.extractLsb'_append_eq_left, withReg_append hinj]

/-- The pair rule of R124 is what well-formedness asks of the two operands. -/
theorem decodeRD_regAddr (mk : Bool → Reg → Instr) {dual : Bool} {r : Reg} (hpair : (!dual || r.startsPair) = true) :
    decodeRD regAddr mk (BitVec.ofBool dual ++ 0#2 ++ regAddr r) = .ok (mk dual r) := by
  have hmbz : ∀ x : BitVec 5, (BitVec.ofBool dual ++ 0#2 ++ x).extractLsb' 5 2 = 0#2 := by
    cases dual <;> decide
  have hdual : ∀ x : BitVec 5, (BitVec.ofBool dual ++ 0#2 ++ x).getLsbD 7 = dual := by
    cases dual <;> decide
  have hlegal : ¬ (dual && !r.startsPair) = true := by
    revert hpair; cases dual <;> simp
  unfold decodeRD
  rw [if_pos (hmbz _), withReg_append hinj, hdual]
  exact if_neg hlegal

theorem decodeRL_regAddr (mk : ReadLen → Reg → Instr) (l : ReadLen) (r : Reg) :
    decodeRL regAddr mk (0#1 ++ lenCode l ++ regAddr r) = .ok (mk l r) := by
  have hmbz : ∀ x : BitVec 5, (0#1 ++ lenCode l ++ x).getLsbD 7 = false := by
    cases l <;> decide
  have hlen : ∀ x : BitVec 5, (0#1 ++ lenCode l ++ x).extractLsb' 5 2 = lenCode l := by
    cases l <;> decide
  unfold decodeRL
  rw [if_pos (hmbz _), withReg_append hinj, hlen, lenOfCode_lenCode]

/-- Decoding inverts encoding, one case per operation, by the format of the operation (R122 to R124, R128). -/
theorem decodeWith_encodeWith {i : Instr} (hi : i.wellFormed = true) :
    decodeWith regAddr (encodeWith regAddr i) = .ok i := by
  unfold encodeWith
  rw [decodeWith_append]
  cases i with
  | rdef r | rdec r | renc r | wfrm r => exact decodeR_regAddr hinj _ r
  | rchk dual r => exact decodeRD_regAddr hinj _ hi
  | rfrm l r => exact decodeRL_regAddr hinj _ l r
  | fget f | fset f => exact decodeF_fieldCode _ f
  | vaddr v | vdid v | vcls v | didchk v => exact decodeV_variantCode _ v
  | vrng c r | threnc c r | thrdec c r => exact decodeS_codes _ c r
  | cvmag c r a => exact decodeSA_codes _ c r a
  | cvburst c rxy rz => exact decodeB_codes _ c rxy rz
  | chaxis a | rngsel a => exact decodeX_axisCode _ a
  | pk16le | pk16be | up16le | up16be | midchk | chall | chset | tchk | angchk => exact decodeZ_zero _
  | cvtemp | cvang | gain | magn | offenc | offdec => exact decodeZ_zero _

end AddressMap

/-- The same under the spec's own address map (R24). -/
theorem decode_encode {i : Instr} (hi : i.wellFormed = true) : decode (encode i) = .ok i := by
  rw [decode_eq_decodeWith, encode_eq_encodeWith]
  exact decodeWith_encodeWith (fun _ _ => regCode_injective) hi

/-- Settles O1, format by format. -/
theorem decodeInvertsEncode : Obligations.DecodeInvertsEncode := by
  unfold Obligations.DecodeInvertsEncode
  exact ⟨fun _ hi => decode_encode hi, fun _ hinj _ hi => decodeWith_encodeWith hinj hi⟩

end Sys2Proof

/-! O50, O9, O11. Which faults the block forms (R270, R271), that every step keeps the machine sound, and that commands are
answered each for itself (R12). -/

namespace Sys2Proof.Machine

/-! ## The faults the block forms (R270) -/

/-- The block raises every kind of fault but the two of the host (R270). -/
def FaultKind.ofBlock : FaultKind → Bool
  | .notConnected | .bus => false
  | _ => true

/-- If the reply is a fault, it is one the block raises (R270, R271). -/
def FormedByBlock (r : Reply) : Prop := ∀ f, r = .error f → f.ofBlock = true

theorem formedByBlock_ok (q : Result) : FormedByBlock (.ok q) := nofun

theorem formedByBlock_error {f : FaultKind} (h : f.ofBlock = true) : FormedByBlock (.error f) := by
  rintro _ ⟨⟩
  exact h

theorem FormedByBlock.ite {c : Prop} [Decidable c] {r r' : Reply} (h : FormedByBlock r) (h' : FormedByBlock r') :
    FormedByBlock (if c then r else r') := by
  split
  · exact h
  · exact h'

/-- Such a reply stands on the port as a response the block may form. -/
theorem FormedByBlock.respond_wf {r : Reply} (h : FormedByBlock r) : (respond r).wf := by
  cases r with
  | ok q => exact .inl rfl
  | error f =>
    have hf := h f rfl
    refine .inr ⟨rfl, ?_⟩
    revert hf
    cases f <;> decide

/-! ### The codec's replies -/

/-- The only fault of an encoding is BadOperand (R153). -/
theorem encodeLanes_error {T : DeviceTables} {a : Operand} {ls : List Lane} {i : Nat} {raw : Byte} {e : FaultKind}
    (h : encodeLanes T a ls i raw = .error e) : e = .badOperand := by
  induction ls generalizing i raw with
  | nil => cases h
  | cons l ls ih =>
    rw [encodeLanes] at h
    split at h
    · exact ih h
    · cases h; rfl

/-- The only fault of a check is MalformedRegister (R155). -/
theorem checkFields_error {T : DeviceTables} {raw : Byte} {fs : List Field} {e : FaultKind}
    (h : checkFields T raw fs = .error e) : e = .malformedRegister := by
  induction fs with
  | nil => cases h
  | cons f fs ih =>
    rw [checkFields] at h
    split at h
    · cases h; rfl
    · split at h
      · cases h
      · cases h; exact ih ‹_›

theorem rencReply_formed (T : DeviceTables) (reg : Reg) (a : Operand) : FormedByBlock (rencReply T reg a) := by
  unfold rencReply
  split
  · exact formedByBlock_ok _
  · next h => rw [encodeLanes_error h]; exact formedByBlock_error rfl

theorem checkSingle_formed (T : DeviceTables) (reg : Reg) (raw : Byte) : FormedByBlock (checkSingle T reg raw) := by
  unfold checkSingle
  split
  · exact formedByBlock_ok _
  · next h => rw [checkFields_error h]; exact formedByBlock_error rfl

theorem checkPair_formed (T : DeviceTables) (reg : Reg) (lo hi : Byte) : FormedByBlock (checkPair T reg lo hi) := by
  unfold checkPair
  split
  · next h => rw [checkFields_error h]; exact formedByBlock_error rfl
  · split
    · next h =>
      obtain ⟨r, -, hr⟩ := Option.map_eq_some_iff.mp h
      rw [checkFields_error hr]
      exact formedByBlock_error rfl
    · exact formedByBlock_ok _
    · exact formedByBlock_ok _

/-! ### The guards' replies -/

theorem withChannels_formed (T : DeviceTables) (sc : Half) {k : BitVec 3 → Reply} (hk : ∀ set, FormedByBlock (k set)) :
    FormedByBlock (withChannels T sc k) := by
  unfold withChannels
  refine .ite (formedByBlock_error rfl) ?_
  split
  · exact formedByBlock_error rfl
  · exact hk _

theorem chsetReply_formed (T : DeviceTables) (a : Operand) : FormedByBlock (chsetReply T a) := by
  unfold chsetReply
  split
  · exact formedByBlock_error rfl
  · exact formedByBlock_ok _

/-- A reply that chooses between two faults, or between a fault and a value. -/
theorem formedByBlock_ite_error {c : Prop} [Decidable c] {f : FaultKind} {r : Reply} (hf : f.ofBlock = true)
    (hr : FormedByBlock r) : FormedByBlock (if c then .error f else r) :=
  .ite (formedByBlock_error hf) hr

theorem formedByBlock_ite_ok_error {c : Prop} [Decidable c] {q : Result} {f : FaultKind} (hf : f.ofBlock = true) :
    FormedByBlock (if c then .ok q else .error f) :=
  .ite (formedByBlock_ok q) (formedByBlock_error hf)

/-- No instruction's reply is a fault of the host's (R270). -/
theorem replyOf_formed (t : Config.ThrQuant) (a : Operand) (i : Instr) : FormedByBlock (replyOf t a i) := by
  cases i with
  | rdef | rdec | pk16le | pk16be | up16le | up16be | vaddr | vdid | vcls | vrng | rngsel => exact formedByBlock_ok _
  | cvmag | cvtemp | cvang | cvburst | thrdec | gain | magn => exact formedByBlock_ok _
  | renc reg => exact rencReply_formed _ _ _
  | rchk dual reg => exact .ite (checkPair_formed _ _ _ _) (checkSingle_formed _ _ _)
  | fget f => exact formedByBlock_ite_error rfl (formedByBlock_ok _)
  | fset f => exact formedByBlock_ite_error rfl (formedByBlock_ite_error rfl (formedByBlock_ok _))
  | wfrm reg => exact formedByBlock_ite_error rfl (formedByBlock_ok _)
  | rfrm | midchk | didchk | tchk => exact formedByBlock_ite_ok_error rfl
  | chaxis axis => exact withChannels_formed _ _ fun _ => formedByBlock_ite_ok_error rfl
  | chall => exact withChannels_formed _ _ fun _ => formedByBlock_ite_ok_error rfl
  | chset => exact chsetReply_formed _ _
  | angchk => exact formedByBlock_ite_error rfl (formedByBlock_ok _)
  | threnc c r => exact formedByBlock_ite_error rfl (formedByBlock_ite_error rfl (formedByBlock_ok _))
  | offenc | offdec => exact formedByBlock_ite_error rfl (formedByBlock_error rfl)

/-! ## What a command does to the machine -/

/-- A command is answered as a block just reset would answer it, under the same `THR_QUANT` (R12). -/
theorem runCommand_eq_answerTo (c : Command) (s : State) :
    runCommand c s = .next ((s.present c).push (answerTo s.thrQuant c)) := by
  unfold answerTo
  rw [runCommand_eq, runCommand_eq]
  simp only [State.lastResponse_push]

/-- Every command is answered with a response the block may form (R120, R271). -/
theorem answerTo_wf (t : Config.ThrQuant) (c : Command) : (answerTo t c).wf := by
  unfold answerTo
  rw [runCommand_eq]
  simp only [State.lastResponse_push]
  split
  · exact (replyOf_formed _ _ _).respond_wf
  · exact (formedByBlock_error rfl).respond_wf

/-! ## Soundness -/

/-- Soundness speaks of the register file and the response port only. -/
theorem State.Sound.congr {s t : State} (h : s.Sound) (hregs : t.regs = s.regs) (hresp : t.responses = s.responses) :
    t.Sound := by
  unfold State.Sound
  rw [hregs, hresp]
  exact h

theorem State.Sound.push {s : State} (h : s.Sound) {r : Response} (hr : r.wf) : (s.push r).Sound := by
  refine ⟨h.1, fun r' hr' => ?_⟩
  rcases List.mem_append.mp hr' with hold | hnew
  · exact h.2 r' hold
  · rwa [List.mem_singleton.mp hnew]

/-- A sound machine under one setting of `THR_QUANT` (R7). -/
def State.SoundUnder (q : Config.ThrQuant) (s : State) : Prop := s.Sound ∧ s.thrQuant = q

/-- Commands, bus transactions and sessions keep the machine sound and the parameter as it is. -/
theorem soundUnder_stable (q : Config.ThrQuant) : SequenceStable (State.SoundUnder q) where
  answered s c t h e := by
    rw [runCommand_eq_answerTo] at e
    cases e
    have hp : (s.present c).Sound := h.1.congr rfl rfl
    exact ⟨hp.push (answerTo_wf _ _), h.2⟩
  settled s h := ⟨⟨State.settle_wf h.1.1, h.1.2⟩, h.2⟩
  landed s p b h hp := ⟨⟨State.land_wf h.1.1 (by omega) b, h.1.2⟩, h.2⟩
  logged s e h := ⟨h.1.congr rfl rfl, h.2⟩
  opened s v w h := ⟨h.1.congr rfl rfl, h.2⟩
  closed s h := ⟨h.1.congr rfl rfl, h.2⟩

/-- Settles O50: soundness under a setting of `THR_QUANT` is stable under everything a step is made of. -/
theorem stepKeepsSound : Obligations.StepKeepsSound := by
  unfold Obligations.StepKeepsSound
  intro s t hs hstep
  exact (soundUnder_stable s.thrQuant).step
    (fun _ _ h => ⟨h.1.congr rfl rfl, h.2⟩) (fun _ _ h => ⟨h.1.congr rfl rfl, h.2⟩) ⟨hs, rfl⟩ hstep

/-! ## Commands are answered each for itself -/

/-- Settles O9: the response is the reply to the data operand under the setting of `THR_QUANT`. -/
theorem responseDependsOnCommandAlone : Obligations.ResponseDependsOnCommandAlone := by
  unfold Obligations.ResponseDependsOnCommandAlone
  intro i s t ha hq
  refine ⟨respond (replyOf s.thrQuant s.cmd.a i), exec_eq_next i s, ?_⟩
  rw [ha, hq]
  exact exec_eq_next i t

/-- A run takes the first step and goes on from there. -/
theorem runs_succ_of_step {n : Nat} {s u : State} (h : step s = .next u) : runs (n + 1) s = runs n u := by
  simp [runs, Host.Core.run, h]

/-- A run over listed commands: one answer each, in order, and the last command stands on the port. -/
theorem runs_commands (cs : List Command) (rest : List HostAction) (s : State)
    (h : s.inputs = cs.map HostAction.command ++ rest) :
    runs cs.length s =
      .next { s with inputs := rest
                     cmd := cs.getLastD s.cmd
                     responses := s.responses ++ cs.map (answerTo s.thrQuant) } := by
  induction cs generalizing s with
  | nil =>
    simp only [List.map_nil, List.nil_append] at h
    subst h
    simp [runs, Host.Core.run]
  | cons c cs ih =>
    have hstep := step_command (c := c) (rest := cs.map HostAction.command ++ rest) (by simpa using h)
    rw [runCommand_eq_answerTo] at hstep
    rw [List.length_cons, runs_succ_of_step hstep, ih _ rfl]
    simp only [State.push, State.present, List.getLastD_cons, List.map_cons, List.append_assoc, List.singleton_append]

/-- Settles O11, by the run's closed form. -/
theorem commandsAreAnsweredIndependentlyInOrder : Obligations.CommandsAreAnsweredIndependentlyInOrder := by
  unfold Obligations.CommandsAreAnsweredIndependentlyInOrder
  intro cs rest s h
  exact ⟨_, runs_commands cs rest s h, rfl, rfl, rfl, rfl, rfl, rfl, rfl, rfl, rfl⟩

end Sys2Proof.Machine

/-! O15, O19. The codec's laws of R158 for any tables whose lanes tile the byte (R151) or whose fields lie in it (R26), and
from them those of the machine's own tables. -/

namespace Sys2Proof.Machine

/-! ## Responses and the bytes they carry -/

/-- The response of an instruction is its reply on the port. -/
theorem responseOf_eq (i : Instr) (a : Operand) (s : State) : responseOf i a s = respond (replyOf s.thrQuant a i) := by
  unfold responseOf
  rw [exec_eq_next]
  exact State.lastResponse_push _ _

/-- Status 0 is success (R270). -/
theorem ok_of_respond_status {r : Reply} (h : (respond r).status = 0#4) : ∃ q, r = .ok q := by
  cases r with
  | ok q => exact ⟨q, rfl⟩
  | error f => exact absurd h (statusCode_ne_zero f)

/-- A result handed on as the data operand keeps its low eight bytes (R105). -/
theorem byteAt_setWidth_result (q : Result) {k : Nat} (hk : k < 8) :
    byteAt (q.setWidth 64) k = q.extractLsb' (8 * k) 8 := by
  apply BitVec.eq_of_getLsbD_eq
  intro j hj
  have hlt : 8 * k + j < 64 := by omega
  simp [byteAt, hlt]

/-- A byte put on the port and handed on as the data operand is that byte. -/
theorem byteAt_setWidth_zext128 (b : Byte) : byteAt ((zext128 b).setWidth 64) 0 = b := by
  apply BitVec.eq_of_getLsbD_eq
  intro j hj
  have h64 : j < 64 := by omega
  simp [byteAt, zext128, hj, h64]

theorem extractLsb'_zext128 (b : Byte) : (zext128 b).extractLsb' 0 8 = b :=
  (byteAt_setWidth_result (zext128 b) (by omega)).symm.trans (byteAt_setWidth_zext128 b)

/-! ## Lanes that tile a byte -/

/-- A field reads no bit above its span (R26). -/
theorem getSpan_congr {s : Span} (hs : s.ok) {x y : Byte} (h : ∀ k, k ≤ s.hi → x.getLsbD k = y.getLsbD k) :
    getSpan s x = getSpan s y := by
  have hw := Span.lo_add_width hs
  apply BitVec.eq_of_getLsbD_eq
  intro k _
  rw [getSpan_getLsbD hs, getSpan_getLsbD hs]
  by_cases hk : k < s.width
  · rw [h (s.lo + k) (by omega)]
  · simp [hk]

/-- Bytes that agree on lanes tiling the bits from `n` up agree on those bits. -/
theorem getLsbD_eq_of_lanes {T : DeviceTables} {n : Nat} {ls : List Lane} (ht : tilesFrom T n ls = true) {x y : Byte}
    (h : ∀ l ∈ ls, getSpan (laneSpan T l) x = getSpan (laneSpan T l) y) {k : Nat} (hn : n ≤ k) (hk : k < 8) :
    x.getLsbD k = y.getLsbD k := by
  induction ls generalizing n with
  | nil => simp only [tilesFrom, beq_iff_eq] at ht; omega
  | cons l ls ih =>
    have hok := ((tilesFrom_ok ht).2 l List.mem_cons_self).1
    simp only [tilesFrom, Bool.and_eq_true, beq_iff_eq] at ht
    obtain ⟨⟨hlo, -⟩, htail⟩ := ht
    by_cases hin : k ≤ (laneSpan T l).hi
    · have hw := Span.lo_add_width hok
      have hbit := congrArg (fun b : Byte => b.getLsbD (k - (laneSpan T l).lo)) (h l List.mem_cons_self)
      have hlt : k - (laneSpan T l).lo < (laneSpan T l).width := by omega
      simpa [getSpan_getLsbD hok, hlt, show (laneSpan T l).lo + (k - (laneSpan T l).lo) = k by omega] using hbit
    · exact ih htail (fun l' hl' => h l' (List.mem_cons_of_mem _ hl')) (by omega)

/-- A byte is determined by lanes that tile it (R151). -/
theorem eq_of_lanes {T : DeviceTables} {ls : List Lane} (ht : tilesFrom T 0 ls = true) {x y : Byte}
    (h : ∀ l ∈ ls, getSpan (laneSpan T l) x = getSpan (laneSpan T l) y) : x = y :=
  BitVec.eq_of_getLsbD_eq fun _ hk => getLsbD_eq_of_lanes ht h (Nat.zero_le _) hk

/-- Lane `k` of a decoded byte (R152). -/
theorem decodeLanes_getD {T : DeviceTables} {ls : List Lane} {k : Nat} {l : Lane} (h : ls[k]? = some l) (raw : Byte) :
    (decodeLanes T ls raw).getD k 0#8 = getSpan (laneSpan T l) raw := by
  simp [decodeLanes, h]

/-- Encoding succeeds where every lane fits (R153). -/
theorem encodeLanes_ok_of_fits {T : DeviceTables} {a : Operand} {ls : List Lane} {i : Nat} {raw : Byte}
    (h : ∀ k l, ls[k]? = some l → fitsSpan (laneSpan T l) (byteAt a (i + k)) = true) :
    ∃ raw', encodeLanes T a ls i raw = .ok raw' := by
  induction ls generalizing i raw with
  | nil => exact ⟨raw, rfl⟩
  | cons l ls ih =>
    have htail : ∀ k l', ls[k]? = some l' → fitsSpan (laneSpan T l') (byteAt a (i + 1 + k)) = true := by
      intro k l' hl'
      rw [show i + 1 + k = i + (k + 1) by omega]
      exact h (k + 1) l' (by simpa using hl')
    have hhead : fitsSpan (laneSpan T l) (byteAt a i) = true := h 0 l rfl
    rw [encodeLanes, if_pos hhead]
    exact ih htail

/-- Where encoding succeeds, the bits below the lanes stay and every lane holds its operand byte (R153). -/
theorem encodeLanes_spec {T : DeviceTables} {a : Operand} {ls : List Lane} {n i : Nat} {raw raw' : Byte}
    (ht : tilesFrom T n ls = true) (h : encodeLanes T a ls i raw = .ok raw') :
    (∀ k, k < n → raw'.getLsbD k = raw.getLsbD k) ∧
      ∀ k l, ls[k]? = some l → getSpan (laneSpan T l) raw' = byteAt a (i + k) := by
  induction ls generalizing n i raw with
  | nil => cases h; exact ⟨fun _ _ => rfl, nofun⟩
  | cons l ls ih =>
    have hok := ((tilesFrom_ok ht).2 l List.mem_cons_self).1
    simp only [tilesFrom, Bool.and_eq_true, beq_iff_eq] at ht
    obtain ⟨⟨hlo, -⟩, htail⟩ := ht
    rw [encodeLanes] at h
    split at h
    · next hfit =>
      obtain ⟨hlow, hlanes⟩ := ih htail h
      refine ⟨fun k hk => ?_, fun k l' hl' => ?_⟩
      · rw [hlow k (by omega), setSpan_getLsbD hok _ _ _ (by omega), if_neg (by omega)]
      · cases k with
        | zero =>
          obtain rfl : l = l' := by simpa using hl'
          rw [getSpan_congr hok fun k hk => hlow k (by omega)]
          exact getSpan_setSpan_same hok _ hfit
        | succ k =>
          rw [hlanes k l' (by simpa using hl'), show i + 1 + k = i + (k + 1) by omega]
    · cases h

/-! ## RDEC and RENC -/

/-- What RENC answers if it succeeds (R153). -/
theorem rencReply_eq_ok_iff {T : DeviceTables} {reg : Reg} {a : Operand} {q : Result} :
    rencReply T reg a = .ok q ↔ ∃ raw, encodeLanes T a (T.regLanes reg) 0 0#8 = .ok raw ∧ q = zext128 raw := by
  unfold rencReply
  cases encodeLanes T a (T.regLanes reg) 0 0#8 with
  | ok raw => simp [eq_comm]
  | error e => simp

/-- RENC of the lanes RDEC gives is the raw byte (R158). -/
theorem renc_rdec {T : DeviceTables} {reg : Reg} (ht : T.tiles reg) (a : Operand) :
    ∃ q, rdecReply T reg a = .ok q ∧ rencReply T reg (q.setWidth 64) = .ok ((a.extractLsb' 0 8).setWidth 128) := by
  refine ⟨_, rfl, rencReply_eq_ok_iff.mpr ?_⟩
  have hlane : ∀ k l, (T.regLanes reg)[k]? = some l →
      byteAt ((packBytes (decodeLanes T (T.regLanes reg) (byteAt a 0))).setWidth 64) (0 + k) =
        getSpan (laneSpan T l) (byteAt a 0) := by
    intro k l hl
    have hk : k < (T.regLanes reg).length := (List.getElem?_eq_some_iff.mp hl).1
    have hlen := tilesFrom_length ht
    rw [Nat.zero_add, byteAt_setWidth_result _ (by omega), packBytes_byte _ _ (by omega), decodeLanes_getD hl]
  obtain ⟨raw, hraw⟩ := encodeLanes_ok_of_fits (T := T) (ls := T.regLanes reg) (raw := 0#8) fun k l hl => by
    rw [hlane k l hl]
    exact fitsSpan_getSpan ((tilesFrom_ok ht).2 l (List.mem_of_getElem? hl)).1 _
  have hsame : byteAt a 0 = raw := eq_of_lanes ht fun l hl => by
    obtain ⟨k, hk⟩ := List.mem_iff_getElem?.mp hl
    rw [(encodeLanes_spec ht hraw).2 k l hk, hlane k l hk]
  exact ⟨raw, hraw, by rw [← hsame]; rfl⟩

/-- RDEC of what RENC gives is the lanes (R158). -/
theorem rdec_renc {T : DeviceTables} {reg : Reg} (ht : T.tiles reg) {a : Operand} {q : Result}
    (h : rencReply T reg a = .ok q) :
    ∃ p, rdecReply T reg (q.setWidth 64) = .ok p ∧
      ∀ k, k < (T.regLanes reg).length → p.extractLsb' (8 * k) 8 = a.extractLsb' (8 * k) 8 := by
  obtain ⟨raw, hraw, rfl⟩ := rencReply_eq_ok_iff.mp h
  refine ⟨_, rfl, fun k hk => ?_⟩
  have hlen := tilesFrom_length ht
  have hl : (T.regLanes reg)[k]? = some (T.regLanes reg)[k] := List.getElem?_eq_getElem hk
  rw [packBytes_byte _ _ (by omega), byteAt_setWidth_zext128, decodeLanes_getD hl, (encodeLanes_spec ht hraw).2 k _ hl,
    Nat.zero_add]
  rfl

/-- Settles O15: the laws under any layout, and under the machine's own, whose lanes tile every register. -/
theorem registerRoundTrip : Obligations.RegisterRoundTrip := by
  unfold Obligations.RegisterRoundTrip
  refine ⟨fun reg a s => ?_, fun reg a s hok k hk => ?_, fun T reg ht => ⟨renc_rdec ht, fun _ _ => rdec_renc ht⟩⟩
  · obtain ⟨q, hdec, henc⟩ := renc_rdec (tables_tiles reg) a
    simp only [responseOf_eq, replyOf, hdec, respond_ok, henc]
  · simp only [responseOf_eq, replyOf] at hok ⊢
    obtain ⟨q, henc⟩ := ok_of_respond_status hok
    obtain ⟨p, hdec, hlanes⟩ := rdec_renc (tables_tiles reg) henc
    simp only [henc, respond_ok, hdec]
    exact hlanes k hk

/-! ## FGET and FSET -/

/-- FGET looks at the field's code and at nothing else (R156). -/
theorem fgetReply_congr {T : DeviceTables} {f : Field} {a b : Operand}
    (h : fieldCodeIn T f (byteAt a 0) = fieldCodeIn T f (byteAt b 0)) : fgetReply T f a = fgetReply T f b := by
  simp only [fgetReply, h]

/-- FGET that succeeds gives the field's code in the low byte, the `rsv` flag standing above it (R127, R156). -/
theorem fgetReply_code {T : DeviceTables} {f : Field} {a : Operand} {p : Result} (h : fgetReply T f a = .ok p) :
    p.extractLsb' 0 8 = fieldCodeIn T f (byteAt a 0) := by
  simp only [fgetReply] at h
  split at h
  · cases h
  · cases h
    apply BitVec.eq_of_getLsbD_eq
    intro j hj
    have h128 : j < 128 := by omega
    simp [zext128, hj, h128]

/-- FSET takes a code that fits the field and is defined (R157). -/
def FsetAccepts (T : DeviceTables) (f : Field) (c : Byte) : Prop :=
  fitsSpan (T.fieldSpan f) c = true ∧ isUndefinedCode T f c.toNat = false

/-- When FSET succeeds, and with what (R157). -/
theorem fsetReply_eq_ok_iff {T : DeviceTables} {f : Field} {a : Operand} {q : Result} :
    fsetReply T f a = .ok q ↔
      FsetAccepts T f (byteAt a 1) ∧ q = zext128 (setSpan (T.fieldSpan f) (byteAt a 0) (byteAt a 1)) := by
  unfold fsetReply FsetAccepts
  by_cases hfit : fitsSpan (T.fieldSpan f) (byteAt a 1) = true
  · by_cases hdef : isUndefinedCode T f (byteAt a 1).toNat = true
    · simp [hfit, hdef]
    · simp [hfit, hdef, eq_comm]
  · simp [hfit]

/-- FGET after FSET of the same field gives the code (R158). -/
theorem fget_fset_same {T : DeviceTables} {f : Field} {a : Operand} {p q : Result} (hf : T.inByte f)
    (hset : fsetReply T f a = .ok q) (hget : fgetReply T f (q.setWidth 64) = .ok p) :
    p.extractLsb' 0 8 = a.extractLsb' 8 8 := by
  obtain ⟨hacc, rfl⟩ := fsetReply_eq_ok_iff.mp hset
  rw [fgetReply_code hget, byteAt_setWidth_zext128]
  exact getSpan_setSpan_same hf _ hacc.1

/-- FGET of a field that shares no bit with the one set answers as before (R158). -/
theorem fget_fset_other {T : DeviceTables} {f g : Field} {a : Operand} {q : Result} (hf : T.inByte f) (hg : T.inByte g)
    (hfg : T.apart f g) (hset : fsetReply T f a = .ok q) : fgetReply T g (q.setWidth 64) = fgetReply T g a := by
  obtain ⟨-, rfl⟩ := fsetReply_eq_ok_iff.mp hset
  refine fgetReply_congr ?_
  rw [byteAt_setWidth_zext128]
  exact getSpan_setSpan_other hf hg hfg _ _

/-- The operand of FSET: the raw byte, and the code above it (R126). -/
theorem byteAt_code_raw (c raw : Byte) :
    byteAt ((c ++ raw).setWidth 64) 0 = raw ∧ byteAt ((c ++ raw).setWidth 64) 1 = c := by
  constructor
  · apply BitVec.eq_of_getLsbD_eq
    intro j hj
    rw [byteAt, BitVec.getLsbD_extractLsb', BitVec.getLsbD_setWidth, BitVec.getLsbD_append]
    simp [hj, show j < 64 by omega]
  · apply BitVec.eq_of_getLsbD_eq
    intro j hj
    rw [byteAt, BitVec.getLsbD_extractLsb', BitVec.getLsbD_setWidth, BitVec.getLsbD_append]
    simp [hj, show 8 + j < 64 by omega]

/-- FSET on a raw byte and a code written next to each other (R157). -/
theorem fsetReply_code_raw {T : DeviceTables} {f : Field} {c raw : Byte} {q : Result} :
    fsetReply T f ((c ++ raw).setWidth 64) = .ok q ↔
      FsetAccepts T f c ∧ q = zext128 (setSpan (T.fieldSpan f) raw c) := by
  rw [fsetReply_eq_ok_iff, (byteAt_code_raw c raw).1, (byteAt_code_raw c raw).2]

/-- A code FSET takes on one raw byte it takes on every raw byte, with this response. -/
theorem fset_response {f : Field} {c : Byte} (h : FsetAccepts tables f c) (raw : Byte) (s : State) :
    responseOf (.fset f) ((c ++ raw).setWidth 64) s = { status := 0#4, q := zext128 (setSpan (fieldSpan f) raw c) } := by
  rw [responseOf_eq]
  exact congrArg respond (fsetReply_code_raw.mpr ⟨h, rfl⟩)

/-- FSET succeeded, so it takes the code. -/
theorem fsetAccepts_of_status {f : Field} {c raw : Byte} {s : State}
    (h : (responseOf (.fset f) ((c ++ raw).setWidth 64) s).status = 0#4) : FsetAccepts tables f c := by
  rw [responseOf_eq] at h
  obtain ⟨q, hq⟩ := ok_of_respond_status h
  exact (fsetReply_code_raw.mp hq).1

/-- FSETs of different fields of one register commute (R158). -/
theorem fset_comm {f g : Field} (hr : fieldReg f = fieldReg g) (hne : f ≠ g) {raw c d : Byte} {s : State}
    (hf : (responseOf (.fset f) ((c ++ raw).setWidth 64) s).status = 0#4)
    (hg : (responseOf (.fset g) ((d ++ raw).setWidth 64) s).status = 0#4) :
    responseOf (.fset g) ((d ++ (responseOf (.fset f) ((c ++ raw).setWidth 64) s).q.extractLsb' 0 8).setWidth 64) s =
      responseOf (.fset f) ((c ++ (responseOf (.fset g) ((d ++ raw).setWidth 64) s).q.extractLsb' 0 8).setWidth 64) s := by
  have hc := fsetAccepts_of_status hf
  have hd := fsetAccepts_of_status hg
  rw [fset_response hc raw, fset_response hd raw, extractLsb'_zext128, extractLsb'_zext128, fset_response hd,
    fset_response hc, setSpan_comm (fieldSpan_ok g) (fieldSpan_ok f) (fields_disjoint hr.symm hne.symm)]

/-- Settles O19: the first two laws under any tables and so under the machine's, and `fset_comm`. -/
theorem fieldInsertionLaws : Obligations.FieldInsertionLaws := by
  unfold Obligations.FieldInsertionLaws
  refine ⟨fun f a s hset hget => ?_, fun f g a s hr hne hset => ?_,
    fun f g raw c d s hr hne hf hg => fset_comm hr hne hf hg,
    fun T f a q hf hset => ⟨fun p => fget_fset_same hf hset, fun g hg hfg => fget_fset_other hf hg hfg hset⟩⟩
  · simp only [responseOf_eq, replyOf] at hset hget ⊢
    obtain ⟨q, hq⟩ := ok_of_respond_status hset
    obtain ⟨p, hp⟩ := ok_of_respond_status hget
    rw [hp]
    rw [hq] at hp
    exact fget_fset_same (T := tables) (fieldSpan_ok f) hq hp
  · simp only [responseOf_eq, replyOf] at hset ⊢
    obtain ⟨q, hq⟩ := ok_of_respond_status hset
    rw [hq, respond_ok, fget_fset_other (T := tables) (fieldSpan_ok f) (fieldSpan_ok g) (fields_disjoint hr hne) hq]

end Sys2Proof.Machine

/-! O48. One rounding to nearest, ties to even (R10): first of a quotient to a whole number, then of a quotient of units to a
binary32 magnitude, last with signs. -/

namespace Sys2Proof.Machine

/-! ## Rounding to a whole number -/

/-- A quotient is rounded down where the remainder is at most half the divisor and up where it is at least half; at exactly
half to the even neighbour. -/
theorem roundNearestEven_cases (n d : Nat) :
    (roundNearestEven n d = n / d ∧ 2 * (n % d) ≤ d ∧ (2 * (n % d) = d → n / d % 2 = 0)) ∨
    (roundNearestEven n d = n / d + 1 ∧ d ≤ 2 * (n % d) ∧ (2 * (n % d) = d → n / d % 2 = 1)) := by
  unfold roundNearestEven
  split
  · exact .inr ⟨rfl, by omega, by omega⟩
  · exact .inl ⟨rfl, by omega, by omega⟩

/-- `d` times the distance between `j` and the quotient `n / d`. -/
def distTo (n d j : Nat) : Nat := ((j * d : Nat) - (n : Int)).natAbs

/-- Counted in steps of `u` with divisor `d`, or in steps of 1 with divisor `d * u`: the same distance. -/
theorem distTo_steps (n d j u : Nat) : distTo n d (j * u) = distTo n (d * u) j := by
  unfold distTo
  rw [Nat.mul_assoc, Nat.mul_comm u d]

/-- Below the quotient, the nearer value is the larger one. -/
theorem distTo_lt_of_lt {n d i j : Nat} (hd : 0 < d) (hij : i < j) (hj : j * d ≤ n) : distTo n d j < distTo n d i := by
  have h := Nat.mul_lt_mul_of_pos_right hij hd
  unfold distTo
  omega

/-- No whole number is nearer to `n / d` than the rounded one, and where another is as near the rounded one is even. -/
theorem roundNearestEven_nearest {d : Nat} (hd : 0 < d) (n j : Nat) :
    distTo n d (roundNearestEven n d) ≤ distTo n d j ∧
    (distTo n d (roundNearestEven n d) = distTo n d j → j ≠ roundNearestEven n d → roundNearestEven n d % 2 = 0) := by
  have hn := Nat.div_add_mod' n d
  have hr := Nat.mod_lt n hd
  have hup : (n / d + 1) * d = n / d * d + d := Nat.succ_mul _ _
  have hcase := roundNearestEven_cases n d
  -- the multiples of `d` on either side of `j * d`, so that `omega` sees products as atoms
  have hside : (j ≤ n / d ∧ j * d ≤ n / d * d ∧ (j < n / d → j * d + d ≤ n / d * d)) ∨
      (n / d + 1 ≤ j ∧ (n / d + 1) * d ≤ j * d ∧ (n / d + 1 < j → (n / d + 1) * d + d ≤ j * d)) := by
    have hstep : ∀ {a b : Nat}, a < b → a * d + d ≤ b * d := fun h => by
      rw [← Nat.succ_mul]; exact Nat.mul_le_mul_right d h
    rcases Nat.lt_or_ge (n / d) j with h | h
    · exact .inr ⟨h, Nat.mul_le_mul_right d h, hstep⟩
    · exact .inl ⟨h, Nat.mul_le_mul_right d h, hstep⟩
  unfold distTo
  rcases hcase with ⟨ht, hrem, htie⟩ | ⟨ht, hrem, htie⟩ <;> rw [ht] <;> omega

/-- Past an odd `j` the quotient is rounded from the middle between `j` and its successor on. -/
theorem lt_roundNearestEven_iff {d j : Nat} (hd : 0 < d) (n : Nat) (hj : j % 2 = 1) :
    j < roundNearestEven n d ↔ (2 * j + 1) * d ≤ 2 * n := by
  have hn := Nat.div_add_mod' n d
  have hr := Nat.mod_lt n hd
  have hcase := roundNearestEven_cases n d
  have hmid : (2 * j + 1) * d = 2 * (j * d) + d := by ring
  rw [hmid]
  rcases Nat.lt_trichotomy j (n / d) with h | h | h
  · have := Nat.mul_le_mul_right d h
    rw [Nat.succ_mul] at this
    omega
  · rw [h] at hj ⊢
    omega
  · have := Nat.mul_le_mul_right d h
    rw [Nat.succ_mul] at this
    omega

/-! ## Rounding to a magnitude -/

/-- At the step of the quotient's binade, a binary32 magnitude is a whole number of steps, or lies below the binade. -/
theorem f32Mag_on_grid (w : F32) (k : Nat) :
    (∃ i, f32Mag w = i * 2 ^ k) ∨ (k ≠ 0 ∧ f32Mag w < 2 ^ 23 * 2 ^ k) := by
  have hfrac : f32Frac w < 2 ^ 23 := (w.extractLsb' 0 23).isLt
  unfold f32Mag
  rcases Nat.eq_zero_or_pos k with rfl | hk
  · exact .inl ⟨_, (Nat.mul_one _).symm⟩
  · split
    · refine .inr ⟨by omega, ?_⟩
      exact Nat.lt_of_lt_of_le hfrac (Nat.le_mul_of_pos_right _ (Nat.two_pow_pos k))
    · rcases Nat.lt_or_ge (f32Exp w - 1) k with hlt | hge
      · refine .inr ⟨by omega, ?_⟩
        calc (2 ^ 23 + f32Frac w) * 2 ^ (f32Exp w - 1)
            < 2 ^ 24 * 2 ^ (f32Exp w - 1) := Nat.mul_lt_mul_of_pos_right (by omega) (Nat.two_pow_pos _)
          _ ≤ 2 ^ 24 * 2 ^ (k - 1) := Nat.mul_le_mul_left _ (Nat.pow_le_pow_right (by omega) (by omega))
          _ = 2 ^ 23 * 2 ^ k := by rw [← Nat.pow_add, ← Nat.pow_add]; congr 1; omega
      · refine .inl ⟨(2 ^ 23 + f32Frac w) * 2 ^ (f32Exp w - 1 - k), ?_⟩
        rw [Nat.mul_assoc, ← Nat.pow_add, Nat.sub_add_cancel hge]

/-- Where `roundMag` does not overflow, no binary32 magnitude is nearer to `n / d` than the one it gives, and where another
is as near the pattern it gives is even. -/
theorem roundMag_nearest {n d : Nat} (hd : 0 < d) (hfin : roundMag n d < 0x7F800000) (w : F32) :
    distTo n d (patternMag (roundMag n d)) ≤ distTo n d (f32Mag w) ∧
    (distTo n d (patternMag (roundMag n d)) = distTo n d (f32Mag w) → f32Mag w ≠ patternMag (roundMag n d) →
      roundMag n d % 2 = 0) := by
  have hpat : roundMag n d = expSteps (n / d) * 2 ^ 23 + roundFrac n d := by
    rw [roundMag_eq] at hfin ⊢; omega
  have hstep : 0 < d * 2 ^ expSteps (n / d) := Nat.mul_pos hd (Nat.two_pow_pos _)
  have hnear : ∀ i, distTo n d (patternMag (roundMag n d)) ≤ distTo n d (i * 2 ^ expSteps (n / d)) ∧
      (distTo n d (patternMag (roundMag n d)) = distTo n d (i * 2 ^ expSteps (n / d)) → i ≠ roundFrac n d →
        roundFrac n d % 2 = 0) := by
    intro i
    rw [patternMag_roundMag hfin, f32Ulp_eq, distTo_steps, distTo_steps]
    exact roundNearestEven_nearest hstep n i
  rcases f32Mag_on_grid w (expSteps (n / d)) with ⟨i, hi⟩ | ⟨hk, hbelow⟩
  · rw [hi]
    refine ⟨(hnear i).1, fun htie hne => ?_⟩
    have heven := (hnear i).2 htie fun h => hne (by rw [h, patternMag_roundMag hfin, f32Ulp_eq])
    omega
  · have hle : 2 ^ 23 * 2 ^ expSteps (n / d) * d ≤ n :=
      Nat.le_trans (Nat.mul_le_mul_right d (steps_le hk)) (Nat.div_mul_le_self n d)
    have hfar := distTo_lt_of_lt hd hbelow hle
    have := (hnear (2 ^ 23)).1
    omega

/-- `roundMag` overflows from half a step beyond the largest finite magnitude on, `(2^24 - 1) · 2^253` units. -/
theorem roundMag_overflows_iff {d : Nat} (hd : 0 < d) (n : Nat) :
    roundMag n d = 0x7F800000 ↔ (2 ^ 25 - 1) * 2 ^ 253 * d ≤ 2 * n := by
  have hle := roundFrac_le n d
  rw [roundMag_eq]
  rcases Nat.lt_trichotomy (expSteps (n / d)) 253 with hk | hk | hk
  · have hsmall : n < 2 ^ 24 * 2 ^ 252 * d := by
      refine Nat.lt_of_lt_of_le ((Nat.div_lt_iff_lt_mul hd).mp (lt_steps (n / d))) (Nat.mul_le_mul_right d ?_)
      exact Nat.mul_le_mul_left _ (Nat.pow_le_pow_right (by omega) (by omega))
    omega
  · have hfrac : 2 ^ 24 - 1 < roundFrac n d ↔ (2 * (2 ^ 24 - 1) + 1) * (d * 2 ^ 253) ≤ 2 * n := by
      unfold roundFrac
      rw [hk]
      exact lt_roundNearestEven_iff (Nat.mul_pos hd (Nat.two_pow_pos _)) n (by decide)
    omega
  · have hbig : 2 ^ 23 * 2 ^ 254 * d ≤ n := by
      refine Nat.le_trans (Nat.mul_le_mul_right d ?_) (Nat.div_mul_le_self n d)
      refine Nat.le_trans (Nat.mul_le_mul_left _ ?_) (steps_le (by omega))
      exact Nat.pow_le_pow_right (by omega) hk
    have := le_roundFrac (n := n) (d := d) (by omega)
    omega

/-! ## Signs -/

/-- A magnitude with a sign, as `f32Units` reads it. -/
def signed (neg : Bool) (n : Nat) : Int := if neg then -(n : Int) else n

theorem f32Units_eq_signed (x : F32) : f32Units x = signed (f32Sign x) (f32Mag x) := rfl

theorem signed_natAbs (u : Int) : signed (decide (u < 0)) u.natAbs = u := by
  unfold signed
  by_cases h : u < 0
  · rw [if_pos (decide_eq_true h)]; omega
  · rw [if_neg (by simp [h])]; omega

theorem natAbs_f32Units (x : F32) : (f32Units x).natAbs = f32Mag x := by
  unfold f32Units
  split <;> simp

/-- Signs multiply (R10). -/
theorem signed_mul_signed (s t : Bool) (m n : Nat) : signed s m * signed t n = signed (s != t) (m * n) := by
  cases s <;> cases t <;> simp [signed]

theorem signed_mul_nat (s : Bool) (m n : Nat) : signed s m * n = signed s (m * n) := by
  cases s <;> simp [signed]

/-- With signs apart, a value's distance from the exact result is that of the magnitudes added. -/
theorem natAbs_signed_sub (s t : Bool) (m n d : Nat) :
    (signed s m * d - signed t n).natAbs = if s = t then distTo n d m else m * d + n := by
  unfold distTo
  have hcast : (m : Int) * (d : Int) = ((m * d : Nat) : Int) := by push_cast; ring
  cases s <;> cases t <;> simp only [signed, Bool.false_eq_true, if_true, if_false, reduceCtorEq, Int.neg_mul, hcast] <;>
    omega

/-- No finite binary32 value is nearer than `x` to the quotient `e / d`, and where another is as near the fraction of `x` is
even; unless `x` is infinite (R10). -/
def NearestEven (x : F32) (d e : Int) : Prop :=
  ∀ w, f32Finite w → isInf x = false →
    (f32Units x * d - e).natAbs ≤ (f32Units w * d - e).natAbs ∧
    ((f32Units x * d - e).natAbs = (f32Units w * d - e).natAbs → f32Units w ≠ f32Units x → x.getLsbD 0 = false)

/-- Both signs of the quotient turned. -/
theorem NearestEven.neg {x : F32} {d e : Int} (h : NearestEven x d e) : NearestEven x (-d) (-e) := by
  intro w hw hx
  have hturn : ∀ u : Int, (u * -d - -e).natAbs = (u * d - e).natAbs := fun u => by
    rw [show u * -d - -e = -(u * d - e) by ring, Int.natAbs_neg]
  rw [hturn, hturn]
  exact h w hw hx

/-- The sign of the quotient shared out between divisor and dividend. -/
theorem NearestEven.signed {x : F32} {s t : Bool} {d n : Nat} (h : NearestEven x d (signed (s != t) n)) :
    NearestEven x (Machine.signed t d) (Machine.signed s n) := by
  cases t with
  | false => simpa [Machine.signed] using h
  | true => cases s <;> simpa [Machine.signed] using h.neg

/-! ## A rounded magnitude, packed with a sign -/

theorem isInf_pack_iff (neg : Bool) {m : Nat} (hm : m ≤ 0x7F800000) : isInf (f32Pack neg m) = true ↔ m = 0x7F800000 := by
  rcases Nat.lt_or_eq_of_le hm with h | rfl
  · simp [isInf_pack neg h, Nat.ne_of_lt h]
  · cases neg <;> decide

theorem isNaN_pack_le (neg : Bool) {m : Nat} (hm : m ≤ 0x7F800000) : isNaN (f32Pack neg m) = false := by
  rcases Nat.lt_or_eq_of_le hm with h | rfl
  · exact isNaN_pack neg h
  · cases neg <;> decide

theorem getLsbD_zero_pack (neg : Bool) {m : Nat} (hm : m < 2 ^ 31) (heven : m % 2 = 0) :
    (f32Pack neg m).getLsbD 0 = false := by
  rw [BitVec.getLsbD, f32Pack_toNat neg hm, Nat.testBit_zero]
  cases neg <;> simp <;> omega

theorem roundMag_le (n d : Nat) : roundMag n d ≤ 0x7F800000 := by
  rw [roundMag_eq]
  omega

/-- Rounding gives no NaN. -/
theorem isNaN_pack_roundMag (neg : Bool) (n d : Nat) : isNaN (f32Pack neg (roundMag n d)) = false :=
  isNaN_pack_le neg (roundMag_le n d)

/-- Rounding gives an infinity from half a step beyond the largest finite value on. -/
theorem isInf_pack_roundMag_iff (neg : Bool) {d : Nat} (hd : 0 < d) (n : Nat) :
    isInf (f32Pack neg (roundMag n d)) = true ↔ (2 ^ 25 - 1) * 2 ^ 253 * d ≤ 2 * n := by
  rw [isInf_pack_iff neg (roundMag_le n d), roundMag_overflows_iff hd]

/-- A rounded magnitude is at least as near as zero. -/
theorem distTo_roundMag_le {n d : Nat} (hd : 0 < d) (hfin : roundMag n d < 0x7F800000) :
    distTo n d (patternMag (roundMag n d)) ≤ n := by
  have h := (roundMag_nearest hd hfin 0#32).1
  rwa [show f32Mag 0#32 = 0 by decide, show distTo n d 0 = n by simp [distTo]] at h

/-- Rounding is to nearest, ties to even, among the values of both signs. -/
theorem nearestEven_pack_roundMag (neg : Bool) {d : Nat} (hd : 0 < d) (n : Nat) :
    NearestEven (f32Pack neg (roundMag n d)) d (signed neg n) := by
  intro w _ hx
  have hlt : roundMag n d < 0x7F800000 := by
    refine Nat.lt_of_le_of_ne (roundMag_le n d) fun h => ?_
    simp [(isInf_pack_iff neg (roundMag_le n d)).mpr h] at hx
  have h31 := roundMag_lt n d
  rw [f32Units_eq_signed w, f32Units_eq_signed (f32Pack neg _), f32Sign_pack neg h31, f32Mag_pack neg h31,
    natAbs_signed_sub, natAbs_signed_sub, if_pos rfl]
  by_cases hs : f32Sign w = neg
  · obtain ⟨hle, htie⟩ := roundMag_nearest hd hlt w
    rw [if_pos hs, hs]
    exact ⟨hle, fun heq hne => getLsbD_zero_pack neg h31 (htie heq fun h => hne (by rw [h]))⟩
  · have hzero := distTo_roundMag_le hd hlt
    rw [if_neg hs]
    refine ⟨by omega, fun heq hne => ?_⟩
    have hw : f32Mag w = 0 := (Nat.mul_eq_zero.mp (show f32Mag w * d = 0 by omega)).resolve_right (by omega)
    have hdist : distTo n d (f32Mag w) = n := by simp [distTo, hw]
    rw [hw, Nat.zero_mul, Nat.zero_add] at heq
    refine getLsbD_zero_pack neg h31 ((roundMag_nearest hd hlt w).2 (heq.trans hdist.symm) fun h => hne ?_)
    rw [← h, hw]
    simp [signed]

/-! ## The three operations -/

/-- The sum, an exact zero included, is the rounding of the exact sum under its sign (R10). -/
theorem fadd_eq_pack {x y : F32} (hx : f32Finite x) (hy : f32Finite y) :
    ∃ neg, fadd x y = f32Pack neg (roundMag (f32Units x + f32Units y).natAbs 1) ∧
      signed neg (f32Units x + f32Units y).natAbs = f32Units x + f32Units y := by
  rw [fadd_finite hx hy]
  split
  · next h =>
    rw [h]
    refine ⟨f32Sign x && f32Sign y, rfl, ?_⟩
    simp [signed]
  · exact ⟨_, rfl, signed_natAbs _⟩

theorem fadd_rounds {x y : F32} (hx : f32Finite x) (hy : f32Finite y) :
    isNaN (fadd x y) = false ∧
    (isInf (fadd x y) = true ↔ (2 ^ 25 - 1) * 2 ^ 253 ≤ 2 * (f32Units x + f32Units y).natAbs) ∧
    NearestEven (fadd x y) 1 (f32Units x + f32Units y) := by
  obtain ⟨neg, hadd, hsigned⟩ := fadd_eq_pack hx hy
  have hnear := nearestEven_pack_roundMag neg Nat.one_pos (f32Units x + f32Units y).natAbs
  rw [hsigned] at hnear
  rw [hadd]
  exact ⟨isNaN_pack_roundMag _ _ _, by simpa using isInf_pack_roundMag_iff neg Nat.one_pos _, hnear⟩

theorem fmul_rounds {x y : F32} (hx : f32Finite x) (hy : f32Finite y) :
    isNaN (fmul x y) = false ∧
    (isInf (fmul x y) = true ↔ (2 ^ 25 - 1) * 2 ^ 253 * f32One ≤ 2 * (f32Units x * f32Units y).natAbs) ∧
    NearestEven (fmul x y) f32One (f32Units x * f32Units y) := by
  have hpos : 0 < f32One := Nat.two_pow_pos 149
  have hprod : f32Units x * f32Units y = signed (f32Sign x != f32Sign y) (f32Mag x * f32Mag y) :=
    signed_mul_signed _ _ _ _
  rw [fmul_finite hx hy, Int.natAbs_mul, natAbs_f32Units, natAbs_f32Units, hprod]
  exact ⟨isNaN_pack_roundMag _ _ _, isInf_pack_roundMag_iff _ hpos _, nearestEven_pack_roundMag _ hpos _⟩

theorem fdiv_rounds {x y : F32} (hx : f32Finite x) (hy : f32Finite y) (h0 : f32Mag y ≠ 0) :
    isNaN (fdiv x y) = false ∧
    (isInf (fdiv x y) = true ↔ (2 ^ 25 - 1) * 2 ^ 253 * f32Mag y ≤ 2 * (f32Mag x * f32One)) ∧
    NearestEven (fdiv x y) (f32Units y) (f32Units x * f32One) := by
  have hpos : 0 < f32Mag y := Nat.pos_of_ne_zero h0
  rw [fdiv_finite hx hy h0]
  refine ⟨isNaN_pack_roundMag _ _ _, isInf_pack_roundMag_iff _ hpos _, ?_⟩
  have hnum : f32Units x * f32One = signed (f32Sign x) (f32Mag x * f32One) := signed_mul_nat _ _ _
  rw [hnum]
  exact (nearestEven_pack_roundMag (f32Sign x != f32Sign y) hpos (f32Mag x * f32One)).signed

/-- Settles O48: each operation is one rounding of its exact result. -/
theorem arithmeticRoundsToNearestEven : Obligations.ArithmeticRoundsToNearestEven := by
  unfold Obligations.ArithmeticRoundsToNearestEven
  intro x y hx hy
  refine ⟨?_, fmul_rounds hx hy, fdiv_rounds hx hy⟩
  obtain ⟨hnan, hinf, hnear⟩ := fadd_rounds hx hy
  refine ⟨hnan, hinf, fun w hw hfin => ?_⟩
  simpa only [mul_one] using hnear w hw hfin

end Sys2Proof.Machine

/-! O51, O8, O59, O21, O49. What steps and commands leave alone: the manufacturer id, and everything but the response port; a
construction on a device that changes nothing of its own; the tables and the state right after reset. -/

namespace Sys2Proof.Machine

/-! ## The manufacturer id (R44, R45) -/

/-- Between transactions a device within the spec changes no bit of the manufacturer id (R111, R298). -/
theorem deviceMask_manufacturerId : deviceMask false 0x0E = 0#8 ∧ deviceMask false 0x0F = 0#8 := by
  decide

/-- The identity speaks of the register file and of the device's being within the spec only. -/
theorem State.IdentityHolds.congr {s t : State} (h : s.IdentityHolds) (hregs : t.regs = s.regs)
    (hstrayed : t.strayed = s.strayed) : t.IdentityHolds := by
  unfold State.IdentityHolds
  rw [hregs, hstrayed]
  exact h

/-- The device's own changes keep the identity. -/
theorem State.IdentityHolds.settle {s : State} (hwf : s.regs.wf = true) (h : s.IdentityHolds) :
    s.settle.IdentityHolds := by
  intro (hin : s.strayed = false)
  obtain ⟨hlsb, hmsb⟩ := deviceMask_manufacturerId
  rw [State.settle_regs, hin, deviceChanges_keep hwf _ _ _ hlsb, deviceChanges_keep hwf _ _ _ hmsb]
  exact h hin

/-- A write to a read-write register keeps the identity: the id registers are read-only (R25). -/
theorem State.IdentityHolds.land {s : State} (h : s.IdentityHolds) {p : Nat} (hp : p ≤ 0x0C) (b : Byte) :
    (s.land p b).IdentityHolds := by
  intro hin
  rw [State.land_strayed, Bool.or_eq_false_iff] at hin
  rw [State.land_regs, Memory.read_write_other _ _ (by omega), Memory.read_write_other _ _ (by omega)]
  exact h hin.1

/-- The canonical form, which gives a write its read-back, together with the identity. -/
def State.IdentityKept (s : State) : Prop := s.regs.wf = true ∧ s.IdentityHolds

theorem State.IdentityKept.congr {s t : State} (h : s.IdentityKept) (hregs : t.regs = s.regs)
    (hstrayed : t.strayed = s.strayed) : t.IdentityKept :=
  ⟨hregs ▸ h.1, h.2.congr hregs hstrayed⟩

/-- Commands, bus transactions and sessions keep the identity of a device within the spec. -/
theorem identityKept_stable : SequenceStable State.IdentityKept where
  answered s c t h e := by
    rw [runCommand_eq] at e
    cases e
    exact h.congr rfl rfl
  settled s h := ⟨State.settle_wf h.1, h.2.settle h.1⟩
  landed s p b h hp := ⟨State.land_wf h.1 (by omega) b, h.2.land hp b⟩
  logged s e h := h.congr rfl rfl
  opened s v w h := h.congr rfl rfl
  closed s h := h.congr rfl rfl

/-- Settles O51: the identity with the canonical form is stable under everything a step is made of. -/
theorem stepKeepsManufacturerId : Obligations.StepKeepsManufacturerId := by
  unfold Obligations.StepKeepsManufacturerId
  intro s t hs hid hstep
  obtain ⟨-, hid'⟩ := identityKept_stable.step (fun _ _ h => h.congr rfl rfl) (fun _ _ h => h.congr rfl rfl)
    ⟨hs.1, hid⟩ hstep
  exact hid'

/-! ## The frame of a command (R20 to R22) -/

/-- Settles O8: the next state is the old one with one response more. -/
theorem commandsLeaveEnvironmentAlone : Obligations.CommandsLeaveEnvironmentAlone := by
  unfold Obligations.CommandsLeaveEnvironmentAlone
  intro i s t h
  obtain rfl := exec_next h
  exact ⟨fun _ => rfl, rfl, rfl, rfl, rfl, rfl, rfl, rfl, rfl, rfl, List.dropLast_concat, List.length_append⟩

/-! ## Reading from a quiet device -/

/-- The transport works and the device changes nothing of its own, at any coming transaction. -/
def State.Quiet (s : State) : Prop := ∀ e ∈ s.env, e.fails = false ∧ e.changes = []

theorem State.Quiet.envEvent {s : State} (h : s.Quiet) : s.envEvent.fails = false ∧ s.envEvent.changes = [] := by
  cases henv : s.env with
  | nil => rw [State.envEvent_nil henv]; exact ⟨rfl, rfl⟩
  | cons e es => rw [State.envEvent_cons henv]; exact h e (by simp [henv])

/-- From `s` the machine comes to `t` by bus reads alone, those on the record being `tr`: registers, session and results are
as they were, and the device stays quiet. -/
structure State.ReadsTo (tr : List BusEvent) (s t : State) : Prop where
  regs : t.regs = s.regs
  session : t.session = s.session
  results : t.results = s.results
  trace : t.trace = s.trace ++ tr
  quiet : s.Quiet → t.Quiet

theorem State.ReadsTo.trans {tr tr' : List BusEvent} {s t u : State} (h : s.ReadsTo tr t) (h' : t.ReadsTo tr' u) :
    s.ReadsTo (tr ++ tr') u where
  regs := h'.regs.trans h.regs
  session := h'.session.trans h.session
  results := h'.results.trans h.results
  trace := by rw [h'.trace, h.trace, List.append_assoc]
  quiet := h'.quiet ∘ h.quiet

/-- A block command leaves no entry on the bus record. -/
theorem State.readsTo_answered (s : State) (i : Instr) (a : Operand) (r : Response) : s.ReadsTo [] (s.answered i a r) where
  regs := rfl
  session := rfl
  results := rfl
  trace := (List.append_nil _).symm
  quiet := id

/-- A quiet device changes nothing before a transaction. -/
theorem State.Quiet.settle_regs {s : State} (h : s.Quiet) : s.settle.regs = s.regs := by
  simp [h.envEvent.2]

/-- One bus read of a quiet device. -/
theorem State.Quiet.readsTo_settle {s : State} (h : s.Quiet) (e : BusEvent) : s.ReadsTo [e] (s.settle.logBus e) where
  regs := h.settle_regs
  session := rfl
  results := rfl
  trace := rfl
  quiet := fun h e' he' => h e' (List.mem_of_mem_tail he')

/-- A checking command inside a sequence: the sequence goes on where the check holds and ends with the fault's status where
it does not (R240). -/
theorem ask_check {i : Instr} (hi : i.wellFormed = true) {a : Operand} {p : Prop} [Decidable p] {q : Result} {f : FaultKind}
    (hreply : ∀ thr, replyOf thr a i = if p then .ok q else .error f) (s : State) :
    ∃ t, s.ReadsTo [] t ∧ (p → ask i a s = .value q t) ∧ (¬ p → ask i a s = .ended (statusCode f) t) := by
  rw [ask_eq (decode_encode hi), hreply]
  by_cases hp : p
  · rw [if_pos hp]
    exact ⟨_, s.readsTo_answered i a _, fun _ => rfl, fun hn => absurd hp hn⟩
  · rw [if_neg hp]
    exact ⟨_, s.readsTo_answered i a _, fun h => absurd h hp, fun _ => rfl⟩

/-- `MemRead` on a quiet device, where the block frames the read: the bytes the registers hold (R102, R240). -/
theorem State.Quiet.memRead {s : State} (h : s.Quiet) (w : BitVec 7) {reg : Reg} {len : ReadLen}
    (hr : readAllowed tables len reg = true) :
    ∃ t, memRead w reg len s = .value (s.regs.readBytes (addrByte tables reg).toNat (lenBytes len)) t ∧
      s.ReadsTo [.read w [addrByte tables reg] (lenBytes len)
        (some (s.regs.readBytes (addrByte tables reg).toNat (lenBytes len)))] t := by
  have hask := s.readsTo_answered (.rfrm len reg) 0#64
    { status := 0#4, q := packBytes [addrByte tables reg, BitVec.ofNat 8 (lenBytes len)] }
  have hquiet := hask.quiet h
  rw [memRead_eq, if_pos hr, busWriteRead_frame w (by cases len <;> simp [lenBytes]) (addrByte_le_of_readAllowed hr),
    hquiet.envEvent.1, hquiet.settle_regs, hask.regs]
  exact ⟨_, rfl, hask.trans (hquiet.readsTo_settle _)⟩

/-! ## The identity checks of a construction (R241, R242) -/

/-- The registers hold the manufacturer id (R44, R45). -/
abbrev Memory.HoldsManufacturerId (m : Memory) : Prop := m.read 0x0E = 0x49#8 ∧ m.read 0x0F = 0x54#8

/-- Bits 1:0 of the device id are the number of the variant's range class (R88, R192). -/
abbrev Memory.FitsVariant (m : Memory) (v : Variant) : Prop :=
  (m.read 0x0D).toNat % 4 = 1 + (variantCode v).toNat % 2

/-- The composite of two bytes is the manufacturer id exactly where they are the bytes of R44 and R45. -/
theorem le16_eq_manufacturerId_iff (b0 b1 : Byte) : le16 b0 b1 = manufacturerId ↔ b0 = 0x49#8 ∧ b1 = 0x54#8 := by
  constructor
  · intro h
    have hlo := congrArg (fun x : Half => x.extractLsb' 0 8) h
    have hhi := congrArg (fun x : Half => x.extractLsb' 8 8) h
    simp only [le16, BitVec.extractLsb'_append_eq_right, BitVec.extractLsb'_append_eq_left] at hlo hhi
    exact ⟨hlo, hhi⟩
  · rintro ⟨rfl, rfl⟩
    rfl

/-- MIDCHK on two wire bytes (R191). -/
theorem midchkReply_operandOf (b0 b1 : Byte) :
    midchkReply (operandOf [b0, b1]) =
      if b0 = 0x49#8 ∧ b1 = 0x54#8 then .ok (zext128 manufacturerId) else .error .wrongDevice := by
  have h0 : byteAt (operandOf [b0, b1]) 0 = b0 := byteAt_operandOf _ _ (by omega)
  have h1 : byteAt (operandOf [b0, b1]) 1 = b1 := byteAt_operandOf _ _ (by omega)
  simp only [midchkReply, h0, h1, ← le16_eq_manufacturerId_iff]
  split
  · rename_i heq; rw [heq]
  · rfl

/-- VER is the number of the variant's class exactly where bits 1:0 of the device id say so (R88, R192). -/
theorem ver_eq_classDeviceId_iff (v : Variant) (b : Byte) :
    (getSpan (fieldSpan .ver) b).extractLsb' 0 2 = classDeviceId (variantClass v) ↔
      b.toNat % 4 = 1 + (variantCode v).toNat % 2 := by
  have hver : ((getSpan (fieldSpan .ver) b).extractLsb' 0 2).toNat = b.toNat % 4 := by
    rw [BitVec.extractLsb'_toNat, getSpan_toNat (fieldSpan_ok .ver)]
    simp [fieldSpan, Span.width]
  have hid : (classDeviceId (variantClass v)).toNat = 1 + (variantCode v).toNat % 2 := by
    cases v <;> rfl
  rw [← BitVec.toNat_inj, hver, hid]

/-- DIDCHK on one wire byte (R192). -/
theorem didchkReply_operandOf (v : Variant) (b : Byte) :
    didchkReply tables v (operandOf [b]) =
      if b.toNat % 4 = 1 + (variantCode v).toNat % 2 then .ok (zext128 (classDeviceId (variantClass v)))
      else .error .wrongDevice := by
  have h0 : byteAt (operandOf [b]) 0 = b := byteAt_operandOf _ _ (by omega)
  simp only [didchkReply, h0, tables, ← ver_eq_classDeviceId_iff]
  split
  · rename_i heq; rw [heq]
  · rfl

/-- The manufacturer id, read from a quiet device: the sequence goes on where it is 0x5449 and ends with WrongDevice where it
is not (R191, R246). -/
theorem State.Quiet.readManufacturer {s : State} (h : s.Quiet) (w : BitVec 7) :
    ∃ t, s.ReadsTo [.read w [0x0E#8] 2 (some [s.regs.read 0x0E, s.regs.read 0x0F])] t ∧
      (s.regs.HoldsManufacturerId → readManufacturer w s = .value manufacturerId t) ∧
      (¬ s.regs.HoldsManufacturerId → readManufacturer w s = .ended 2#4 t) := by
  obtain ⟨u, hread, hu⟩ := h.memRead w (reg := .manufacturerIdLsb) (len := .two) rfl
  obtain ⟨t, ht, hok, hbad⟩ :=
    ask_check (i := .midchk) rfl (fun _ => midchkReply_operandOf (s.regs.read 0x0E) (s.regs.read 0x0F)) u
  refine ⟨t, hu.trans ht, fun hid => ?_, fun hid => ?_⟩ <;> rw [Machine.readManufacturer, hread, HostRun.andThen_value]
  · exact congrArg (HostRun.andThen · _) (hok hid)
  · exact congrArg (HostRun.andThen · _) (hbad hid)

/-- The device id, read from a quiet device: the sequence goes on where it fits the variant and ends with WrongDevice where
it does not (R192, R245). -/
theorem State.Quiet.readDeviceId {s : State} (h : s.Quiet) (w : BitVec 7) (v : Variant) :
    ∃ t, s.ReadsTo [.read w [0x0D#8] 1 (some [s.regs.read 0x0D])] t ∧
      (s.regs.FitsVariant v → readDeviceId w v s = .value ((classDeviceId (variantClass v)).setWidth 8) t) ∧
      (¬ s.regs.FitsVariant v → readDeviceId w v s = .ended 2#4 t) := by
  obtain ⟨u, hread, hu⟩ := h.memRead w (reg := .deviceId) (len := .one) rfl
  obtain ⟨t, ht, hok, hbad⟩ := ask_check (i := .didchk v) rfl (fun _ => didchkReply_operandOf v (s.regs.read 0x0D)) u
  have hver : (zext128 (classDeviceId (variantClass v))).extractLsb' 0 2 = classDeviceId (variantClass v) := by
    cases v <;> rfl
  refine ⟨t, hu.trans ht, fun hid => ?_, fun hid => ?_⟩ <;> rw [Machine.readDeviceId, hread, HostRun.andThen_value]
  · rw [← hver]
    exact congrArg (HostRun.andThen · _) (hok hid)
  · exact congrArg (HostRun.andThen · _) (hbad hid)

/-- A construction on a quiet device with another manufacturer id ends there (R242). -/
theorem State.Quiet.constructAt_otherManufacturer {s : State} (h : s.Quiet) (w : BitVec 7) (v : Variant)
    (hid : ¬ s.regs.HoldsManufacturerId) :
    ∃ t, constructAt w v s = .ended 2#4 t ∧
      s.closeSession.ReadsTo [.read w [0x0E#8] 2 (some [s.regs.read 0x0E, s.regs.read 0x0F])] t := by
  obtain ⟨t, ht, -, hbad⟩ := State.Quiet.readManufacturer (s := s.closeSession) h w
  exact ⟨t, by rw [constructAt, hbad hid, HostRun.andThen_ended], ht⟩

/-- A construction on a quiet device with the manufacturer id opens a session where the device id fits the variant (R242). -/
theorem State.Quiet.constructAt_manufacturer {s : State} (h : s.Quiet) (w : BitVec 7) (v : Variant)
    (hid : s.regs.HoldsManufacturerId) :
    ∃ t, s.closeSession.ReadsTo
        [.read w [0x0E#8] 2 (some [0x49#8, 0x54#8]), .read w [0x0D#8] 1 (some [s.regs.read 0x0D])] t ∧
      (s.regs.FitsVariant v → constructAt w v s = .value .unit (t.openSession v w)) ∧
      (¬ s.regs.FitsVariant v → constructAt w v s = .ended 2#4 t) := by
  obtain ⟨u, hu, hok, -⟩ := State.Quiet.readManufacturer (s := s.closeSession) h w
  obtain ⟨t, ht, hfit, hmisfit⟩ := (hu.quiet h).readDeviceId w v
  rw [State.closeSession_regs, hid.1, hid.2] at hu
  rw [hu.regs] at ht hfit hmisfit
  refine ⟨t, hu.trans ht, fun hv => ?_, fun hv => ?_⟩ <;> rw [constructAt, hok hid, HostRun.andThen_value]
  · rw [hfit hv, HostRun.andThen_value]
  · rw [hmisfit hv, HostRun.andThen_ended]

/-- A construction at the default address is one at the address VADDR answers (R185, R241). -/
theorem construct_eq_constructAt (v : Variant) (s : State) :
    construct v s =
      constructAt (variantAddr v) v
        (s.closeSession.answered (.vaddr v) 0#64 { status := 0#4, q := zext128 (variantAddr v) }) := by
  have haddr : (zext128 (variantAddr v)).extractLsb' 0 7 = variantAddr v := by
    cases v <;> rfl
  rw [construct, ask_eq (decode_encode (i := .vaddr v) rfl)]
  simp only [replyOf, vaddrReply, HostRun.andThen_value, haddr, State.answered]

/-- The default address of a variant, from R88's table of the family letters. -/
theorem variantAddr_eq (v : Variant) :
    variantAddr v = BitVec.ofNat 7 ([0x35, 0x22, 0x78, 0x44].getD ((variantCode v).toNat / 2) 0) := by
  cases v <;> rfl

/-- A step of either construction is `constructAt` on a state that agrees with the old one but for the session. -/
theorem step_construction {s : State} {w : BitVec 7} {v : Variant} {rest : List HostAction}
    (h : s.inputs = .call (.constructWithAddress w v) :: rest ∨
      s.inputs = .call (.construct v) :: rest ∧
        w = BitVec.ofNat 7 ([0x35, 0x22, 0x78, 0x44].getD ((variantCode v).toNat / 2) 0)) :
    ∃ u, step s = finish (constructAt w v u) ∧ s.closeSession.ReadsTo [] u.closeSession := by
  rcases h with hin | ⟨hin, hw⟩
  · exact ⟨_, step_call hin, rfl, rfl, rfl, (List.append_nil _).symm, id⟩
  · rw [← variantAddr_eq] at hw
    subst hw
    exact ⟨_, (step_call hin).trans (congrArg finish (construct_eq_constructAt v _)), rfl, rfl, rfl,
      (List.append_nil _).symm, id⟩

/-- Settles O59: the two identity checks, one after the other. -/
theorem constructionChecksIdentity : Obligations.ConstructionChecksIdentity := by
  unfold Obligations.ConstructionChecksIdentity
  intro s w v rest hin hquiet
  obtain ⟨u, hstep, hu⟩ := step_construction hin
  have hq : u.Quiet := hu.quiet hquiet
  have hregs : u.regs = s.regs := hu.regs
  rw [hstep, ← hregs]
  refine ⟨fun hid => ?_, fun hid => ?_⟩
  · obtain ⟨t, hend, ht⟩ := hq.constructAt_otherManufacturer w v hid
    have hst := hu.trans ht
    rw [hend]
    exact ⟨_, rfl, hst.session, congrArg (· ++ [_]) hst.results, hst.trace⟩
  · obtain ⟨t, ht, hfit, hmisfit⟩ := hq.constructAt_manufacturer w v hid
    have hst := hu.trans ht
    by_cases hv : u.regs.FitsVariant v
    · rw [hfit hv]
      exact ⟨_, rfl, hst.trace, fun _ => ⟨rfl, congrArg (· ++ [_]) hst.results⟩, fun hn => absurd hv hn⟩
    · rw [hmisfit hv]
      exact ⟨_, rfl, hst.trace, fun h => absurd h hv, fun _ => ⟨hst.session, congrArg (· ++ [_]) hst.results⟩⟩

/-! ## The tables (R24, R30 to R58, R60 to R86) -/

/-- The rows of R86 are the codec's field tables. -/
theorem fieldTable_agrees : ∀ row ∈ fieldTable,
    (fieldCode row.field).toNat = row.fid ∧ (regCode (fieldReg row.field)).toNat = row.addr ∧
      (fieldSpan row.field).hi = row.hi ∧ (fieldSpan row.field).lo = row.lo ∧ fieldClass row.field = row.cls := by
  decide

/-- R86 has a row for every field. -/
theorem mem_fieldTable (f : Field) : ∃ row ∈ fieldTable, row.field = f := by
  cases f <;> decide

/-- The rows of R24 with R30 to R58 are the codec's register tables. -/
theorem registerTable_agrees : ∀ row ∈ registerTable,
    (regCode row.reg).toNat = row.addr ∧
      (regLanes row.reg).map (fun l => (l.span.hi, l.span.lo)) = row.lanes ∧
      (regLanes row.reg).filterMap Lane.field? = (fieldTable.filter fun f => f.addr == row.addr).map FieldRow.field := by
  decide

/-- R24 has a row for every register. -/
theorem mem_registerTable (reg : Reg) : ∃ row ∈ registerTable, row.reg = reg := by
  cases reg <;> decide

/-- The reserved codes of a field are those of R86: of seven fields some code, of the others none. -/
theorem fieldReserved_contains_iff (f : Field) (code : Nat) (h : code < fieldSize f) :
    (fieldReserved f).contains code = true ↔ malformedCode f code ∨ reservedMember f code := by
  cases f
  case i2cRd | convAvg | magTempco | thrHyst | sleeptime | magChEn | intMode => revert code; decide
  all_goals simp [fieldReserved]

/-- Settles O21, table by table. -/
theorem codecTablesMatchTheSpec : Obligations.CodecTablesMatchTheSpec := by
  unfold Obligations.CodecTablesMatchTheSpec
  exact ⟨fieldTable_agrees, mem_fieldTable, registerTable_agrees, mem_registerTable, fieldReserved_contains_iff,
    by decide, by decide, by decide, by decide, by decide, by decide, by decide⟩

/-! ## The state right after reset (R290 to R292) -/

/-- Right after reset a register reads as its declared default where the spec has one (R92). -/
theorem reset_regs_read {addr : Nat} {reg : Reg} (hreg : regAt addr = some reg)
    (h : ¬ (addr = 0x0C ∨ addr = 0x0D ∨ 0x10 ≤ addr)) : State.reset.regs.read addr = regDefault reg := by
  change unlisted addr = _
  simp [unlisted, hreg, h]

/-- The defaults of the id registers are the manufacturer id (R44, R45). -/
theorem reset_holdsManufacturerId : State.reset.regs.HoldsManufacturerId :=
  ⟨reset_regs_read (reg := .manufacturerIdLsb) rfl (by decide),
    reset_regs_read (reg := .manufacturerIdMsb) rfl (by decide)⟩

/-- Nothing is listed and nothing has been answered. -/
theorem reset_sound : State.reset.Sound := ⟨rfl, nofun⟩

/-- Settles O49. -/
theorem resetIsSound : Obligations.ResetIsSound := by
  unfold Obligations.ResetIsSound
  refine ⟨reset_sound, rfl, fun _ => reset_holdsManufacturerId, rfl, rfl, rfl, rfl, fun addr haddr => ?_⟩
  simp only [List.mem_cons, List.not_mem_nil, or_false] at haddr
  rcases haddr with rfl | rfl | rfl | rfl | rfl
  · exact reset_regs_read (reg := .deviceConfig1) rfl (by decide)
  · exact reset_regs_read (reg := .deviceConfig2) rfl (by decide)
  · exact reset_regs_read (reg := .sensorConfig1) rfl (by decide)
  · exact reset_regs_read (reg := .sensorConfig2) rfl (by decide)
  · exact reset_regs_read (reg := .intConfig1) rfl (by decide)

end Sys2Proof.Machine

/-! O25, O60. The register file over the bus: which reads the block frames (R108, R175), one `MemWrite` and one `MemRead`
on a transport that works, and the bits a written register keeps (R113, R298). -/

namespace Sys2Proof.Machine

/-! ## Read frames (R108, R175) -/

/-- A register's address on the wire is its code (R24, R101). -/
@[simp] theorem addrByte_toNat (reg : Reg) : (addrByte tables reg).toNat = (regCode reg).toNat :=
  BitVec.toNat_setWidth_of_le (by omega)

/-- Two packed bytes as a number (R105). -/
theorem packBytes_pair (b0 b1 : Byte) : packBytes [b0, b1] = BitVec.ofNat 128 (b0.toNat + 256 * b1.toNat) := by
  have h0 := b0.isLt
  have h1 := b1.isLt
  have hdisjoint : b0.toNat ||| b1.toNat * 2 ^ 8 = b0.toNat + b1.toNat * 2 ^ 8 := by
    rw [Nat.or_comm, Nat.mul_comm, ← Nat.two_pow_add_eq_or_of_lt h0, Nat.add_comm]
  apply BitVec.eq_of_toNat_eq
  simp only [packBytes, BitVec.zero_shiftLeft, BitVec.or_zero, BitVec.toNat_or, BitVec.toNat_shiftLeft,
    BitVec.toNat_setWidth, BitVec.toNat_ofNat, Nat.shiftLeft_eq]
  rw [Nat.mod_eq_of_lt (show b0.toNat < 2 ^ 128 by omega), Nat.mod_eq_of_lt (show b1.toNat < 2 ^ 128 by omega),
    Nat.mod_eq_of_lt (show b1.toNat * 2 ^ 8 < 2 ^ 128 by omega), hdisjoint]
  omega

theorem encode_rfrm (len : ReadLen) (reg : Reg) :
    encode (.rfrm len reg) = 0x0D#8 ++ 0#1 ++ lenCode len ++ regCode reg := by
  simp only [encode, opOf, selOf, selOfWith, BitVec.append_assoc, BitVec.cast_eq]

/-- RFRM where the map allows the read: pointer byte and number of bytes (R175). -/
theorem exec_rfrm_allowed {len : ReadLen} {reg : Reg} (h : readAllowed tables len reg = true) (s : State) :
    exec (.rfrm len reg) s =
      .next (s.push { status := 0#4, q := BitVec.ofNat 128 ((regCode reg).toNat + 256 * lenBytes len) }) := by
  have hlen : (BitVec.ofNat 8 (lenBytes len)).toNat = lenBytes len := by cases len <;> rfl
  rw [exec_eq_next, replyOf, rfrmReply, if_pos h, packBytes_pair, addrByte_toNat, hlen, respond_ok]

/-- RFRM elsewhere: BadOperand (R175). -/
theorem exec_rfrm_refused {len : ReadLen} {reg : Reg} (h : readAllowed tables len reg = false) (s : State) :
    exec (.rfrm len reg) s = .next (s.push { status := 10#4, q := 0#128 }) := by
  rw [exec_eq_next, replyOf, rfrmReply, if_neg (by simp [h])]
  rfl

theorem readAllowed_two (reg : Reg) : readAllowed tables .two reg = decide ((regCode reg).toNat ≤ 0x1B) := rfl

/-- A burst starts at the temperature MSB register only (R108). -/
theorem readAllowed_eight (reg : Reg) : readAllowed tables .eight reg = decide ((regCode reg).toNat = 0x10) := by
  simp only [readAllowed, tables, Bool.beq_eq_decide_eq, ← BitVec.toNat_inj, BitVec.toNat_ofNat]

/-- Settles O25: by the read length, the map's limit on it. -/
theorem rfrmResult : Obligations.RfrmResult := by
  unfold Obligations.RfrmResult
  intro reg s
  refine ⟨fun len => encode_rfrm len reg, exec_rfrm_allowed rfl s, fun h => ?_, fun h => ?_, fun h => ?_, fun h => ?_⟩
  · exact exec_rfrm_allowed (by simp [readAllowed_two, h]) s
  · exact exec_rfrm_refused (by simp [readAllowed_two, h]) s
  · rw [← h]
    exact exec_rfrm_allowed (by simp [readAllowed_eight, h]) s
  · exact exec_rfrm_refused (by simp [readAllowed_eight, h]) s

/-! ## One accessor on a transport that works (R240) -/

/-- What `MemWrite` of a byte leaves behind where its frame is carried. -/
def State.written (s : State) (w : BitVec 7) (reg : Reg) (v : Byte) : State :=
  let answered := s.answered (.wfrm reg) (operandOf [v]) { status := 0#4, q := packBytes [addrByte tables reg, v] }
  (answered.settle.land (addrByte tables reg).toNat v).logBus (.wrote w [addrByte tables reg, v] true)

@[simp] theorem State.written_regs (s : State) (w : BitVec 7) (reg : Reg) (v : Byte) :
    (s.written w reg v).regs = s.settle.regs.write (regCode reg).toNat v := by
  rw [← addrByte_toNat]; rfl

@[simp] theorem State.written_strayed (s : State) (w : BitVec 7) (reg : Reg) (v : Byte) :
    (s.written w reg v).strayed = (s.strayed || leavesSpec (regCode reg).toNat v) := by
  rw [← addrByte_toNat]; rfl

/-- What `MemRead` leaves behind where the transport carries it. -/
def State.readOut (s : State) (w : BitVec 7) (reg : Reg) (len : ReadLen) : State :=
  (s.answered (.rfrm len reg) 0#64
      { status := 0#4, q := packBytes [addrByte tables reg, BitVec.ofNat 8 (lenBytes len)] }).settle.logBus
    (.read w [addrByte tables reg] (lenBytes len)
      (some (s.settle.regs.readBytes (addrByte tables reg).toNat (lenBytes len))))

theorem isReadOnly_tables (reg : Reg) : isReadOnly tables reg = decide (0x0D ≤ (regCode reg).toNat) := rfl

/-- `MemWrite` of a read-write register where the transport carries the frame: the byte lands (R240). -/
theorem memWrite_carried (w : BitVec 7) {reg : Reg} (v : Byte) {s : State} (hrw : (regCode reg).toNat < 0x0D)
    (hbus : s.envEvent.fails = false) : memWrite w reg v s = .value () (s.written w reg v) := by
  have hro : isReadOnly tables reg = false := by simp [isReadOnly_tables, hrw]
  rw [memWrite_eq, if_neg (by simp [hro]), busWrite_frame w v (addrByte_le_of_writable hro)]
  exact if_neg (Bool.eq_false_iff.mp hbus)

/-- `MemRead` where the block frames the read and the transport carries it: the registers as the device has them then
(R240). -/
theorem memRead_carried (w : BitVec 7) {reg : Reg} {len : ReadLen} {s : State} (hr : readAllowed tables len reg = true)
    (hbus : s.envEvent.fails = false) :
    memRead w reg len s =
      .value (s.settle.regs.readBytes (addrByte tables reg).toNat (lenBytes len)) (s.readOut w reg len) := by
  rw [memRead_eq, if_pos hr, busWriteRead_frame w (by cases len <;> simp [lenBytes]) (addrByte_le_of_readAllowed hr)]
  exact if_neg (Bool.eq_false_iff.mp hbus)

/-- On a transport that works the coming transaction does not fail (R240). -/
theorem State.envEvent_not_fails {s : State} (h : ∀ e ∈ s.env, e.fails = false) : s.envEvent.fails = false := by
  cases henv : s.env with
  | nil => rw [State.envEvent_nil henv]
  | cons e es => rw [State.envEvent_cons henv]; exact h e (by simp [henv])

/-- The state that waits for the actions after the one taken (R121). -/
def State.waiting (s : State) (rest : List HostAction) : State := { s with inputs := rest }

/-- A step of a host sequence with a session runs the sequence on that session (R292). -/
theorem step_call_of_session {s : State} {x : Session} {h : HostCall} {rest : List HostAction}
    {k : State → Session → HostRun HostValue} (hcall : ∀ u, runCall h u = withSession u (k u))
    (hin : s.inputs = .call h :: rest) (hx : s.session = some x) : step s = finish (k (s.waiting rest) x) := by
  have hx' : (s.waiting rest).session = some x := hx
  rw [step_call hin, ← State.waiting, hcall, withSession, hx']

/-- A step of `MemWrite` on a transport that works. -/
theorem step_memWrite {s : State} {x : Session} {reg : Reg} {v : Byte} {rest : List HostAction}
    (hin : s.inputs = .call (.memWrite reg v) :: rest) (hx : s.session = some x) (hrw : (regCode reg).toNat < 0x0D)
    (hbus : s.envEvent.fails = false) :
    step s = .next (((s.waiting rest).written x.addr7 reg v).pushResult (.returned .unit)) := by
  rw [step_call_of_session (fun _ => rfl) hin hx, memWrite_carried (s := s.waiting rest) _ _ hrw hbus]
  rfl

/-- A step of `MemRead` of one byte on a transport that works. -/
theorem step_memRead_one {s : State} {x : Session} {reg : Reg} {rest : List HostAction}
    (hin : s.inputs = .call (.memRead reg .one) :: rest) (hx : s.session = some x) (hbus : s.envEvent.fails = false) :
    step s = .next (((s.waiting rest).readOut x.addr7 reg .one).pushResult
      (.returned (.bytes [s.settle.regs.read (regCode reg).toNat]))) := by
  rw [step_call_of_session (fun _ => rfl) hin hx, memRead_carried (s := s.waiting rest) _ rfl hbus, addrByte_toNat]
  rfl

/-! ## The bits a register keeps (R298) -/

/-- The register at a register's own address (R24). -/
theorem regAt_regCode (reg : Reg) : regAt (regCode reg).toNat = some reg := by
  rw [regAt, if_pos (regCode reg).isLt, BitVec.ofNat_toNat, BitVec.setWidth_eq, regOfCode_regCode]

/-- Within the spec the device changes only the unassigned bits of a read-write register (R298). -/
theorem deviceMask_of_readWrite {reg : Reg} (hrw : (regCode reg).toNat < 0x0D) :
    deviceMask false (regCode reg).toNat = unassignedMask tables reg := by
  simp [deviceMask, regAt_regCode, show ¬ 0x10 ≤ (regCode reg).toNat by omega]

/-- A register without sub-fields has no unassigned bit (log entry 19). -/
theorem unassignedMask_of_whole {reg : Reg} (h : regLanes reg = [.bits 7 0]) : unassignedMask tables reg = 0#8 := by
  simp [unassignedMask, tables, h]

/-- No bit of a field is unassigned (R28). -/
theorem unassignedMask_of_field (f : Field) :
    ∀ k ≤ (fieldSpan f).hi, (fieldSpan f).lo ≤ k → (unassignedMask tables (fieldReg f)).getLsbD k = false := by
  cases f <;> decide

/-- A bit the spec assigns in a read-write register is out of the device's reach (R298). -/
theorem deviceMask_assigned {reg : Reg} (hrw : (regCode reg).toNat < 0x0D) {k : Nat}
    (hk : regLanes reg = [.bits 7 0] ∨ ∃ f, fieldReg f = reg ∧ (fieldSpan f).lo ≤ k ∧ k ≤ (fieldSpan f).hi) :
    (deviceMask false (regCode reg).toNat).getLsbD k = false := by
  rw [deviceMask_of_readWrite hrw]
  rcases hk with hwhole | ⟨f, rfl, hlo, hhi⟩
  · simp [unassignedMask_of_whole hwhole]
  · exact unassignedMask_of_field f k hhi hlo

/-- After a landed write that keeps the device within the spec, whatever the device does until the next transaction, a bit out
of its reach is the one written (R298). -/
theorem State.written_settle_bit {s : State} (hwf : s.regs.wf = true) (hin : s.strayed = false) (w : BitVec 7) {reg : Reg}
    {v : Byte} (hstays : leavesSpec (regCode reg).toNat v = false) {k : Nat}
    (hk : (deviceMask false (regCode reg).toNat).getLsbD k = false) :
    ((s.written w reg v).settle.regs.read (regCode reg).toNat).getLsbD k = v.getLsbD k := by
  have hwf' : (s.written w reg v).regs.wf = true := by
    rw [State.written_regs]
    exact Memory.wf_write (State.settle_wf hwf) (regCode_le reg) v
  have hin' : (s.written w reg v).strayed = false := by rw [State.written_strayed, hin, hstays]; rfl
  rw [State.settle_regs, hin', deviceChanges_keep_bit hwf' _ _ _ _ hk, State.written_regs,
    Memory.read_write_same (State.settle_wf hwf)]

/-- Settles O60: the write lands, and the read that follows finds every assigned bit as it was written. -/
theorem writtenByteReadsBack : Obligations.WrittenByteReadsBack := by
  unfold Obligations.WrittenByteReadsBack
  intro s x reg v rest hx hwf hin hrw hstays hworks hinputs
  have hlater : ∀ e ∈ s.env.tail, e.fails = false := fun e he => hworks e (List.mem_of_mem_tail he)
  have hwrite := step_memWrite hinputs hx hrw (State.envEvent_not_fails hworks)
  have hread := step_memRead_one (reg := reg) (rest := rest)
    (s := ((s.waiting _).written x.addr7 reg v).pushResult (.returned .unit)) rfl hx (State.envEvent_not_fails hlater)
  exact ⟨_, _, (runs_succ_of_step hwrite).trans (runs_succ_of_step hread), List.append_assoc ..,
    fun _ _ hk => State.written_settle_bit hwf hin x.addr7 hstays (deviceMask_assigned hrw hk)⟩

end Sys2Proof.Machine

/-! O52. A host sequence comes to an end: block commands and accessors never stop the machine, and every sequence is made of
these. -/

namespace Sys2Proof.Machine

/-! ## Sequences of parts that come to an end -/

theorem HostRun.noStop_value {α : Type} (v : α) (s : State) : (HostRun.value v s).NoStop := trivial

theorem HostRun.noStop_ended {α : Type} (st : BitVec 4) (s : State) : (HostRun.ended st s : HostRun α).NoStop := trivial

/-- Two parts in a row, where the second comes to an end whatever the first gave. -/
theorem HostRun.NoStop.bind {α β : Type} {x : HostRun α} {k : α → State → HostRun β} (hx : x.NoStop)
    (hk : ∀ v s, (k v s).NoStop) : (x.andThen k).NoStop :=
  hx.andThen fun v s _ => hk v s

/-- A sequence that hands on a value made from the one its part gave. -/
theorem HostRun.NoStop.map {α β : Type} {x : HostRun α} {f : α → β} (hx : x.NoStop) :
    (x.andThen fun v s => .value (f v) s).NoStop :=
  hx.bind fun v s => noStop_value (f v) s

/-- The machine makes a step wherever the sequence comes to an end. -/
theorem finish_of_noStop {x : HostRun HostValue} (h : x.NoStop) : ∃ t, finish x = .next t := by
  cases x with
  | value v s => exact ⟨_, rfl⟩
  | ended st s => exact ⟨_, rfl⟩
  | fault f => exact h.elim
  | refused r => exact h.elim

/-! ## The parts of the host sequences -/

theorem readPair_noStop (w : BitVec 7) (reg : Reg) (s : State) : (readPair w reg s).NoStop :=
  (memRead_noStop ..).bind fun _ _ => (ask_noStop ..).map

theorem readResult_noStop (w : BitVec 7) (reg : Reg) (s : State) : (readResult w reg s).NoStop :=
  (memRead_noStop ..).bind fun _ _ => (ask_noStop ..).map

theorem selectRange_noStop (axis : Axis) (sc : Half) (s : State) : (selectRange axis sc s).NoStop :=
  (ask_noStop ..).map

theorem writeRegister_noStop (w : BitVec 7) (reg : Reg) (lanes : Operand) (s : State) :
    (writeRegister w reg lanes s).NoStop :=
  (ask_noStop ..).bind fun _ _ => memWrite_noStop ..

theorem readRegister_noStop (w : BitVec 7) (reg : Reg) (s : State) : (readRegister w reg s).NoStop :=
  (memRead_noStop ..).bind fun _ _ => ask_noStop ..

/-- A register with none above ends the sequence with BadOperand (log entry 20). -/
theorem readDualRegister_noStop (w : BitVec 7) (reg : Reg) (s : State) : (readDualRegister w reg s).NoStop :=
  (readPair_noStop ..).bind fun h _ => (ask_noStop ..).bind fun q0 s => by
    cases nextReg tables reg with
    | none => exact HostRun.noStop_ended ..
    | some reg' => exact (ask_noStop ..).map

/-- The FSETs of a builder, one after the other (R150). -/
theorem applySets_noStop (sets : List (Field × Byte)) (raw : Byte) (s : State) : (applySets sets raw s).NoStop := by
  induction sets generalizing raw s with
  | nil => exact HostRun.noStop_value ..
  | cons fc rest ih => exact (ask_noStop ..).bind fun _ _ => ih ..

theorem writeBuilt_noStop (w : BitVec 7) (reg : Reg) (sets : List (Field × Byte)) (s : State) :
    (writeBuilt w reg sets s).NoStop :=
  ((ask_noStop ..).bind fun _ _ => applySets_noStop ..).bind fun _ _ => memWrite_noStop ..

/-- The registers of a group `set`, one after the other (R258). -/
theorem setRegs_noStop (w : BitVec 7) (rs : List Reg) (codes : List Byte) (s : State) : (setRegs w rs codes s).NoStop := by
  induction rs generalizing codes s with
  | nil => exact HostRun.noStop_value ..
  | cons r rs ih => exact (writeBuilt_noStop ..).bind fun _ _ => ih ..

/-- The FGETs of a group `get`, one after the other (R259). -/
theorem getCodes_noStop (fs : List (Field × Byte)) (s : State) : (getCodes fs s).NoStop := by
  induction fs generalizing s with
  | nil => exact HostRun.noStop_value ..
  | cons fr rest ih => exact (ask_noStop ..).bind fun _ _ => (ih _).map

theorem readManufacturer_noStop (w : BitVec 7) (s : State) : (readManufacturer w s).NoStop :=
  (memRead_noStop ..).bind fun _ _ => (ask_noStop ..).map

theorem readDeviceId_noStop (w : BitVec 7) (v : Variant) (s : State) : (readDeviceId w v s).NoStop :=
  (memRead_noStop ..).bind fun _ _ => (ask_noStop ..).map

theorem constructAt_noStop (w : BitVec 7) (v : Variant) (s : State) : (constructAt w v s).NoStop :=
  (readManufacturer_noStop ..).bind fun _ _ => (readDeviceId_noStop ..).bind fun _ _ => HostRun.noStop_value ..

theorem construct_noStop (v : Variant) (s : State) : (construct v s).NoStop :=
  (ask_noStop ..).bind fun _ _ => constructAt_noStop ..

theorem isConnected_noStop (w : BitVec 7) (s : State) : (isConnected w s).NoStop := by
  have hid := readManufacturer_noStop w s
  unfold isConnected
  cases hr : readManufacturer w s with
  | value v t => exact HostRun.noStop_value ..
  | ended st t => exact HostRun.noStop_value ..
  | fault f => rw [hr] at hid; exact hid
  | refused r => rw [hr] at hid; exact hid

theorem initDefault_noStop (w : BitVec 7) (s : State) : (initDefault w s).NoStop :=
  (writeBuilt_noStop ..).bind fun _ _ => (writeBuilt_noStop ..).bind fun _ _ => (writeBuilt_noStop ..).bind fun _ _ =>
    (writeBuilt_noStop ..).map

/-- A typed configuration is written register by register (R258, log entry 15). -/
theorem setGroup_noStop {c : GroupConfig} (hc : c.codes.length = (groupFields c.group).length) (x : Session) (s : State) :
    (setGroup x c s).NoStop := by
  rw [setGroup, if_pos hc]
  exact (setRegs_noStop ..).map

theorem getPair_noStop (x : Session) (g : Group) (lo hi : Reg) (s : State) : (getPair x g lo hi s).NoStop :=
  (readPair_noStop ..).bind fun _ _ => (ask_noStop ..).bind fun _ _ => (getCodes_noStop ..).map

theorem getSingle_noStop (x : Session) (g : Group) (reg : Reg) (s : State) : (getSingle x g reg s).NoStop :=
  (memRead_noStop ..).bind fun _ _ => (ask_noStop ..).bind fun _ _ => (getCodes_noStop ..).map

theorem getGroup_noStop (x : Session) (g : Group) (s : State) : (getGroup x g s).NoStop := by
  cases g with
  | device => exact getPair_noStop ..
  | sensor => exact getPair_noStop ..
  | interrupt => exact getSingle_noStop ..

/-! ## The host sequences -/

/-- With a session a sequence runs (R292). -/
theorem withSession_noStop {s : State} {k : Session → HostRun HostValue} (hs : s.session ≠ none)
    (hk : ∀ x, (k x).NoStop) : (withSession s k).NoStop := by
  obtain ⟨x, hx⟩ := Option.ne_none_iff_exists'.mp hs
  rw [withSession, hx]
  exact hk x

/-- With a session and a typed configuration every sequence comes to an end (R240 to R259). -/
theorem runCall_noStop {s : State} (hs : s.session ≠ none) (h : HostCall)
    (hc : ∀ c, h = .setGroup c → c.codes.length = (groupFields c.group).length) : (runCall h s).NoStop := by
  cases h with
  | memWrite reg v => exact withSession_noStop hs fun _ => (memWrite_noStop ..).map
  | memRead reg len => exact withSession_noStop hs fun _ => (memRead_noStop ..).map
  | writeRegister reg lanes => exact withSession_noStop hs fun _ => (writeRegister_noStop ..).map
  | readRegister reg => exact withSession_noStop hs fun _ => (readRegister_noStop ..).map
  | readDualRegister reg => exact withSession_noStop hs fun _ => (readDualRegister_noStop ..).map
  | construct v => exact construct_noStop ..
  | constructWithAddress w v => exact constructAt_noStop ..
  | isConnected => exact withSession_noStop hs fun _ => isConnected_noStop ..
  | initDefault => exact withSession_noStop hs fun _ => initDefault_noStop ..
  | getDeviceId => exact withSession_noStop hs fun _ => (readDeviceId_noStop ..).map
  | getManufacturerId => exact withSession_noStop hs fun _ => (readManufacturer_noStop ..).map
  | setMagThreshold m axis =>
    exact withSession_noStop hs fun _ => (readPair_noStop ..).bind fun _ _ => (selectRange_noStop ..).bind fun _ _ =>
      (ask_noStop ..).bind fun _ _ => (memWrite_noStop ..).map
  | getMagThreshold axis =>
    exact withSession_noStop hs fun _ => (readPair_noStop ..).bind fun _ _ => (selectRange_noStop ..).bind fun _ _ =>
      (memRead_noStop ..).bind fun _ _ => (ask_noStop ..).map
  | setMagneticGain g => exact withSession_noStop hs fun _ => (ask_noStop ..).bind fun _ _ => (memWrite_noStop ..).map
  | getMagneticGain => exact withSession_noStop hs fun _ => (memRead_noStop ..).bind fun _ _ => (ask_noStop ..).map
  | setMagneticOffset m => exact withSession_noStop hs fun _ => (readPair_noStop ..).bind fun _ _ => (ask_noStop ..).map
  | getMagneticOffset => exact withSession_noStop hs fun _ => (readPair_noStop ..).bind fun _ _ => (ask_noStop ..).map
  | getTemperature =>
    exact withSession_noStop hs fun _ => (memRead_noStop ..).bind fun _ _ => (ask_noStop ..).bind fun _ _ =>
      (readResult_noStop ..).bind fun _ _ => (ask_noStop ..).map
  | getMagData axis =>
    exact withSession_noStop hs fun _ => (readPair_noStop ..).bind fun _ _ => (ask_noStop ..).bind fun _ _ =>
      (selectRange_noStop ..).bind fun _ _ => (readResult_noStop ..).bind fun _ _ => (ask_noStop ..).map
  | getAllData =>
    exact withSession_noStop hs fun _ => (readPair_noStop ..).bind fun _ _ => (ask_noStop ..).bind fun _ _ =>
      (memRead_noStop ..).bind fun _ _ => (ask_noStop ..).bind fun _ _ => (memRead_noStop ..).bind fun _ _ =>
        (ask_noStop ..).map
  | getAngle =>
    exact withSession_noStop hs fun _ => (readPair_noStop ..).bind fun _ _ => (ask_noStop ..).bind fun _ _ =>
      (readResult_noStop ..).bind fun _ _ => (ask_noStop ..).map
  | getMagnitude => exact withSession_noStop hs fun _ => (memRead_noStop ..).bind fun _ _ => (ask_noStop ..).map
  | setGroup c => exact withSession_noStop hs fun x => setGroup_noStop (hc c rfl) x s
  | getGroup g => exact withSession_noStop hs fun _ => getGroup_noStop ..

/-- Settles O52: with a session every sequence comes to an end, and a construction does without one. -/
theorem hostSequencesComeToAnEnd : Obligations.HostSequencesComeToAnEnd := by
  unfold Obligations.HostSequencesComeToAnEnd
  intro s h rest hin hsession hc
  rw [step_call hin]
  apply finish_of_noStop
  rcases hsession with hs | ⟨v, rfl⟩ | ⟨w, v, rfl⟩
  · exact runCall_noStop (s := { s with inputs := rest }) hs h hc
  · exact construct_noStop ..
  · exact constructAt_noStop ..

end Sys2Proof.Machine

/-! O2, O3, O4, O5, O6, O7, O10. The decoder loses no bit of a word, format by format, and accepts every word of the opcode
table (R122 to R124, R128); what a step does with a command (R120, R271); which bits of the operand a reply reads (R126). -/

namespace Sys2Proof.Machine

/-! ## What decodes is encoded by the word it came from (R128)

One inversion lemma per format: the operands, the legality the decoder has checked, and the `sel` byte put together again
from them. -/

theorem decodeZ_eq_ok {i j : Instr} {sel : Byte} (h : decodeZ i sel = .ok j) : i = j ∧ 0#8 = sel := by
  unfold decodeZ at h
  split at h
  · next hmbz => exact ⟨Except.ok.inj h, hmbz.symm⟩
  · cases h

theorem withReg_eq_ok {regAddr : Reg → BitVec 5} {sel : Byte} {k : Reg → Decoded} {i : Instr}
    (h : withReg regAddr sel k = .ok i) : ∃ r, k r = .ok i ∧ regAddr r = sel.extractLsb' 0 5 := by
  unfold withReg at h
  split at h
  · next r hr => exact ⟨r, h, apply_of_regOfCodeWith hr⟩
  · cases h

theorem withAxis_eq_ok {sel : Byte} {k : Axis → Instr} {i : Instr} (h : withAxis sel k = .ok i) :
    ∃ a, k a = i ∧ axisCode a = sel.extractLsb' 0 2 := by
  unfold withAxis at h
  split at h
  · next a ha => exact ⟨a, Except.ok.inj h, axisCode_of_axisOfCode ha⟩
  · cases h

theorem decodeR_eq_ok {regAddr : Reg → BitVec 5} {mk : Reg → Instr} {sel : Byte} {i : Instr}
    (h : decodeR regAddr mk sel = .ok i) : ∃ r, mk r = i ∧ 0#3 ++ regAddr r = sel := by
  have hsel : ∀ b : Byte, b.extractLsb' 5 3 = 0#3 → 0#3 ++ b.extractLsb' 0 5 = b := by decide
  unfold decodeR at h
  split at h
  · next hmbz =>
    obtain ⟨r, hi, hr⟩ := withReg_eq_ok h
    exact ⟨r, Except.ok.inj hi, hr ▸ hsel sel hmbz⟩
  · cases h

theorem decodeRD_eq_ok {regAddr : Reg → BitVec 5} {mk : Bool → Reg → Instr} {sel : Byte} {i : Instr}
    (h : decodeRD regAddr mk sel = .ok i) :
    ∃ dual r, mk dual r = i ∧ (!dual || r.startsPair) = true ∧ BitVec.ofBool dual ++ 0#2 ++ regAddr r = sel := by
  have hsel : ∀ b : Byte, b.extractLsb' 5 2 = 0#2 → BitVec.ofBool (b.getLsbD 7) ++ 0#2 ++ b.extractLsb' 0 5 = b := by
    decide
  unfold decodeRD at h
  split at h
  · next hmbz =>
    obtain ⟨r, hi, hr⟩ := withReg_eq_ok h
    dsimp only at hi
    split at hi
    · cases hi
    · next hpair => exact ⟨_, r, Except.ok.inj hi, by simpa [Decidable.imp_iff_not_or] using hpair, hr ▸ hsel sel hmbz⟩
  · cases h

theorem decodeRL_eq_ok {regAddr : Reg → BitVec 5} {mk : ReadLen → Reg → Instr} {sel : Byte} {i : Instr}
    (h : decodeRL regAddr mk sel = .ok i) : ∃ l r, mk l r = i ∧ 0#1 ++ lenCode l ++ regAddr r = sel := by
  have hsel : ∀ b : Byte, b.getLsbD 7 = false → 0#1 ++ b.extractLsb' 5 2 ++ b.extractLsb' 0 5 = b := by decide
  unfold decodeRL at h
  split at h
  · next hmbz =>
    obtain ⟨r, hi, hr⟩ := withReg_eq_ok h
    split at hi
    · next l hl => exact ⟨l, r, Except.ok.inj hi, hr ▸ lenCode_of_lenOfCode hl ▸ hsel sel hmbz⟩
    · cases hi
  · cases h

theorem decodeF_eq_ok {mk : Field → Instr} {sel : Byte} {i : Instr} (h : decodeF mk sel = .ok i) :
    ∃ f, mk f = i ∧ 0#2 ++ fieldCode f = sel := by
  have hsel : ∀ b : Byte, b.extractLsb' 6 2 = 0#2 → 0#2 ++ b.extractLsb' 0 6 = b := by decide
  unfold decodeF at h
  split at h
  · next hmbz =>
    split at h
    · next f hf => exact ⟨f, Except.ok.inj h, fieldCode_of_fieldOfCode hf ▸ hsel sel hmbz⟩
    · cases h
  · cases h

theorem decodeV_eq_ok {mk : Variant → Instr} {sel : Byte} {i : Instr} (h : decodeV mk sel = .ok i) :
    ∃ v, mk v = i ∧ 0#5 ++ variantCode v = sel := by
  have hsel : ∀ b : Byte, b.extractLsb' 3 5 = 0#5 → 0#5 ++ b.extractLsb' 0 3 = b := by decide
  unfold decodeV at h
  split at h
  · next hmbz =>
    refine ⟨_, Except.ok.inj h, ?_⟩
    rw [variantCode_variantOfCode]
    exact hsel sel hmbz
  · cases h

theorem decodeS_eq_ok {mk : RangeClass → RangeBit → Instr} {sel : Byte} {i : Instr} (h : decodeS mk sel = .ok i) :
    ∃ c r, mk c r = i ∧ 0#4 ++ classCode c ++ rangeBitCode r ++ 0#2 = sel := by
  have hsel : ∀ b : Byte, b.extractLsb' 4 4 = 0#4 ∧ b.extractLsb' 0 2 = 0#2 →
      0#4 ++ b.extractLsb' 3 1 ++ b.extractLsb' 2 1 ++ 0#2 = b := by decide
  unfold decodeS at h
  split at h
  · next hmbz =>
    refine ⟨_, _, Except.ok.inj h, ?_⟩
    rw [classCode_classOfCode, rangeBitCode_rangeBitOfCode]
    exact hsel sel hmbz
  · cases h

theorem decodeSA_eq_ok {mk : RangeClass → RangeBit → Axis → Instr} {sel : Byte} {i : Instr}
    (h : decodeSA mk sel = .ok i) :
    ∃ c r a, mk c r a = i ∧ 0#4 ++ classCode c ++ rangeBitCode r ++ axisCode a = sel := by
  have hsel : ∀ b : Byte, b.extractLsb' 4 4 = 0#4 →
      0#4 ++ b.extractLsb' 3 1 ++ b.extractLsb' 2 1 ++ b.extractLsb' 0 2 = b := by decide
  unfold decodeSA at h
  split at h
  · next hmbz =>
    obtain ⟨a, hi, ha⟩ := withAxis_eq_ok h
    refine ⟨_, _, a, hi, ?_⟩
    rw [classCode_classOfCode, rangeBitCode_rangeBitOfCode, ha]
    exact hsel sel hmbz
  · cases h

theorem decodeB_eq_ok {mk : RangeClass → RangeBit → RangeBit → Instr} {sel : Byte} {i : Instr}
    (h : decodeB mk sel = .ok i) :
    ∃ c rxy rz, mk c rxy rz = i ∧
      0#4 ++ classCode c ++ 0#1 ++ rangeBitCode rxy ++ rangeBitCode rz = sel := by
  have hsel : ∀ b : Byte, b.extractLsb' 4 4 = 0#4 ∧ b.getLsbD 2 = false →
      0#4 ++ b.extractLsb' 3 1 ++ 0#1 ++ b.extractLsb' 1 1 ++ b.extractLsb' 0 1 = b := by decide
  unfold decodeB at h
  split at h
  · next hmbz =>
    refine ⟨_, _, _, Except.ok.inj h, ?_⟩
    rw [classCode_classOfCode, rangeBitCode_rangeBitOfCode, rangeBitCode_rangeBitOfCode]
    exact hsel sel hmbz
  · cases h

theorem decodeX_eq_ok {mk : Axis → Instr} {sel : Byte} {i : Instr} (h : decodeX mk sel = .ok i) :
    ∃ a, mk a = i ∧ 0#6 ++ axisCode a = sel := by
  have hsel : ∀ b : Byte, b.extractLsb' 2 6 = 0#6 → 0#6 ++ b.extractLsb' 0 2 = b := by decide
  unfold decodeX at h
  split at h
  · next hmbz =>
    obtain ⟨a, hi, ha⟩ := withAxis_eq_ok h
    exact ⟨a, hi, ha ▸ hsel sel hmbz⟩
  · cases h

/-- What the decoder gives for `op` and `sel` is a well-formed instruction with these two bytes, under any address map: one
case per row of the opcode map, by the format of the row (R122, R123). -/
theorem decodeOp_eq_ok {regAddr : Reg → BitVec 5} {op sel : Byte} {i : Instr} (h : decodeOp regAddr op sel = .ok i) :
    (opOf i).toNat = op.toNat ∧ selOfWith regAddr i = sel ∧ i.wellFormed = true := by
  unfold decodeOp at h
  split at h
  -- RDEF, RDEC, RENC, WFRM
  case h_1 hop | h_2 hop | h_3 hop | h_11 hop =>
    obtain ⟨r, rfl, hsel⟩ := decodeR_eq_ok h
    exact ⟨hop.symm, hsel, rfl⟩
  -- RCHK
  case h_4 hop =>
    obtain ⟨dual, r, rfl, hpair, hsel⟩ := decodeRD_eq_ok h
    exact ⟨hop.symm, hsel, hpair⟩
  -- FGET, FSET
  case h_5 hop | h_6 hop =>
    obtain ⟨f, rfl, hsel⟩ := decodeF_eq_ok h
    exact ⟨hop.symm, hsel, rfl⟩
  -- RFRM
  case h_12 hop =>
    obtain ⟨l, r, rfl, hsel⟩ := decodeRL_eq_ok h
    exact ⟨hop.symm, hsel, rfl⟩
  -- VADDR, VDID, VCLS, DIDCHK
  case h_13 hop | h_14 hop | h_15 hop | h_18 hop =>
    obtain ⟨v, rfl, hsel⟩ := decodeV_eq_ok h
    exact ⟨hop.symm, hsel, rfl⟩
  -- VRNG, THRENC, THRDEC
  case h_16 hop | h_29 hop | h_30 hop =>
    obtain ⟨c, r, rfl, hsel⟩ := decodeS_eq_ok h
    exact ⟨hop.symm, hsel, rfl⟩
  -- CHAXIS, RNGSEL
  case h_19 hop | h_24 hop =>
    obtain ⟨a, rfl, hsel⟩ := decodeX_eq_ok h
    exact ⟨hop.symm, hsel, rfl⟩
  -- CVMAG
  case h_25 hop =>
    obtain ⟨c, r, a, rfl, hsel⟩ := decodeSA_eq_ok h
    exact ⟨hop.symm, hsel, rfl⟩
  -- CVBURST
  case h_28 hop =>
    obtain ⟨c, rxy, rz, rfl, hsel⟩ := decodeB_eq_ok h
    exact ⟨hop.symm, hsel, rfl⟩
  -- not in the opcode map
  case h_35 => cases h
  -- the operations without a selector
  all_goals
    next hop =>
    obtain ⟨rfl, hsel⟩ := decodeZ_eq_ok h
    exact ⟨hop.symm, hsel, rfl⟩

/-- The word's two bytes, put together again (R120). -/
theorem op_append_sel (w : Half) : w.extractLsb' 8 8 ++ w.extractLsb' 0 8 = w := by
  rw [BitVec.extractLsb'_append_extractLsb'_eq_extractLsb' (by omega)]
  exact BitVec.extractLsb'_eq_self

/-- What decodes is well formed and is encoded by the word it was decoded from, under any address map (R128). -/
theorem decodeWith_eq_ok {regAddr : Reg → BitVec 5} {w : Half} {i : Instr} (h : decodeWith regAddr w = .ok i) :
    i.wellFormed = true ∧ encodeWith regAddr i = w := by
  obtain ⟨hop, hsel, hwf⟩ := decodeOp_eq_ok h
  refine ⟨hwf, ?_⟩
  unfold encodeWith
  rw [BitVec.eq_of_toNat_eq hop, hsel]
  exact op_append_sel w

/-- Settles O2, at the spec's address map. -/
theorem encodeInvertsDecode : Obligations.EncodeInvertsDecode := by
  unfold Obligations.EncodeInvertsDecode
  intro w i h
  exact decodeWith_eq_ok h

/-! ## The words of the opcode table decode (R122 to R124, R128) -/

/-- A decoder of the `sel` byte accepts every word that is 0 under a mask and legal in a format. -/
def AcceptsLegal (fm : Format) (mbz : Byte) (dec : Byte → Decoded) : Prop :=
  ∀ w : Half, w.extractLsb' 0 8 &&& mbz = 0#8 → fm.legal w = true → ∃ i, dec (w.extractLsb' 0 8) = .ok i

/-- Every address up to 0x1C has a register (R24). -/
theorem exists_regOfCode {c : BitVec 5} (h : c.toNat ≤ 0x1C) : ∃ r, regOfCode c = some r :=
  Option.isSome_iff_exists.mp (by revert c; decide)

theorem exists_fieldOfCode {c : BitVec 6} (h : c.toNat ≤ 0x21) : ∃ f, fieldOfCode c = some f :=
  Option.isSome_iff_exists.mp (by revert c; decide)

theorem exists_axisOfCode {c : BitVec 2} (h : c.toNat ≠ 3) : ∃ a, axisOfCode c = some a :=
  Option.isSome_iff_exists.mp (by revert c; decide)

theorem exists_lenOfCode {c : BitVec 2} (h : c.toNat ≠ 3) : ∃ l, lenOfCode c = some l :=
  Option.isSome_iff_exists.mp (by revert c; decide)

/-- The registers of the pair rule (R124), by their addresses. -/
theorem startsPair_of_regCode {r : Reg}
    (h : (regCode r).toNat = 0x00 ∨ (regCode r).toNat = 0x02 ∨ (regCode r).toNat = 0x0E) :
    r.startsPair = true := by
  revert h; cases r <;> decide

/-- A word's low bits, as the decoder reads them off the `sel` byte. -/
theorem toNat_sel_low (w : Half) {n : Nat} (hn : n ≤ 8) :
    ((w.extractLsb' 0 8).extractLsb' 0 n).toNat = w.toNat % 2 ^ n := by
  rw [BitVec.extractLsb'_extractLsb'_of_le (by omega), BitVec.extractLsb'_toNat, Nat.shiftRight_zero]

/-- With a legal `reg` the decoder finds the register (R151). -/
theorem withReg_of_legal {w : Half} (h : w.toNat % 32 ≤ 0x1C) (k : Reg → Decoded) :
    ∃ r, (regCode r).toNat = w.toNat % 32 ∧ withReg regCode (w.extractLsb' 0 8) k = k r := by
  have hc : ((w.extractLsb' 0 8).extractLsb' 0 5).toNat = w.toNat % 32 := toNat_sel_low w (by omega)
  obtain ⟨r, hr⟩ := exists_regOfCode (hc ▸ h)
  refine ⟨r, by rw [regCode_of_regOfCode hr, hc], ?_⟩
  unfold withReg
  rw [show regOfCodeWith regCode _ = some r from hr]

theorem withAxis_of_legal {w : Half} (h : w.toNat % 4 ≠ 3) (k : Axis → Instr) :
    ∃ a, withAxis (w.extractLsb' 0 8) k = .ok (k a) := by
  have hc : ((w.extractLsb' 0 8).extractLsb' 0 2).toNat = w.toNat % 4 := toNat_sel_low w (by omega)
  obtain ⟨a, ha⟩ := exists_axisOfCode (hc ▸ h)
  refine ⟨a, ?_⟩
  unfold withAxis
  rw [ha]

theorem decodeZ_acceptsLegal (i : Instr) : AcceptsLegal .z 0xFF#8 (decodeZ i) := by
  have hmbz : ∀ b : Byte, b &&& 0xFF#8 = 0#8 → b = 0#8 := by decide
  intro w hw _
  exact ⟨i, if_pos (hmbz _ hw)⟩

theorem decodeR_acceptsLegal (mk : Reg → Instr) : AcceptsLegal .r 0xE0#8 (decodeR regCode mk) := by
  have hmbz : ∀ b : Byte, b &&& 0xE0#8 = 0#8 → b.extractLsb' 5 3 = 0#3 := by decide
  intro w hw hlegal
  obtain ⟨r, -, hk⟩ := withReg_of_legal (of_decide_eq_true hlegal) fun r => .ok (mk r)
  unfold decodeR
  rw [if_pos (hmbz _ hw), hk]
  exact ⟨_, rfl⟩

theorem decodeRD_acceptsLegal (mk : Bool → Reg → Instr) : AcceptsLegal .rd 0x60#8 (decodeRD regCode mk) := by
  have hmbz : ∀ b : Byte, b &&& 0x60#8 = 0#8 → b.extractLsb' 5 2 = 0#2 := by decide
  intro w hw hlegal
  simp only [Format.legal, Bool.and_eq_true, decide_eq_true_eq, Bool.or_eq_true, Bool.not_eq_true', beq_iff_eq] at hlegal
  obtain ⟨hreg, hpair⟩ := hlegal
  unfold decodeRD
  rw [if_pos (hmbz _ hw)]
  obtain ⟨r, hr, hk⟩ := withReg_of_legal hreg fun r =>
    if (w.extractLsb' 0 8).getLsbD 7 && !r.startsPair then .error .badDual
    else .ok (mk ((w.extractLsb' 0 8).getLsbD 7) r)
  have hdual : (w.extractLsb' 0 8).getLsbD 7 = w.getLsbD 7 := by simp
  have hok : ¬ ((w.extractLsb' 0 8).getLsbD 7 && !r.startsPair) = true := by
    rw [hdual]
    rcases hpair with ((h7 | h0) | h2) | hE
    · rw [h7, Bool.false_and]; exact Bool.false_ne_true
    · simp [startsPair_of_regCode (.inl (hr.trans h0))]
    · simp [startsPair_of_regCode (.inr (.inl (hr.trans h2)))]
    · simp [startsPair_of_regCode (.inr (.inr (hr.trans hE)))]
  exact ⟨_, hk.trans (if_neg hok)⟩

theorem decodeRL_acceptsLegal (mk : ReadLen → Reg → Instr) : AcceptsLegal .rl 0x80#8 (decodeRL regCode mk) := by
  have hmbz : ∀ b : Byte, b &&& 0x80#8 = 0#8 → b.getLsbD 7 = false := by decide
  intro w hw hlegal
  simp only [Format.legal, Bool.and_eq_true, decide_eq_true_eq] at hlegal
  obtain ⟨hreg, hlen⟩ := hlegal
  have hc : ((w.extractLsb' 0 8).extractLsb' 5 2).toNat = w.toNat / 32 % 4 := by
    rw [BitVec.extractLsb'_extractLsb'_of_le (by omega), BitVec.extractLsb'_toNat, Nat.shiftRight_eq_div_pow]
  obtain ⟨l, hl⟩ := exists_lenOfCode (hc ▸ hlen)
  unfold decodeRL
  rw [if_pos (hmbz _ hw), hl]
  obtain ⟨r, -, hk⟩ := withReg_of_legal hreg fun r => .ok (mk l r)
  exact ⟨_, hk⟩

theorem decodeF_acceptsLegal (mk : Field → Instr) : AcceptsLegal .f 0xC0#8 (decodeF mk) := by
  have hmbz : ∀ b : Byte, b &&& 0xC0#8 = 0#8 → b.extractLsb' 6 2 = 0#2 := by decide
  intro w hw hlegal
  have hc : ((w.extractLsb' 0 8).extractLsb' 0 6).toNat = w.toNat % 64 := toNat_sel_low w (by omega)
  obtain ⟨f, hf⟩ := exists_fieldOfCode (hc ▸ of_decide_eq_true hlegal)
  unfold decodeF
  rw [if_pos (hmbz _ hw), hf]
  exact ⟨_, rfl⟩

theorem decodeV_acceptsLegal (mk : Variant → Instr) : AcceptsLegal .v 0xF8#8 (decodeV mk) := by
  have hmbz : ∀ b : Byte, b &&& 0xF8#8 = 0#8 → b.extractLsb' 3 5 = 0#5 := by decide
  intro w hw _
  exact ⟨_, if_pos (hmbz _ hw)⟩

theorem decodeS_acceptsLegal (mk : RangeClass → RangeBit → Instr) : AcceptsLegal .s 0xF3#8 (decodeS mk) := by
  have hmbz : ∀ b : Byte, b &&& 0xF3#8 = 0#8 → b.extractLsb' 4 4 = 0#4 ∧ b.extractLsb' 0 2 = 0#2 := by decide
  intro w hw _
  exact ⟨_, if_pos (hmbz _ hw)⟩

theorem decodeSA_acceptsLegal (mk : RangeClass → RangeBit → Axis → Instr) : AcceptsLegal .sa 0xF0#8 (decodeSA mk) := by
  have hmbz : ∀ b : Byte, b &&& 0xF0#8 = 0#8 → b.extractLsb' 4 4 = 0#4 := by decide
  intro w hw hlegal
  unfold decodeSA
  rw [if_pos (hmbz _ hw)]
  obtain ⟨a, ha⟩ := withAxis_of_legal (of_decide_eq_true hlegal) _
  exact ⟨_, ha⟩

theorem decodeB_acceptsLegal (mk : RangeClass → RangeBit → RangeBit → Instr) : AcceptsLegal .b 0xF4#8 (decodeB mk) := by
  have hmbz : ∀ b : Byte, b &&& 0xF4#8 = 0#8 → b.extractLsb' 4 4 = 0#4 ∧ b.getLsbD 2 = false := by decide
  intro w hw _
  exact ⟨_, if_pos (hmbz _ hw)⟩

theorem decodeX_acceptsLegal (mk : Axis → Instr) : AcceptsLegal .x 0xFC#8 (decodeX mk) := by
  have hmbz : ∀ b : Byte, b &&& 0xFC#8 = 0#8 → b.extractLsb' 2 6 = 0#6 := by decide
  intro w hw hlegal
  unfold decodeX
  rw [if_pos (hmbz _ hw)]
  obtain ⟨a, ha⟩ := withAxis_of_legal (of_decide_eq_true hlegal) mk
  exact ⟨_, ha⟩

/-- The decoder of a row's `op` accepts the row's words: row by row, it is the decoder of the row's format (R123). -/
theorem decodeOp_acceptsLegal : ∀ row ∈ opcodeTable,
    AcceptsLegal row.format (row.mask.extractLsb' 0 8) (decodeOp regCode (row.pattern.extractLsb' 8 8)) := by
  simp only [opcodeTable, List.forall_mem_cons]
  exact
    ⟨decodeR_acceptsLegal .rdef, decodeR_acceptsLegal .rdec, decodeR_acceptsLegal .renc, decodeRD_acceptsLegal .rchk,
     decodeF_acceptsLegal .fget, decodeF_acceptsLegal .fset, decodeZ_acceptsLegal .pk16le, decodeZ_acceptsLegal .pk16be,
     decodeZ_acceptsLegal .up16le, decodeZ_acceptsLegal .up16be, decodeR_acceptsLegal .wfrm, decodeRL_acceptsLegal .rfrm,
     decodeV_acceptsLegal .vaddr, decodeV_acceptsLegal .vdid, decodeV_acceptsLegal .vcls, decodeS_acceptsLegal .vrng,
     decodeZ_acceptsLegal .midchk, decodeV_acceptsLegal .didchk, decodeX_acceptsLegal .chaxis,
     decodeZ_acceptsLegal .chall, decodeZ_acceptsLegal .chset, decodeZ_acceptsLegal .tchk, decodeZ_acceptsLegal .angchk,
     decodeX_acceptsLegal .rngsel, decodeSA_acceptsLegal .cvmag, decodeZ_acceptsLegal .cvtemp,
     decodeZ_acceptsLegal .cvang, decodeB_acceptsLegal .cvburst, decodeS_acceptsLegal .threnc,
     decodeS_acceptsLegal .thrdec, decodeZ_acceptsLegal .gain, decodeZ_acceptsLegal .magn, decodeZ_acceptsLegal .offenc,
     decodeZ_acceptsLegal .offdec, nofun⟩

/-- A row fixes the whole `op` byte, and shows zeros where it fixes bits of `sel` (R122). -/
theorem opcodeTable_bytes : ∀ row ∈ opcodeTable,
    row.mask.extractLsb' 8 8 = BitVec.allOnes 8 ∧ row.pattern.extractLsb' 0 8 = 0#8 := by
  decide

/-- Two words that agree under a mask agree on a field that lies under it whole. -/
theorem extractLsb'_eq_of_and_eq {n start len : Nat} {x y m : BitVec n} (h : x &&& m = y &&& m)
    (hm : m.extractLsb' start len = BitVec.allOnes len) : x.extractLsb' start len = y.extractLsb' start len := by
  simpa only [BitVec.extractLsb'_and, hm, BitVec.and_allOnes] using congrArg (BitVec.extractLsb' start len) h

/-- A word in a row of the opcode table, with legal sub-fields, decodes. -/
theorem exists_decode_of_row {w : Half} {row : OpcodeRow} (hrow : row ∈ opcodeTable) (hw : w &&& row.mask = row.pattern)
    (hlegal : row.format.legal w = true) : ∃ i, decode w = .ok i := by
  obtain ⟨hmask, hzero⟩ := opcodeTable_bytes row hrow
  have hop : w.extractLsb' 8 8 = row.pattern.extractLsb' 8 8 := by
    rw [← hw, BitVec.extractLsb'_and, hmask, BitVec.and_allOnes]
  have hmbz : w.extractLsb' 0 8 &&& row.mask.extractLsb' 0 8 = 0#8 := by
    rw [← BitVec.extractLsb'_and, hw, hzero]
  unfold decode decodeWith
  rw [hop]
  exact decodeOp_acceptsLegal row hrow w hmbz hlegal

open Laws in
/-- Every instruction's word lies in its row of the opcode table. -/
theorem tableRow (i : Instr) : TableRow.Statement i := by
  cases i with
  | rdef reg => exact TableRow.rdef reg
  | rdec reg => exact TableRow.rdec reg
  | renc reg => exact TableRow.renc reg
  | rchk dual reg => exact TableRow.rchk dual reg
  | fget f => exact TableRow.fget f
  | fset f => exact TableRow.fset f
  | pk16le => exact TableRow.pk16le
  | pk16be => exact TableRow.pk16be
  | up16le => exact TableRow.up16le
  | up16be => exact TableRow.up16be
  | wfrm reg => exact TableRow.wfrm reg
  | rfrm len reg => exact TableRow.rfrm len reg
  | vaddr v => exact TableRow.vaddr v
  | vdid v => exact TableRow.vdid v
  | vcls v => exact TableRow.vcls v
  | vrng c r => exact TableRow.vrng c r
  | midchk => exact TableRow.midchk
  | didchk v => exact TableRow.didchk v
  | chaxis axis => exact TableRow.chaxis axis
  | chall => exact TableRow.chall
  | chset => exact TableRow.chset
  | tchk => exact TableRow.tchk
  | angchk => exact TableRow.angchk
  | rngsel axis => exact TableRow.rngsel axis
  | cvmag c r axis => exact TableRow.cvmag c r axis
  | cvtemp => exact TableRow.cvtemp
  | cvang => exact TableRow.cvang
  | cvburst c rxy rz => exact TableRow.cvburst c rxy rz
  | threnc c r => exact TableRow.threnc c r
  | thrdec c r => exact TableRow.thrdec c r
  | gain => exact TableRow.gain
  | magn => exact TableRow.magn
  | offenc => exact TableRow.offenc
  | offdec => exact TableRow.offdec

/-- Settles O3: a word that decodes is an encoding, which lies in its row; a word of a row is accepted by the row's
format. -/
theorem decodableWordsAreTableWords : Obligations.DecodableWordsAreTableWords := by
  unfold Obligations.DecodableWordsAreTableWords
  intro w
  constructor
  · rintro ⟨i, h⟩
    obtain ⟨hwf, rfl⟩ := encodeInvertsDecode w i h
    obtain ⟨row, hrow, hbits, hlegal⟩ := tableRow i
    exact ⟨row, hrow, hbits, hlegal hwf⟩
  · rintro ⟨row, hrow, hbits, hlegal⟩
    exact exists_decode_of_row hrow hbits hlegal

/-- Settles O4: each word is the encoding of its instruction (R122, R123). -/
theorem sampleWordsDecode : Obligations.SampleWordsDecode := by
  unfold Obligations.SampleWordsDecode
  exact
    ⟨decode_encode (i := .rdec .sensorConfig1) rfl, decode_encode (i := .rchk true .manufacturerIdLsb) rfl,
     decode_encode (i := .fget .i2cAddress) rfl, decode_encode (i := .pk16le) rfl,
     decode_encode (i := .rfrm .eight .tMsbResult) rfl, decode_encode (i := .vaddr .c2) rfl,
     decode_encode (i := .vrng .class2 .low) rfl, decode_encode (i := .chaxis .z) rfl,
     decode_encode (i := .cvmag .class1 .high .y) rfl, decode_encode (i := .cvburst .class2 .low .high) rfl⟩

/-! ## A step on a command (R120, R128, R271) -/

/-- Settles O5. -/
theorem stepRunsDecodedCommand : Obligations.StepRunsDecodedCommand := by
  unfold Obligations.StepRunsDecodedCommand
  intro s c rest i hin hdec
  rw [step_command hin, runCommand, hdec]
  rfl

/-- Settles O6. -/
theorem illegalWordAnswersIllegalOp : Obligations.IllegalWordAnswersIllegalOp := by
  unfold Obligations.IllegalWordAnswersIllegalOp
  intro s c rest e hin hdec
  rw [step_command hin, runCommand_eq, hdec]
  rfl

/-- Settles O7: the response is the instruction's reply on the port, and no reply is a fault of the host's (R270). -/
theorem commandAnswersOneResponse : Obligations.CommandAnswersOneResponse := by
  unfold Obligations.CommandAnswersOneResponse
  intro i s
  exact ⟨_, (replyOf_formed s.thrQuant s.cmd.a i).respond_wf, exec_eq_next i s⟩

/-! ## The operand bits a reply reads (R126) -/

/-- The bytes of the operand below `n` are the ones under the mask of its low `8n` bits. -/
theorem byteAt_lowMask {n k : Nat} (hk : k < n) (hn : n ≤ 8) :
    byteAt (BitVec.ofNat 64 (2 ^ (8 * n) - 1)) k = BitVec.allOnes 8 := by
  apply BitVec.eq_of_getLsbD_eq
  intro j hj
  have h64 : 8 * k + j < 64 := by omega
  have hlow : 8 * k + j < 8 * n := by omega
  rw [byteAt, BitVec.getLsbD_extractLsb', BitVec.getLsbD_ofNat, Nat.testBit_two_pow_sub_one, BitVec.getLsbD_allOnes]
  simp only [hj, h64, hlow, decide_true, Bool.and_self]

/-- RENC reads one byte of the operand for each lane (R153). -/
theorem encodeLanes_congr {T : DeviceTables} {a b : Operand} {ls : List Lane} {i : Nat} {raw : Byte}
    (h : ∀ k, i ≤ k → k < i + ls.length → byteAt a k = byteAt b k) :
    encodeLanes T a ls i raw = encodeLanes T b ls i raw := by
  induction ls generalizing i raw with
  | nil => rfl
  | cons l ls ih =>
    rw [List.length_cons] at h
    rw [encodeLanes, encodeLanes, h i (by omega) (by omega), ih fun k hk hk' => h k (by omega) (by omega)]

theorem rencReply_congr {T : DeviceTables} {a b : Operand} {reg : Reg}
    (h : ∀ k, k < (T.regLanes reg).length → byteAt a k = byteAt b k) : rencReply T reg a = rencReply T reg b := by
  unfold rencReply
  rw [encodeLanes_congr fun k _ hk => h k (by omega)]

/-- A reply is the same for two operands that agree on the bits R126 names: by the slices of the operand each operation
reads. -/
theorem replyOf_congr {a b : Operand} {i : Instr} (t : Config.ThrQuant) (h : a &&& namedBits i = b &&& namedBits i) :
    replyOf t a i = replyOf t b i := by
  cases i with
  -- no operand
  | rdef | rfrm | vaddr | vdid | vcls | vrng => rfl
  -- the raw byte `a[7:0]`
  | rdec | fget | wfrm | didchk | tchk | thrdec | gain | magn =>
    replace h : a &&& 0xFF#64 = b &&& 0xFF#64 := h
    have h0 : byteAt a 0 = byteAt b 0 := extractLsb'_eq_of_and_eq h (by decide)
    simp only [replyOf, rdecReply, fgetReply, wfrmReply, didchkReply, tchkReply, thrdecReply, gainReply, magnReply, h0]
  -- one byte for each lane
  | renc reg =>
    have hlen : 0 + (regLanes reg).length ≤ 8 := tilesFrom_length (tables_tiles reg)
    exact rencReply_congr fun k hk => extractLsb'_eq_of_and_eq h (byteAt_lowMask hk (by omega))
  | rchk dual reg =>
    cases dual with
    | false =>
      replace h : a &&& 0xFF#64 = b &&& 0xFF#64 := h
      have h0 : byteAt a 0 = byteAt b 0 := extractLsb'_eq_of_and_eq h (by decide)
      exact congrArg (checkSingle tables reg) h0
    | true =>
      replace h : a &&& 0xFFFF#64 = b &&& 0xFFFF#64 := h
      have h0 : byteAt a 0 = byteAt b 0 := extractLsb'_eq_of_and_eq h (by decide)
      have h1 : byteAt a 1 = byteAt b 1 := extractLsb'_eq_of_and_eq h (by decide)
      exact congrArg₂ (checkPair tables reg) h0 h1
  -- the two bytes of `a[15:0]`
  | fset | pk16le | pk16be | midchk =>
    replace h : a &&& 0xFFFF#64 = b &&& 0xFFFF#64 := h
    have h0 : byteAt a 0 = byteAt b 0 := extractLsb'_eq_of_and_eq h (by decide)
    have h1 : byteAt a 1 = byteAt b 1 := extractLsb'_eq_of_and_eq h (by decide)
    simp only [replyOf, fsetReply, pk16leReply, pk16beReply, midchkReply, h0, h1]
  -- the half `a[15:0]`
  | up16le | up16be | chaxis | chall | chset | angchk | rngsel | cvmag | cvtemp | cvang =>
    replace h : a &&& 0xFFFF#64 = b &&& 0xFFFF#64 := h
    have hh : halfOf a = halfOf b := extractLsb'_eq_of_and_eq h (by decide)
    simp only [replyOf, up16leReply, up16beReply, chaxisReply, challReply, chsetReply, angchkReply, rngselReply,
      cvmagReply, cvtempReply, cvangReply, hh]
  -- the configuration half of the offset operations, which never use the offset they are given (R233, R234)
  | offenc =>
    replace h : a &&& 0xFFFFFFFF0000FFFF#64 = b &&& 0xFFFFFFFF0000FFFF#64 := h
    have hh : halfOf a = halfOf b := extractLsb'_eq_of_and_eq h (by decide)
    exact congrArg (offsetReply tables) hh
  | offdec =>
    replace h : a &&& 0xFFFFFFFF#64 = b &&& 0xFFFFFFFF#64 := h
    have hh : halfOf a = halfOf b := extractLsb'_eq_of_and_eq h (by decide)
    exact congrArg (offsetReply tables) hh
  -- the binary32 `a[31:0]`
  | threnc =>
    replace h : a &&& 0xFFFFFFFF#64 = b &&& 0xFFFFFFFF#64 := h
    have hf : floatOf a = floatOf b := extractLsb'_eq_of_and_eq h (by decide)
    simp only [replyOf, threncReply, hf]
  -- the whole operand
  | cvburst =>
    replace h : a &&& BitVec.allOnes 64 = b &&& BitVec.allOnes 64 := h
    rw [BitVec.and_allOnes, BitVec.and_allOnes] at h
    rw [h]

/-- Settles O10: the response is the reply to the named bits. -/
theorem unnamedOperandBitsAreIgnored : Obligations.UnnamedOperandBitsAreIgnored := by
  unfold Obligations.UnnamedOperandBitsAreIgnored
  intro i s t ha hq
  refine ⟨respond (replyOf s.thrQuant s.cmd.a i), exec_eq_next i s, ?_⟩
  rw [replyOf_congr s.thrQuant ha, hq]
  exact exec_eq_next i t

end Sys2Proof.Machine

/-! O12, O13, O14, O16, O17, O18, O20. What the register codec answers (R152 to R157, R159), as numbers: first how lanes, codes
and flags of the model read as numbers, then each operation. -/

namespace Sys2Proof.Machine

/-! ## Lanes and codes as numbers (R26, R126) -/

theorem byteAt_toNat (a : Operand) (i : Nat) : (byteAt a i).toNat = operandLane a i := by
  simp [byteAt, operandLane, Nat.shiftRight_eq_div_pow]

theorem Span.width_eq {s : Span} (h : s.ok) : s.width = s.hi + 1 - s.lo := by
  have hw := Span.lo_add_width h
  omega

theorem getSpan_toNat_lane {l : Lane} (h : l.span.ok) (raw : Byte) : (getSpan l.span raw).toNat = laneIn l raw.toNat := by
  rw [getSpan_toNat h, Span.width_eq h]; rfl

theorem fitsSpan_lane_iff {l : Lane} (h : l.span.ok) (c : Byte) : fitsSpan l.span c = true ↔ c.toNat < laneSize l := by
  rw [fitsSpan, Span.width_eq h, decide_eq_true_eq]; rfl

theorem fitsSpan_field_iff (f : Field) (c : Byte) : fitsSpan (fieldSpan f) c = true ↔ c.toNat < fieldSize f :=
  fitsSpan_lane_iff (l := .field f) (fieldSpan_ok f) c

theorem fieldCodeIn_toNat (f : Field) (raw : Byte) : (fieldCodeIn tables f raw).toNat = codeIn f raw.toNat :=
  getSpan_toNat_lane (l := .field f) (fieldSpan_ok f) raw

theorem codeIn_lt (f : Field) (raw : Nat) : codeIn f raw < fieldSize f := Nat.mod_lt _ (Nat.two_pow_pos _)

/-! ## Undefined codes and reserved members (R27, R86) -/

theorem fieldClass_of_malformedCode {f : Field} {code : Nat} (h : malformedCode f code) : fieldClass f = .nonExhaustive := by
  rcases h with ⟨rfl, -⟩ | ⟨rfl, -⟩ | ⟨rfl, -⟩ | ⟨rfl, -⟩ <;> rfl

theorem fieldClass_of_reservedMember {f : Field} {code : Nat} (h : reservedMember f code) : fieldClass f = .exhaustive := by
  rcases h with ⟨rfl, -⟩ | ⟨rfl, -⟩ | ⟨rfl, -⟩ <;> rfl

/-- A field is of one class (R27). -/
theorem not_malformedCode_of_reservedMember {f : Field} {code : Nat} (h : reservedMember f code) :
    ¬ malformedCode f code := by
  intro h'
  have hclass := (fieldClass_of_malformedCode h').symm.trans (fieldClass_of_reservedMember h)
  cases hclass

theorem isUndefinedCode_iff {f : Field} {code : Nat} (h : code < fieldSize f) :
    isUndefinedCode tables f code = true ↔ malformedCode f code := by
  change (fieldClass f == .nonExhaustive && (fieldReserved f).contains code) = true ↔ _
  rw [Bool.and_eq_true, fieldReserved_contains_iff f code h, beq_iff_eq]
  constructor
  · rintro ⟨hclass, hcode | hcode⟩
    · exact hcode
    · cases hclass.symm.trans (fieldClass_of_reservedMember hcode)
  · exact fun hcode => ⟨fieldClass_of_malformedCode hcode, .inl hcode⟩

theorem isReservedMember_iff {f : Field} {code : Nat} (h : code < fieldSize f) :
    isReservedMember tables f code = true ↔ reservedMember f code := by
  change (fieldClass f == .exhaustive && (fieldReserved f).contains code) = true ↔ _
  rw [Bool.and_eq_true, fieldReserved_contains_iff f code h, beq_iff_eq]
  constructor
  · rintro ⟨hclass, hcode | hcode⟩
    · cases hclass.symm.trans (fieldClass_of_malformedCode hcode)
    · exact hcode
  · exact fun hcode => ⟨fieldClass_of_reservedMember hcode, .inr hcode⟩

/-- The same of the code a raw byte holds, which always fits its field. -/
theorem isUndefinedCode_fieldCodeIn_iff (f : Field) (raw : Byte) :
    isUndefinedCode tables f (fieldCodeIn tables f raw).toNat = true ↔ malformedCode f (codeIn f raw.toNat) := by
  rw [fieldCodeIn_toNat, isUndefinedCode_iff (codeIn_lt f _)]

theorem isReservedMember_fieldCodeIn_iff (f : Field) (raw : Byte) :
    isReservedMember tables f (fieldCodeIn tables f raw).toNat = true ↔ reservedMember f (codeIn f raw.toNat) := by
  rw [fieldCodeIn_toNat, isReservedMember_iff (codeIn_lt f _)]

/-! ## Instruction words, and replies on the port (R122, R127, R271) -/

/-- An instruction word in the register format, read without brackets (R122). -/
theorem append_regSel (op : Byte) (x : BitVec 3) (c : BitVec 5) : op ++ (x ++ c) = op ++ x ++ c :=
  BitVec.append_assoc.symm

/-- An instruction word in the field format, read without brackets (R122). -/
theorem append_fieldSel (op : Byte) (x : BitVec 2) (c : BitVec 6) : op ++ (x ++ c) = op ++ x ++ c :=
  BitVec.append_assoc.symm

theorem exec_of_ok {i : Instr} {s : State} {q : Result} (h : replyOf s.thrQuant s.cmd.a i = .ok q) :
    exec i s = .next (s.push { status := 0#4, q := q }) := by
  rw [exec_eq_next, h, respond_ok]

theorem exec_of_error {i : Instr} {s : State} {e : FaultKind} {st : BitVec 4}
    (h : replyOf s.thrQuant s.cmd.a i = .error e) (hst : statusCode e = st) :
    exec i s = .next (s.push { status := st, q := 0#128 }) := by
  rw [exec_eq_next, h, respond_error, hst]

theorem zext128_eq_ofNat {w : Nat} (v : BitVec w) : zext128 v = BitVec.ofNat 128 v.toNat :=
  (BitVec.ofNat_toNat 128 v).symm

/-- A value on the port with a flag in the bit above it (R127). -/
theorem zext128_flag {w : Nat} (hw : w < 128) (v : BitVec w) (flag : Bool) :
    zext128 v ||| (zext128 (BitVec.ofBool flag) <<< w) =
      BitVec.ofNat 128 (v.toNat + if flag = true then 2 ^ w else 0) := by
  have hv : v.toNat < 2 ^ w := v.isLt
  have hpow : 2 ^ w < 2 ^ 128 := Nat.pow_lt_pow_right (by omega) hw
  apply BitVec.eq_of_toNat_eq
  cases flag with
  | false => simp [zext128]
  | true =>
    have hor : v.toNat + 2 ^ w = v.toNat ||| 2 ^ w := by
      rw [Nat.add_comm, Nat.or_comm]
      simpa using Nat.two_pow_add_eq_or_of_lt hv 1
    simp [zext128, Nat.shiftLeft_eq, hor]

/-- What stands on the port after a reply with a flag, by whether the flag is set. -/
theorem exec_of_flagged {i : Instr} {s : State} {n k : Nat} {p q : Prop} [Decidable p] (hpq : p ↔ q)
    (h : replyOf s.thrQuant s.cmd.a i = .ok (BitVec.ofNat 128 (n + if p then k else 0))) :
    (q → exec i s = .next (s.push { status := 0#4, q := BitVec.ofNat 128 (n + k) })) ∧
      (¬ q → exec i s = .next (s.push { status := 0#4, q := BitVec.ofNat 128 n })) := by
  refine ⟨fun hq => exec_of_ok ?_, fun hq => exec_of_ok ?_⟩
  · rw [h, if_pos (hpq.mpr hq)]
  · rw [h, if_neg (mt hpq.mp hq), Nat.add_zero]

/-! ## RDEF (R154) -/

theorem zext128_regDefault (reg : Reg) :
    zext128 (regDefault reg) =
      if regCode reg = 0x0E#5 then 0x49#128 else if regCode reg = 0x0F#5 then 0x54#128 else 0#128 := by
  cases reg <;> rfl

/-- Settles O12: the table of defaults, read by address. -/
theorem rdefResult : Obligations.RdefResult := by
  unfold Obligations.RdefResult
  intro reg s
  refine ⟨append_regSel _ _ _, ?_⟩
  rw [← zext128_regDefault]
  exact exec_of_ok rfl

/-! ## RDEC (R152) -/

/-- A register has at most eight lanes (R151). -/
theorem regLanes_length_le (reg : Reg) : (regLanes reg).length ≤ 8 := by
  have h := tilesFrom_length (tables_tiles reg)
  rwa [Nat.zero_add] at h

/-- Settles O13: the lanes of the decoded byte, packed. -/
theorem rdecResult : Obligations.RdecResult := by
  unfold Obligations.RdecResult
  intro reg s
  refine ⟨append_regSel _ _ _, packBytes (decodeLanes tables (regLanes reg) (byteAt s.cmd.a 0)), exec_of_ok rfl,
    fun i l hl => ?_, fun k hk => packBytes_high _ k (by rwa [decodeLanes, List.length_map])⟩
  have hi : i < (regLanes reg).length := (List.getElem?_eq_some_iff.mp hl).1
  have hlen := regLanes_length_le reg
  rw [packBytes_byte _ _ (by omega), decodeLanes_getD hl, laneSpan_tables,
    getSpan_toNat_lane (lane_ok reg l (List.mem_of_getElem? hl)), byteAt_toNat]

/-! ## RENC (R153) -/

/-- Encoding fails where some lane does not fit. -/
theorem encodeLanes_badOperand {T : DeviceTables} {a : Operand} {ls : List Lane} {i k : Nat} {l : Lane} {raw : Byte}
    (hl : ls[k]? = some l) (h : fitsSpan (laneSpan T l) (byteAt a (i + k)) = false) :
    encodeLanes T a ls i raw = .error .badOperand := by
  induction ls generalizing i k raw with
  | nil => cases hl
  | cons l' ls ih =>
    rw [encodeLanes]
    split
    · next hfit =>
      cases k with
      | zero =>
        obtain rfl : l' = l := by simpa using hl
        exact absurd h (by simp [hfit])
      | succ k => exact ih (k := k) (by simpa using hl) (by rwa [show i + 1 + k = i + (k + 1) by omega])
    · rfl

/-- An operand's lane fits a register's lane (R153). -/
theorem fitsSpan_regLane_iff {reg : Reg} {i : Nat} {l : Lane} (hl : (regLanes reg)[i]? = some l) (a : Operand) :
    fitsSpan (laneSpan tables l) (byteAt a i) = true ↔ operandLane a i < laneSize l := by
  rw [laneSpan_tables, fitsSpan_lane_iff (lane_ok reg l (List.mem_of_getElem? hl)), byteAt_toNat]

/-- Settles O14: encoding lane by lane succeeds exactly where every lane fits, and the lanes tile the byte. -/
theorem rencResult : Obligations.RencResult := by
  unfold Obligations.RencResult
  intro reg s
  refine ⟨append_regSel _ _ _, fun hfits => ?_, ?_⟩
  · obtain ⟨raw, hraw⟩ := encodeLanes_ok_of_fits (T := tables) (ls := regLanes reg) (raw := 0#8) fun k l hl => by
      rw [Nat.zero_add]
      exact (fitsSpan_regLane_iff hl s.cmd.a).mpr (hfits k l hl)
    refine ⟨raw, exec_of_ok (rencReply_eq_ok_iff.mpr ⟨raw, hraw, rfl⟩), fun i l hl => ?_⟩
    have hlane := (encodeLanes_spec (tables_tiles reg) hraw).2 i l hl
    rw [← getSpan_toNat_lane (lane_ok reg l (List.mem_of_getElem? hl)), ← laneSpan_tables, hlane, Nat.zero_add,
      byteAt_toNat]
  · rintro ⟨i, l, hl, hwide⟩
    have hfit : fitsSpan (laneSpan tables l) (byteAt s.cmd.a (0 + i)) = false := by
      rw [Nat.zero_add, Bool.eq_false_iff, ne_eq, fitsSpan_regLane_iff hl]
      omega
    have hreply : rencReply tables reg s.cmd.a = .error .badOperand := by
      rw [rencReply, encodeLanes_badOperand (ls := tables.regLanes reg) hl hfit]
    exact exec_of_error hreply rfl

/-! ## RCHK (R155) -/

/-- Some field of the register holds an undefined code in the raw byte. -/
def HoldsMalformed (reg : Reg) (raw : Nat) : Prop := ∃ f, fieldReg f = reg ∧ malformedCode f (codeIn f raw)

/-- Some field of the register holds a reserved member in the raw byte. -/
def HoldsReserved (reg : Reg) (raw : Nat) : Prop := ∃ f, fieldReg f = reg ∧ reservedMember f (codeIn f raw)

/-- A check fails on any undefined code among the fields. -/
theorem checkFields_of_undefined {T : DeviceTables} {raw : Byte} {fs : List Field} {f : Field} (hf : f ∈ fs)
    (h : isUndefinedCode T f (fieldCodeIn T f raw).toNat = true) : checkFields T raw fs = .error .malformedRegister := by
  induction fs with
  | nil => cases hf
  | cons g fs ih =>
    rw [checkFields]
    split
    · rfl
    · next hg =>
      rcases List.mem_cons.mp hf with rfl | hmem
      · exact absurd h hg
      · rw [ih hmem]

/-- With every code defined, a check says whether one of them is a reserved member. -/
theorem checkFields_of_defined {T : DeviceTables} {raw : Byte} {fs : List Field}
    (h : ∀ f ∈ fs, ¬ isUndefinedCode T f (fieldCodeIn T f raw).toNat = true) :
    checkFields T raw fs = .ok (fs.any fun f => isReservedMember T f (fieldCodeIn T f raw).toNat) := by
  induction fs with
  | nil => rfl
  | cons f fs ih =>
    rw [checkFields, if_neg (h f List.mem_cons_self), ih fun g hg => h g (List.mem_cons_of_mem _ hg)]
    rfl

theorem checkReg_of_malformed {reg : Reg} {raw : Byte} (h : HoldsMalformed reg raw.toNat) :
    checkReg tables reg raw = .error .malformedRegister := by
  obtain ⟨f, hf, hcode⟩ := h
  exact checkFields_of_undefined ((mem_regFields reg f).mpr hf) ((isUndefinedCode_fieldCodeIn_iff f raw).mpr hcode)

/-- A register with every code defined passes, and the check says whether it holds a reserved member. -/
theorem checkReg_of_defined {reg : Reg} {raw : Byte} (h : ¬ HoldsMalformed reg raw.toNat) :
    ∃ seen, checkReg tables reg raw = .ok seen ∧ (seen = true ↔ HoldsReserved reg raw.toNat) := by
  refine ⟨_, checkFields_of_defined fun f hf hcode => h ?_, ?_⟩
  · exact ⟨f, (mem_regFields reg f).mp hf, (isUndefinedCode_fieldCodeIn_iff f raw).mp hcode⟩
  · simp only [List.any_eq_true, mem_regFields, isReservedMember_fieldCodeIn_iff, HoldsReserved]

/-- The result of RCHK as a number (R127). -/
theorem checkResult_eq (echo : Half) (seen : Bool) :
    checkResult echo seen = BitVec.ofNat 128 (echo.toNat + if seen = true then 65536 else 0) :=
  zext128_flag (by omega) echo seen

/-- The register one address up (R102). -/
theorem nextReg_of_regCode {lo hi : Reg} (h : (regCode hi).toNat = (regCode lo).toNat + 1) : nextReg tables lo = some hi := by
  have hfind : (nextReg tables lo).isSome = true :=
    List.find?_isSome.mpr ⟨hi, mem_allRegs hi, beq_iff_eq.mpr h⟩
  obtain ⟨r, hr⟩ := Option.isSome_iff_exists.mp hfind
  have hsome : ((regCode r).toNat == (regCode lo).toNat + 1) = true :=
    List.find?_some (p := fun r' => (regCode r').toNat == (regCode lo).toNat + 1) hr
  have hcode := beq_iff_eq.mp hsome
  rw [hr, regCode_injective (BitVec.eq_of_toNat_eq (hcode.trans h.symm))]

/-- The raw bytes of a pair as one number (R126). -/
theorem le16_byteAt_toNat (a : Operand) : (le16 (byteAt a 0) (byteAt a 1)).toNat = a.toNat % 65536 := by
  have hlo : operandLane a 0 = a.toNat % 256 := by simp [operandLane]
  have hhi : operandLane a 1 = a.toNat / 256 % 256 := rfl
  have h : operandLane a 1 * 256 + operandLane a 0 = a.toNat % 65536 := by omega
  rw [le16, BitVec.toNat_append, byteAt_toNat, byteAt_toNat, ← h, Nat.shiftLeft_eq, Nat.mul_comm]
  exact (Nat.two_pow_add_eq_or_of_lt (by omega : operandLane a 0 < 2 ^ 8) _).symm

theorem checkSingle_of_malformed {reg : Reg} {raw : Byte} (h : HoldsMalformed reg raw.toNat) :
    checkSingle tables reg raw = .error .malformedRegister := by
  rw [checkSingle, checkReg_of_malformed h]

/-- RCHK of one register with every code defined: the raw byte echoed, and the flag. -/
theorem checkSingle_of_defined {reg : Reg} {raw : Byte} (h : ¬ HoldsMalformed reg raw.toNat) :
    ∃ seen, checkSingle tables reg raw = .ok (BitVec.ofNat 128 (raw.toNat + if seen = true then 65536 else 0)) ∧
      (seen = true ↔ HoldsReserved reg raw.toNat) := by
  obtain ⟨seen, hcheck, hseen⟩ := checkReg_of_defined h
  refine ⟨seen, ?_, hseen⟩
  rw [checkSingle, hcheck]
  change Except.ok (checkResult (raw.setWidth 16) seen) = _
  rw [checkResult_eq, BitVec.toNat_setWidth_of_le (by omega)]

theorem checkPair_of_malformed {lo hi : Reg} (hnext : nextReg tables lo = some hi) {x y : Byte}
    (h : HoldsMalformed lo x.toNat ∨ HoldsMalformed hi y.toNat) : checkPair tables lo x y = .error .malformedRegister := by
  rw [checkPair]
  by_cases hlo : HoldsMalformed lo x.toNat
  · rw [checkReg_of_malformed hlo]
  · obtain ⟨seen, hcheck, -⟩ := checkReg_of_defined hlo
    rw [hcheck, hnext, Option.map_some, checkReg_of_malformed (h.resolve_left hlo)]

/-- RCHK of a pair with every code defined: the composite echoed, and one flag for both registers. -/
theorem checkPair_of_defined {lo hi : Reg} (hnext : nextReg tables lo = some hi) {x y : Byte}
    (hx : ¬ HoldsMalformed lo x.toNat) (hy : ¬ HoldsMalformed hi y.toNat) :
    ∃ seen, checkPair tables lo x y = .ok (BitVec.ofNat 128 ((le16 x y).toNat + if seen = true then 65536 else 0)) ∧
      (seen = true ↔ HoldsReserved lo x.toNat ∨ HoldsReserved hi y.toNat) := by
  obtain ⟨seenLo, hcheckLo, hseenLo⟩ := checkReg_of_defined hx
  obtain ⟨seenHi, hcheckHi, hseenHi⟩ := checkReg_of_defined hy
  refine ⟨seenLo || seenHi, ?_, by rw [Bool.or_eq_true, hseenLo, hseenHi]⟩
  rw [checkPair, hcheckLo, hnext, Option.map_some, hcheckHi, ← checkResult_eq]

/-- The three outcomes of RCHK of one register. -/
theorem exec_rchk_single (reg : Reg) (s : State) :
    (HoldsMalformed reg (operandLane s.cmd.a 0) →
      exec (.rchk false reg) s = .next (s.push { status := 3#4, q := 0#128 })) ∧
    (¬ HoldsMalformed reg (operandLane s.cmd.a 0) →
      (HoldsReserved reg (operandLane s.cmd.a 0) →
        exec (.rchk false reg) s =
          .next (s.push { status := 0#4, q := BitVec.ofNat 128 (operandLane s.cmd.a 0 + 65536) })) ∧
      (¬ HoldsReserved reg (operandLane s.cmd.a 0) →
        exec (.rchk false reg) s = .next (s.push { status := 0#4, q := BitVec.ofNat 128 (operandLane s.cmd.a 0) }))) := by
  rw [← byteAt_toNat]
  refine ⟨fun h => exec_of_error (checkSingle_of_malformed h) rfl, fun h => ?_⟩
  obtain ⟨seen, hreply, hseen⟩ := checkSingle_of_defined h
  exact exec_of_flagged hseen hreply

/-- The three outcomes of RCHK of a pair. -/
theorem exec_rchk_pair {lo hi : Reg} (hcode : (regCode hi).toNat = (regCode lo).toNat + 1) (s : State) :
    (HoldsMalformed lo (operandLane s.cmd.a 0) ∨ HoldsMalformed hi (operandLane s.cmd.a 1) →
      exec (.rchk true lo) s = .next (s.push { status := 3#4, q := 0#128 })) ∧
    (¬ HoldsMalformed lo (operandLane s.cmd.a 0) → ¬ HoldsMalformed hi (operandLane s.cmd.a 1) →
      (HoldsReserved lo (operandLane s.cmd.a 0) ∨ HoldsReserved hi (operandLane s.cmd.a 1) →
        exec (.rchk true lo) s =
          .next (s.push { status := 0#4, q := BitVec.ofNat 128 (s.cmd.a.toNat % 65536 + 65536) })) ∧
      (¬ (HoldsReserved lo (operandLane s.cmd.a 0) ∨ HoldsReserved hi (operandLane s.cmd.a 1)) →
        exec (.rchk true lo) s =
          .next (s.push { status := 0#4, q := BitVec.ofNat 128 (s.cmd.a.toNat % 65536) }))) := by
  have hnext := nextReg_of_regCode hcode
  rw [← byteAt_toNat, ← byteAt_toNat, ← le16_byteAt_toNat]
  refine ⟨fun h => exec_of_error (checkPair_of_malformed hnext h) rfl, fun hx hy => ?_⟩
  obtain ⟨seen, hreply, hseen⟩ := checkPair_of_defined hnext hx hy
  exact exec_of_flagged hseen hreply

/-- The selector of RCHK: the pair bit, two zeros, the register (R122). -/
theorem encode_rchk (dual : Bool) (reg : Reg) :
    encode (.rchk dual reg) = 0x04#8 ++ BitVec.ofBool dual ++ 0#2 ++ regCode reg := by
  have hdual : 0x04#8 ++ (BitVec.ofBool dual ++ 0#2) = 0x04#8 ++ BitVec.ofBool dual ++ 0#2 := BitVec.append_assoc.symm
  exact (append_regSel _ _ _).trans (congrArg (· ++ regCode reg) hdual)

/-- Settles O16: RCHK of one register and of a pair. -/
theorem rchkResult : Obligations.RchkResult := by
  unfold Obligations.RchkResult
  refine ⟨encode_rchk, fun reg s => ?_, fun lo hi s _ hcode => ?_⟩
  · obtain ⟨hbad, hgood⟩ := exec_rchk_single reg s
    refine ⟨hbad, fun hdef => ?_⟩
    obtain ⟨hres, hplain⟩ := hgood fun ⟨f, hf, hcode⟩ => hdef f hf hcode
    exact ⟨hres, fun hnone => hplain fun ⟨f, hf, hcode⟩ => hnone f hf hcode⟩
  · obtain ⟨hbad, hgood⟩ := exec_rchk_pair hcode s
    refine ⟨fun h => hbad (exists_or.mp h), fun hdef => ?_⟩
    obtain ⟨hres, hplain⟩ := hgood (fun ⟨f, hf, hcode⟩ => (hdef f).1 hf hcode) fun ⟨f, hf, hcode⟩ => (hdef f).2 hf hcode
    refine ⟨fun h => hres (exists_or.mp h), fun hnone => hplain ?_⟩
    rintro (⟨f, hf, hcode⟩ | ⟨f, hf, hcode⟩)
    · exact (hnone f).1 hf hcode
    · exact (hnone f).2 hf hcode

/-! ## FGET (R156) -/

theorem fgetReply_of_malformed {f : Field} {a : Operand} (h : malformedCode f (codeIn f (operandLane a 0))) :
    fgetReply tables f a = .error .malformedRegister := by
  rw [← byteAt_toNat, ← isUndefinedCode_fieldCodeIn_iff] at h
  exact if_pos h

/-- FGET of a defined code: the code, and the `rsv` flag above it. -/
theorem fgetReply_of_defined {f : Field} {a : Operand} (h : ¬ malformedCode f (codeIn f (operandLane a 0))) :
    fgetReply tables f a =
      .ok (BitVec.ofNat 128
        (codeIn f (operandLane a 0) + if reservedMember f (codeIn f (operandLane a 0)) then 256 else 0)) := by
  rw [← byteAt_toNat] at h ⊢
  have hdef := mt (isUndefinedCode_fieldCodeIn_iff f (byteAt a 0)).mp h
  refine (if_neg hdef).trans ?_
  rw [zext128_flag (by omega), fieldCodeIn_toNat]
  simp only [← isReservedMember_fieldCodeIn_iff, fieldCodeIn_toNat, Nat.reducePow]

/-- Settles O17: FGET of an undefined code and of a defined one, a reserved member being defined. -/
theorem fgetResult : Obligations.FgetResult := by
  unfold Obligations.FgetResult
  intro f s
  have hgood (hdef : ¬ malformedCode f (codeIn f (operandLane s.cmd.a 0))) :=
    exec_of_flagged (i := .fget f) (s := s) .rfl (fgetReply_of_defined hdef)
  refine ⟨append_fieldSel _ _ _, fun hbad => exec_of_error (fgetReply_of_malformed hbad) rfl, fun hres => ?_,
    fun hdef hnone => ?_⟩
  · obtain ⟨hflag, -⟩ := hgood (not_malformedCode_of_reservedMember hres)
    exact hflag hres
  · obtain ⟨-, hplain⟩ := hgood hdef
    exact hplain hnone

/-! ## FSET (R157) -/

/-- A number is what it holds below, in and above the bits `lo + w - 1 : lo`. -/
theorem nat_eq_of_bit_field (n lo w : Nat) :
    n = n % 2 ^ lo + n / 2 ^ lo % 2 ^ w * 2 ^ lo + n / 2 ^ (lo + w) * 2 ^ (lo + w) := by
  calc n = n % 2 ^ lo + n / 2 ^ lo * 2 ^ lo := (Nat.mod_add_div' n _).symm
    _ = n % 2 ^ lo + (n / 2 ^ lo % 2 ^ w + n / 2 ^ lo / 2 ^ w * 2 ^ w) * 2 ^ lo := by rw [Nat.mod_add_div' (n / 2 ^ lo)]
    _ = n % 2 ^ lo + n / 2 ^ lo % 2 ^ w * 2 ^ lo + n / 2 ^ (lo + w) * 2 ^ (lo + w) := by
      rw [Nat.div_div_eq_div_mul, pow_add]; ring

/-- An insertion changes no bit below the field. -/
theorem setSpan_mod {s : Span} (h : s.ok) (raw c : Byte) : (setSpan s raw c).toNat % 2 ^ s.lo = raw.toNat % 2 ^ s.lo := by
  apply Nat.eq_of_testBit_eq
  intro k
  simp only [Nat.testBit_mod_two_pow]
  by_cases hk : k < s.lo
  · have hbit := setSpan_getLsbD h raw c k (by omega)
    rw [if_neg (by omega)] at hbit
    exact congrArg _ hbit
  · simp [hk]

/-- An insertion changes no bit above the field. -/
theorem setSpan_div {s : Span} (h : s.ok) (raw c : Byte) :
    (setSpan s raw c).toNat / 2 ^ (s.lo + s.width) = raw.toNat / 2 ^ (s.lo + s.width) := by
  have hw := Span.lo_add_width h
  apply Nat.eq_of_testBit_eq
  intro k
  simp only [Nat.testBit_div_two_pow]
  change (setSpan s raw c).getLsbD _ = raw.getLsbD _
  by_cases hk : k + (s.lo + s.width) < 8
  · rw [setSpan_getLsbD h raw c _ hk, if_neg (by omega)]
  · rw [BitVec.getLsbD_of_ge _ _ (by omega), BitVec.getLsbD_of_ge _ _ (by omega)]

/-- `with_field(F, raw, c)` as a number: the field's old code out, the new one in (R26). -/
theorem setSpan_toNat {s : Span} (h : s.ok) (raw : Byte) {c : Byte} (hc : fitsSpan s c = true) :
    (setSpan s raw c).toNat = raw.toNat - raw.toNat / 2 ^ s.lo % 2 ^ s.width * 2 ^ s.lo + c.toNat * 2 ^ s.lo := by
  have hnew := nat_eq_of_bit_field (setSpan s raw c).toNat s.lo s.width
  have hold := nat_eq_of_bit_field raw.toNat s.lo s.width
  rw [setSpan_mod h, setSpan_div h, ← getSpan_toNat h, getSpan_setSpan_same h raw hc] at hnew
  omega

theorem setSpan_toNat_field (f : Field) (raw : Byte) {c : Byte} (hc : fitsSpan (fieldSpan f) c = true) :
    (setSpan (fieldSpan f) raw c).toNat = raw.toNat - codeIn f raw.toNat * fieldUnit f + c.toNat * fieldUnit f := by
  rw [setSpan_toNat (fieldSpan_ok f) raw hc, Span.width_eq (fieldSpan_ok f)]
  rfl

/-- FSET takes exactly the codes that fit and are defined. -/
theorem fsetAccepts_iff {f : Field} {c : Byte} :
    FsetAccepts tables f c ↔ c.toNat < fieldSize f ∧ ¬ malformedCode f c.toNat := by
  refine (and_congr_left' (fitsSpan_field_iff f c)).trans (and_congr_right fun hlt => ?_)
  rw [← isUndefinedCode_iff hlt, Bool.not_eq_true]

/-- FSET refuses every other code (R157). -/
theorem fsetReply_of_not_accepts {T : DeviceTables} {f : Field} {a : Operand} (h : ¬ FsetAccepts T f (byteAt a 1)) :
    fsetReply T f a = .error .badOperand := by
  unfold fsetReply
  by_cases hfit : fitsSpan (T.fieldSpan f) (byteAt a 1) = true
  · by_cases hdef : isUndefinedCode T f (byteAt a 1).toNat = true
    · simp [hfit, hdef]
    · exact absurd ⟨hfit, Bool.eq_false_iff.mpr hdef⟩ h
  · simp [hfit]

/-- Settles O18: FSET takes a code exactly where it fits and is defined, and then inserts it. -/
theorem fsetResult : Obligations.FsetResult := by
  unfold Obligations.FsetResult
  intro f s
  refine ⟨append_fieldSel _ _ _, fun hbad => ?_, fun hfit hdef => ?_⟩
  · refine exec_of_error (fsetReply_of_not_accepts (T := tables) fun hacc => ?_) rfl
    obtain ⟨hfit, hdef⟩ := fsetAccepts_iff.mp hacc
    rw [byteAt_toNat] at hfit hdef
    exact hbad.elim (Nat.not_le_of_lt hfit) hdef
  · rw [← byteAt_toNat] at hfit hdef
    have hacc := fsetAccepts_iff.mpr ⟨hfit, hdef⟩
    refine exec_of_ok (fsetReply_eq_ok_iff.mpr ⟨hacc, ?_⟩)
    rw [zext128_eq_ofNat, ← byteAt_toNat, ← byteAt_toNat]
    exact congrArg (BitVec.ofNat 128) (setSpan_toNat_field f _ hacc.1).symm

/-! ## The declared defaults (R159) -/

/-- Only registers without fields have a default other than 0 (R92). -/
theorem regDefault_fieldReg (f : Field) : regDefault (fieldReg f) = 0#8 := by
  cases f <;> rfl

theorem codeIn_zero (f : Field) : codeIn f 0 = 0 := by
  simp [codeIn]

/-- Code 0 is a defined code of every field, and no reserved member (R86). -/
theorem code_zero_defined (f : Field) : ¬ malformedCode f 0 ∧ ¬ reservedMember f 0 := by
  simp [malformedCode, reservedMember]

/-- RDEF's answer handed on as the data operand. -/
theorem byteAt_rdef_response (reg : Reg) (a : Operand) (s : State) :
    byteAt ((responseOf (.rdef reg) a s).q.setWidth 64) 0 = regDefault reg := by
  rw [responseOf_eq]
  exact byteAt_setWidth_zext128 (regDefault reg)

theorem not_holdsMalformed_regDefault (reg : Reg) : ¬ HoldsMalformed reg (regDefault reg).toNat := by
  rintro ⟨f, rfl, hcode⟩
  rw [regDefault_fieldReg, BitVec.toNat_zero, codeIn_zero] at hcode
  exact (code_zero_defined f).1 hcode

/-- Settles O20: every field of a default holds code 0, which is defined. -/
theorem defaultsDecodeToCodeZero : Obligations.DefaultsDecodeToCodeZero := by
  unfold Obligations.DefaultsDecodeToCodeZero
  refine ⟨fun reg s => ?_, fun f s => ?_⟩
  · have hbyte := byteAt_rdef_response reg 0#64 s
    generalize (responseOf (.rdef reg) 0#64 s).q.setWidth 64 = a at hbyte ⊢
    obtain ⟨seen, hreply, -⟩ := checkSingle_of_defined (not_holdsMalformed_regDefault reg)
    rw [← hbyte] at hreply
    rw [responseOf_eq]
    exact congrArg (fun r => (respond r).status) hreply
  · have hbyte := byteAt_rdef_response (fieldReg f) 0#64 s
    generalize (responseOf (.rdef (fieldReg f)) 0#64 s).q.setWidth 64 = a at hbyte ⊢
    have hcode : codeIn f (operandLane a 0) = 0 := by
      rw [← byteAt_toNat, hbyte, regDefault_fieldReg]
      exact codeIn_zero f
    obtain ⟨hdef, hnone⟩ := code_zero_defined f
    rw [← hcode] at hdef hnone
    have hreply := fgetReply_of_defined hdef
    rw [if_neg hnone, hcode] at hreply
    rw [responseOf_eq]
    exact congrArg respond hreply

end Sys2Proof.Machine

/-! O22, O23, O24. Splitting and composing a 16-bit composite (R170 to R173, R176) are one of two maps of its half, the
identity or the exchange of its bytes; and the write frame of a register (R174). -/

namespace Sys2Proof.Machine

/-! ## The bytes of a half (R103, R104) -/

theorem le16_toNat (b0 b1 : Byte) : (le16 b0 b1).toNat = b0.toNat + 256 * b1.toNat := by
  rw [le16, BitVec.toNat_append, Nat.shiftLeft_eq, Nat.mul_comm, ← Nat.two_pow_add_eq_or_of_lt b0.isLt, Nat.add_comm]

/-- A half is the little-endian composite of its bytes (R103). -/
theorem le16_extractLsb' (h : Half) : le16 (h.extractLsb' 0 8) (h.extractLsb' 8 8) = h :=
  (BitVec.extractLsb'_append_extractLsb'_eq_extractLsb' rfl).trans BitVec.extractLsb'_eq_self

/-- The half with its two bytes exchanged: its bytes in wire order, composed big-endian (R104). -/
def swapBytes (h : Half) : Half := be16 (h.extractLsb' 0 8) (h.extractLsb' 8 8)

/-- The two orders differ by the exchange of the bytes (R176). -/
theorem swapBytes_le16 (b0 b1 : Byte) : swapBytes (le16 b0 b1) = be16 b0 b1 := by
  rw [swapBytes, le16, BitVec.extractLsb'_append_eq_right, BitVec.extractLsb'_append_eq_left]

theorem swapBytes_involutive : Function.Involutive swapBytes := fun h =>
  calc swapBytes (swapBytes h)
      = swapBytes (le16 (h.extractLsb' 8 8) (h.extractLsb' 0 8)) := rfl
    _ = le16 (h.extractLsb' 0 8) (h.extractLsb' 8 8) := swapBytes_le16 _ _
    _ = h := le16_extractLsb' h

theorem swapBytes_toNat (h : Half) : (swapBytes h).toNat = h.toNat % 256 * 256 + h.toNat / 256 := by
  change (le16 (h.extractLsb' 8 8) (h.extractLsb' 0 8)).toNat = _
  simp only [le16_toNat, BitVec.extractLsb'_toNat, Nat.shiftRight_eq_div_pow]
  omega

/-! ## The half of an operand (R126) -/

theorem halfOf_toNat (a : Operand) : (halfOf a).toNat = a.toNat % 65536 := by
  simp [halfOf]

/-- The half of an operand is the little-endian composite of its two low bytes. -/
theorem le16_byteAt (a : Operand) : le16 (byteAt a 0) (byteAt a 1) = halfOf a :=
  BitVec.eq_of_toNat_eq ((le16_byteAt_toNat a).trans (halfOf_toNat a).symm)

theorem be16_byteAt (a : Operand) : be16 (byteAt a 0) (byteAt a 1) = swapBytes (halfOf a) := by
  rw [← le16_byteAt, swapBytes_le16]

theorem halfOf_setWidth (h : Half) : halfOf (h.setWidth 64) = h := by
  apply BitVec.eq_of_toNat_eq
  rw [halfOf_toNat, BitVec.toNat_setWidth_of_le (by omega)]
  exact Nat.mod_eq_of_lt h.isLt

/-- A half put on the port and handed on as the data operand is the half handed on itself (R105). -/
theorem setWidth_zext128_half (h : Half) : (zext128 h).setWidth 64 = h.setWidth 64 :=
  BitVec.setWidth_setWidth_of_le h (by omega)

/-- Two packed bytes are their little-endian composite (R103, R105). -/
theorem packBytes_pair_eq_zext128 (b0 b1 : Byte) : packBytes [b0, b1] = zext128 (le16 b0 b1) := by
  rw [packBytes_pair, zext128_eq_ofNat, le16_toNat]

/-! ## Composing and splitting (R170 to R173) -/

/-- The instruction answers its operand's half mapped by `f`. -/
def MapsHalf (i : Instr) (f : Half → Half) : Prop :=
  ∀ t a, replyOf t a i = .ok (zext128 (f (halfOf a)))

theorem pk16le_mapsHalf : MapsHalf .pk16le id := by
  intro _ a
  rw [replyOf, pk16leReply, le16_byteAt, id]

theorem pk16be_mapsHalf : MapsHalf .pk16be swapBytes := by
  intro _ a
  rw [replyOf, pk16beReply, be16_byteAt]

theorem up16le_mapsHalf : MapsHalf .up16le id := by
  intro _ a
  rw [replyOf, up16leReply, packBytes_pair_eq_zext128, le16_extractLsb', id]

theorem up16be_mapsHalf : MapsHalf .up16be swapBytes := by
  intro _ a
  rw [replyOf, up16beReply, packBytes_pair_eq_zext128]
  rfl

theorem zext128_halfOf (a : Operand) : zext128 (halfOf a) = BitVec.ofNat 128 (a.toNat % 65536) := by
  rw [zext128_eq_ofNat, halfOf_toNat]

theorem zext128_swapBytes_halfOf (a : Operand) :
    zext128 (swapBytes (halfOf a)) = BitVec.ofNat 128 (a.toNat % 256 * 256 + a.toNat / 256 % 256) := by
  have hlow : a.toNat % 65536 % 256 = a.toNat % 256 := by omega
  have hhigh : a.toNat % 65536 / 256 = a.toNat / 256 % 256 := by omega
  rw [zext128_eq_ofNat, swapBytes_toNat, halfOf_toNat, hlow, hhigh]

/-- Settles O22: each operation keeps the half or exchanges its bytes. -/
theorem compositionResults : Obligations.CompositionResults := by
  unfold Obligations.CompositionResults
  intro s
  rw [← zext128_halfOf, ← zext128_swapBytes_halfOf]
  exact ⟨⟨rfl, rfl, rfl, rfl⟩, exec_of_ok (pk16le_mapsHalf _ _), exec_of_ok (pk16be_mapsHalf _ _),
    exec_of_ok (up16le_mapsHalf _ _), exec_of_ok (up16be_mapsHalf _ _)⟩

/-! ## Both ways round (R176) -/

theorem MapsHalf.responseOf_setWidth {i : Instr} {f : Half → Half} (hi : MapsHalf i f) (h : Half) (s : State) :
    responseOf i (h.setWidth 64) s = { status := 0#4, q := zext128 (f h) } := by
  rw [responseOf_eq, hi, halfOf_setWidth, respond_ok]

/-- One instruction after another, the result of the first handed on as the operand of the second. -/
theorem MapsHalf.roundTrip {i j : Instr} {f g : Half → Half} (hi : MapsHalf i f) (hj : MapsHalf j g)
    (hgf : Function.LeftInverse g f) (h : Half) (s : State) :
    responseOf j ((responseOf i (h.setWidth 64) s).q.setWidth 64) s = { status := 0#4, q := zext128 h } := by
  rw [hi.responseOf_setWidth, setWidth_zext128_half, hj.responseOf_setWidth, hgf]

theorem pk16be_eq_pk16le_swapped (b0 b1 : Byte) (s : State) :
    responseOf .pk16be ((b1 ++ b0).setWidth 64) s = responseOf .pk16le ((b0 ++ b1).setWidth 64) s := by
  have hswap : swapBytes (b1 ++ b0) = b0 ++ b1 := swapBytes_le16 b0 b1
  rw [pk16be_mapsHalf.responseOf_setWidth, pk16le_mapsHalf.responseOf_setWidth, hswap, id]

/-- Settles O23: the exchange of the bytes is its own inverse. -/
theorem compositionRoundTrip : Obligations.CompositionRoundTrip := by
  unfold Obligations.CompositionRoundTrip
  intro b0 b1 h s
  have hid : Function.LeftInverse (id : Half → Half) id := fun _ => rfl
  exact ⟨pk16le_mapsHalf.roundTrip up16le_mapsHalf hid _ s,
    pk16be_mapsHalf.roundTrip up16be_mapsHalf swapBytes_involutive _ s,
    up16le_mapsHalf.roundTrip pk16le_mapsHalf hid h s,
    up16be_mapsHalf.roundTrip pk16be_mapsHalf swapBytes_involutive h s,
    pk16be_eq_pk16le_swapped b0 b1 s⟩

/-! ## Write frames (R174) -/

/-- WFRM of a read-write register: pointer byte and value. -/
theorem exec_wfrm_readWrite {reg : Reg} (h : (regCode reg).toNat < 0x0D) (s : State) :
    exec (.wfrm reg) s =
      .next (s.push { status := 0#4, q := BitVec.ofNat 128 ((regCode reg).toNat + 256 * (s.cmd.a.toNat % 256)) }) := by
  have hrw : ¬ isReadOnly tables reg = true := by simp [isReadOnly_tables, h]
  have hvalue : (byteAt s.cmd.a 0).toNat = s.cmd.a.toNat % 256 := by simp [byteAt_toNat, operandLane]
  apply exec_of_ok
  rw [replyOf, wfrmReply, if_neg hrw, packBytes_pair, addrByte_toNat, hvalue]

/-- WFRM of a read-only register: BadOperand. -/
theorem exec_wfrm_readOnly {reg : Reg} (h : 0x0D ≤ (regCode reg).toNat) (s : State) :
    exec (.wfrm reg) s = .next (s.push { status := 10#4, q := 0#128 }) := by
  have hro : isReadOnly tables reg = true := by simp [isReadOnly_tables, h]
  exact exec_of_error (if_pos hro) rfl

/-- Settles O24: by the register's access (R24). -/
theorem wfrmResult : Obligations.WfrmResult := by
  unfold Obligations.WfrmResult
  exact fun reg s => ⟨append_regSel _ _ _, fun h => exec_wfrm_readWrite h s, fun h => exec_wfrm_readOnly h s⟩

end Sys2Proof.Machine

/-! O28, O29, O26, O27. The two identity checks on any operand (R191, R192), which read the bytes a construction hands them,
and the lookups that answer from the variant or the range alone (R185 to R188). -/

namespace Sys2Proof.Machine

/-! ## MIDCHK (R191) -/

/-- MIDCHK reads two bytes of the operand. -/
theorem midchkReply_eq_operandOf (a : Operand) : midchkReply a = midchkReply (operandOf [byteAt a 0, byteAt a 1]) := by
  have h0 : byteAt (operandOf [byteAt a 0, byteAt a 1]) 0 = byteAt a 0 := byteAt_operandOf _ _ (by omega)
  have h1 : byteAt (operandOf [byteAt a 0, byteAt a 1]) 1 = byteAt a 1 := byteAt_operandOf _ _ (by omega)
  rw [midchkReply, midchkReply, h0, h1]

/-- MIDCHK of any operand, its bytes as numbers. -/
theorem midchkReply_eq (a : Operand) :
    midchkReply a =
      if a.toNat % 256 = 0x49 ∧ a.toNat / 256 % 256 = 0x54 then .ok (zext128 manufacturerId) else .error .wrongDevice := by
  rw [midchkReply_eq_operandOf, midchkReply_operandOf]
  simp [← BitVec.toNat_inj, byteAt_toNat, operandLane]

/-- Settles O28: by whether the two bytes are the manufacturer id's. -/
theorem midchkResult : Obligations.MidchkResult := by
  unfold Obligations.MidchkResult
  intro s
  have hreply := midchkReply_eq s.cmd.a
  refine ⟨rfl, fun hid => exec_of_ok ?_, fun hid => exec_of_error (hreply.trans (if_neg hid)) rfl⟩
  exact hreply.trans (if_pos hid)

/-! ## DIDCHK (R192) -/

/-- An instruction word in the variant format, read without brackets (R122). -/
theorem append_variantSel (op : Byte) (x : BitVec 5) (c : BitVec 3) : op ++ (x ++ c) = op ++ x ++ c :=
  BitVec.append_assoc.symm

/-- DIDCHK reads one byte of the operand. -/
theorem didchkReply_eq_operandOf (v : Variant) (a : Operand) :
    didchkReply tables v a = didchkReply tables v (operandOf [byteAt a 0]) := by
  have h0 : byteAt (operandOf [byteAt a 0]) 0 = byteAt a 0 := byteAt_operandOf _ _ (by omega)
  rw [didchkReply, didchkReply, h0]

/-- DIDCHK of any operand: bits 1:0 of the byte are bits 1:0 of the operand, and bits 7:2 do not matter. -/
theorem didchkReply_eq (v : Variant) (a : Operand) :
    didchkReply tables v a =
      if a.toNat % 4 = 1 + (variantCode v).toNat % 2 then .ok (zext128 (classDeviceId (variantClass v)))
      else .error .wrongDevice := by
  have hlow : (byteAt a 0).toNat % 4 = a.toNat % 4 := by
    rw [byteAt_toNat, operandLane]
    omega
  rw [didchkReply_eq_operandOf, didchkReply_operandOf, hlow]

/-- The expected id on the port: 1 plus the class bit (R88, R186). -/
theorem zext128_classDeviceId (v : Variant) :
    zext128 (classDeviceId (variantClass v)) = BitVec.ofNat 128 (1 + (variantCode v).toNat % 2) := by
  cases v <;> rfl

/-- Settles O29: a VER that passes is the expected id. -/
theorem didchkResult : Obligations.DidchkResult := by
  unfold Obligations.DidchkResult
  intro v s
  have hreply := didchkReply_eq v s.cmd.a
  refine ⟨append_variantSel _ _ _, fun hver => exec_of_ok ?_, fun hver => exec_of_error (hreply.trans (if_neg hver)) rfl⟩
  rw [hver, ← zext128_classDeviceId]
  exact hreply.trans (if_pos hver)

/-! ## The lookups (R185 to R188) -/

theorem zext128_variantAddr (v : Variant) :
    zext128 (variantAddr v) = BitVec.ofNat 128 ([0x35, 0x22, 0x78, 0x44].getD ((variantCode v).toNat / 2) 0) := by
  cases v <;> rfl

/-- The class bit of a variant is the low bit of its code (R88). -/
theorem zext128_classCode (v : Variant) :
    zext128 (classCode (variantClass v)) = BitVec.ofNat 128 ((variantCode v).toNat % 2) := by
  cases v <;> rfl

/-- Settles O26: the variant's address, expected id and class, by its code. -/
theorem variantLookupResults : Obligations.VariantLookupResults := by
  unfold Obligations.VariantLookupResults
  intro v s
  rw [← zext128_variantAddr, ← zext128_classDeviceId, ← zext128_classCode]
  exact ⟨⟨append_variantSel _ _ _, append_variantSel _ _ _, append_variantSel _ _ _⟩,
    exec_of_ok rfl, exec_of_ok rfl, exec_of_ok rfl⟩

theorem rangeF32_finite (c : RangeClass) (r : RangeBit) : f32Finite (rangeF32 c r) := by
  cases c <;> cases r <;> decide

/-- The patterns of R188 are the ranges of R90. -/
theorem f32Units_rangeF32 (c : RangeClass) (r : RangeBit) : f32Units (rangeF32 c r) = rangeMt c r * f32One := by
  cases c <;> cases r <;> rfl

/-- The selector of VRNG: four zeros, class, range bit, two zeros (R122). -/
theorem encode_vrng (c : RangeClass) (r : RangeBit) :
    encode (.vrng c r) = 0x13#8 ++ 0#4 ++ classCode c ++ rangeBitCode r ++ 0#2 := by
  cases c <;> cases r <;> rfl

/-- Settles O27: the range's own pattern. -/
theorem vrngResult : Obligations.VrngResult := by
  unfold Obligations.VrngResult
  intro c r s
  exact ⟨encode_vrng c r, rangeF32 c r, exec_of_ok rfl, rangeF32_finite c r, f32Units_rangeF32 c r⟩

end Sys2Proof.Machine

/-! O30, O31, O35, O32, O33, O34, O54. The fields a guard looks at, as numbers of the operand; the guards on MAG_CH_EN by
its code (R69, R200 to R202, R206) and on the enable fields (R203 to R205); then the getters whose guard faults (R295). -/

namespace Sys2Proof.Machine

/-! ## The fields the guards look at, as numbers (R126) -/

/-- The low bits of a field's code in a byte of the operand. -/
theorem fieldCodeIn_byteAt_toNat (f : Field) (a : Operand) (k w : Nat) :
    ((fieldCodeIn tables f (byteAt a k)).extractLsb' 0 w).toNat = codeIn f (operandLane a k) % 2 ^ w := by
  rw [BitVec.extractLsb'_toNat, fieldCodeIn_toNat, byteAt_toNat, Nat.shiftRight_zero]

/-- A field in `sc` is read from the operand's byte 0 or 1, by its register. -/
theorem scField_halfOf (f : Field) (a : Operand) :
    scField tables f (halfOf a) = fieldCodeIn tables f (byteAt a (if fieldReg f = .sensorConfig1 then 0 else 1)) := by
  rw [scField, fieldCodeIn, ← le16_byteAt, le16, BitVec.extractLsb'_append_eq_right, BitVec.extractLsb'_append_eq_left]
  exact congrArg _ (apply_ite (byteAt a) _ 0 1).symm

/-- The code of MAG_CH_EN in an operand: `sc[7:4]`. -/
abbrev channelCode (a : Operand) : Nat := a.toNat / 16 % 16

theorem scChannels_toNat (a : Operand) : (scChannels tables (halfOf a)).toNat = channelCode a := by
  rw [scChannels, scField_halfOf, fieldCodeIn_byteAt_toNat]
  change a.toNat / 1 % 256 / 16 % 16 % 16 = a.toNat / 16 % 16
  omega

theorem scAngle_toNat (a : Operand) : (scAngle tables (halfOf a)).toNat = a.toNat / 1024 % 4 := by
  rw [scAngle, scField_halfOf, fieldCodeIn_byteAt_toNat]
  change a.toNat / 256 % 256 / 4 % 4 % 4 = _
  omega

theorem scXYRange_toNat (a : Operand) : (scXYRange tables (halfOf a)).toNat = a.toNat / 512 % 2 := by
  rw [scXYRange, scField_halfOf, fieldCodeIn_byteAt_toNat]
  change a.toNat / 256 % 256 / 2 % 2 % 2 = _
  omega

theorem scZRange_toNat (a : Operand) : (scZRange tables (halfOf a)).toNat = a.toNat / 256 % 2 := by
  rw [scZRange, scField_halfOf, fieldCodeIn_byteAt_toNat]
  change a.toNat / 256 % 256 / 1 % 2 % 2 = _
  omega

/-! ## The codes of MAG_CH_EN (R69) -/

/-- The enabled set of a defined code (R69): bit 0 = X, bit 1 = Y, bit 2 = Z. -/
def enabledSet (code : Nat) : BitVec 3 := BitVec.ofNat 3 ([0, 1, 2, 3, 4, 5, 6, 7, 3, 3, 6, 5].getD code 0)

/-- The model computes the set from the measured axes; the reserved members have none. -/
theorem channelSet_eq : ∀ c : BitVec 4,
    channelSet tables c = if 0xC ≤ c.toNat then none else some (enabledSet c.toNat) := by
  decide

theorem channelsOff_iff : ∀ c : BitVec 4, channelsOff tables c = true ↔ c.toNat = 0 := by
  decide

theorem isAllThree_iff : ∀ c : BitVec 4, isAllThree tables c = true ↔ c.toNat = 7 := by
  decide

/-- A set on the port is its entry in the table. -/
theorem zext128_enabledSet : ∀ code < 0xC,
    zext128 (enabledSet code) = BitVec.ofNat 128 ([0, 1, 2, 3, 4, 5, 6, 7, 3, 3, 6, 5].getD code 0) := by
  decide

/-- The codes whose set leaves an axis out, as R200 lists them. -/
def codesWithout : Axis → List Nat
  | .x => [2, 4, 6, 0xA]
  | .y => [1, 4, 5, 0xB]
  | .z => [1, 2, 3, 8, 9]

/-- The other defined codes but 0. -/
def codesWith : Axis → List Nat
  | .x => [1, 3, 5, 7, 8, 9, 0xB]
  | .y => [2, 3, 6, 7, 8, 9, 0xA]
  | .z => [4, 5, 6, 7, 0xA, 0xB]

theorem axisIn_of_mem_codesWithout (axis : Axis) :
    ∀ code ∈ codesWithout axis, 0 < code ∧ code < 0xC ∧ axisIn axis (enabledSet code) = false := by
  cases axis <;> decide

theorem axisIn_of_mem_codesWith (axis : Axis) :
    ∀ code ∈ codesWith axis, 0 < code ∧ code < 0xC ∧ axisIn axis (enabledSet code) = true := by
  cases axis <;> decide

/-- Only code 7 measures all three axes. -/
theorem axisIn_all_iff : ∀ code < 0xC, (∀ axis, axisIn axis (enabledSet code) = true) ↔ code = 7 := by
  have hsets : ∀ code < 0xC,
      (axisIn .x (enabledSet code) = true ∧ axisIn .y (enabledSet code) = true ∧ axisIn .z (enabledSet code) = true) ↔
        code = 7 := by
    decide
  intro code hdef
  rw [← hsets code hdef]
  refine ⟨fun h => ⟨h .x, h .y, h .z⟩, fun ⟨hx, hy, hz⟩ axis => ?_⟩
  cases axis with
  | x => exact hx
  | y => exact hy
  | z => exact hz

/-! ## CHAXIS, CHALL and CHSET (R200 to R202, R206) -/

theorem withChannels_off {a : Operand} (h : channelCode a = 0) (k : BitVec 3 → Reply) :
    withChannels tables (halfOf a) k = .error .wrongMode := by
  rw [withChannels, if_pos ((channelsOff_iff _).mpr ((scChannels_toNat a).trans h))]

theorem withChannels_reserved {a : Operand} (h : 0xC ≤ channelCode a) (k : BitVec 3 → Reply) :
    withChannels tables (halfOf a) k = .error .malformedRegister := by
  have hon : ¬ channelsOff tables (scChannels tables (halfOf a)) = true := by
    rw [channelsOff_iff, scChannels_toNat]; omega
  rw [withChannels, if_neg hon, channelSet_eq, scChannels_toNat, if_pos h]

theorem withChannels_defined {a : Operand} (h0 : 0 < channelCode a) (h : channelCode a < 0xC) (k : BitVec 3 → Reply) :
    withChannels tables (halfOf a) k = k (enabledSet (channelCode a)) := by
  have hon : ¬ channelsOff tables (scChannels tables (halfOf a)) = true := by
    rw [channelsOff_iff, scChannels_toNat]; omega
  rw [withChannels, if_neg hon, channelSet_eq, scChannels_toNat, if_neg (by omega)]

/-- CHAXIS on a defined code but 0. -/
theorem chaxisReply_defined (axis : Axis) {a : Operand} (h0 : 0 < channelCode a) (h : channelCode a < 0xC) :
    chaxisReply tables axis a =
      if axisIn axis (enabledSet (channelCode a)) then .ok (zext128 (enabledSet (channelCode a)))
      else .error .channelDisabled :=
  withChannels_defined h0 h _

/-- CHALL on a defined code but 0. -/
theorem challReply_defined {a : Operand} (h0 : 0 < channelCode a) (h : channelCode a < 0xC) :
    challReply tables a =
      if channelCode a = 7 then .ok (zext128 (enabledSet (channelCode a))) else .error .channelDisabled := by
  rw [challReply, withChannels_defined h0 h]
  simp only [isAllThree_iff, scChannels_toNat]

/-- CHALL on code 7. -/
theorem challReply_all {a : Operand} (h : channelCode a = 7) : challReply tables a = .ok 7#128 := by
  rw [challReply_defined (by omega) (by omega), if_pos h, h]
  rfl

/-- CHAXIS on a code that leaves the axis out. -/
theorem exec_chaxis_without {axis : Axis} {s : State} (h : channelCode s.cmd.a ∈ codesWithout axis) :
    exec (.chaxis axis) s = .next (s.push { status := 6#4, q := 0#128 }) := by
  obtain ⟨h0, hdef, haxis⟩ := axisIn_of_mem_codesWithout axis _ h
  exact exec_of_error ((chaxisReply_defined axis h0 hdef).trans (if_neg (by simp [haxis]))) rfl

/-- CHAXIS on a code that measures the axis. -/
theorem exec_chaxis_with {axis : Axis} {s : State} (h : channelCode s.cmd.a ∈ codesWith axis) :
    exec (.chaxis axis) s =
      .next (s.push
        { status := 0#4
          q := BitVec.ofNat 128 ([0, 1, 2, 3, 4, 5, 6, 7, 3, 3, 6, 5].getD (channelCode s.cmd.a) 0) }) := by
  obtain ⟨h0, hdef, haxis⟩ := axisIn_of_mem_codesWith axis _ h
  rw [← zext128_enabledSet _ hdef]
  exact exec_of_ok ((chaxisReply_defined axis h0 hdef).trans (if_pos haxis))

/-- An instruction word in the axis format, read without brackets (R122). -/
theorem append_axisSel (op : Byte) (x : BitVec 6) (c : BitVec 2) : op ++ (x ++ c) = op ++ x ++ c :=
  BitVec.append_assoc.symm

/-- Settles O30: by the code, and on a defined one by whether its set has the axis. -/
theorem chaxisResult : Obligations.ChaxisResult := by
  unfold Obligations.ChaxisResult
  refine fun axis s => ⟨append_axisSel _ _ _, fun h => exec_of_error (withChannels_off h _) rfl,
    fun h => exec_of_error (withChannels_reserved h _) rfl, ?_, ?_⟩
  · rintro (⟨rfl, h⟩ | ⟨rfl, h⟩ | ⟨rfl, h⟩) <;> exact exec_chaxis_without h
  · rintro (⟨rfl, h⟩ | ⟨rfl, h⟩ | ⟨rfl, h⟩) <;> exact exec_chaxis_with h

/-- Settles O31: by the code. -/
theorem challResult : Obligations.ChallResult := by
  unfold Obligations.ChallResult
  refine fun s => ⟨rfl, fun h => exec_of_ok (challReply_all h), fun h => exec_of_error (withChannels_off h _) rfl,
    fun h => exec_of_error (withChannels_reserved h _) rfl, fun ⟨h0, hdef, h7⟩ => ?_⟩
  exact exec_of_error ((challReply_defined (Nat.pos_of_ne_zero h0) hdef).trans (if_neg h7)) rfl

theorem chsetReply_eq (a : Operand) :
    chsetReply tables a =
      if 0xC ≤ channelCode a then .error .malformedRegister else .ok (zext128 (enabledSet (channelCode a))) := by
  rw [chsetReply, channelSet_eq, scChannels_toNat]
  by_cases h : 0xC ≤ channelCode a
  · rw [if_pos h, if_pos h]
  · rw [if_neg h, if_neg h]

/-- Settles O32: code 0 is a defined code here, with the empty set. -/
theorem chsetResult : Obligations.ChsetResult := by
  unfold Obligations.ChsetResult
  refine fun s => ⟨rfl, fun h => ?_, fun h => exec_of_error ((chsetReply_eq _).trans (if_pos h)) rfl⟩
  rw [← zext128_enabledSet _ h]
  exact exec_of_ok ((chsetReply_eq _).trans (if_neg (Nat.not_le_of_lt h)))

/-- A reply that is a value under a condition has the status of success exactly there. -/
theorem respond_ite_status {p : Prop} [Decidable p] (q : Result) (f : FaultKind) :
    (respond (if p then .ok q else .error f)).status = 0#4 ↔ p := by
  by_cases h : p <;> simp [h]

/-- A guard that looks at MAG_CH_EN succeeds only on a defined code but 0. -/
theorem withChannels_status_iff (a : Operand) (k : BitVec 3 → Reply) :
    (respond (withChannels tables (halfOf a) k)).status = 0#4 ↔
      (0 < channelCode a ∧ channelCode a < 0xC) ∧ (respond (k (enabledSet (channelCode a)))).status = 0#4 := by
  by_cases h0 : channelCode a = 0
  · simp [withChannels_off h0, h0]
  · by_cases h : channelCode a < 0xC
    · have hpos : 0 < channelCode a := Nat.pos_of_ne_zero h0
      rw [withChannels_defined hpos h, and_iff_right ⟨hpos, h⟩]
    · simp [withChannels_reserved (Nat.le_of_not_lt h), h]

theorem chaxis_status_iff (axis : Axis) (a : Operand) (s : State) :
    (responseOf (.chaxis axis) a s).status = 0#4 ↔
      (0 < channelCode a ∧ channelCode a < 0xC) ∧ axisIn axis (enabledSet (channelCode a)) = true := by
  rw [responseOf_eq, replyOf, chaxisReply, withChannels_status_iff, respond_ite_status]

theorem chall_status_iff (a : Operand) (s : State) :
    (responseOf .chall a s).status = 0#4 ↔ channelCode a = 7 := by
  rw [responseOf_eq, replyOf, challReply, withChannels_status_iff, respond_ite_status, isAllThree_iff, scChannels_toNat]
  omega

/-- Settles O35: only code 7 measures all three axes. -/
theorem challIffEveryAxis : Obligations.ChallIffEveryAxis := by
  unfold Obligations.ChallIffEveryAxis
  intro a s
  simp only [chall_status_iff, chaxis_status_iff]
  constructor
  · intro h7
    have hdef : channelCode a < 0xC := by omega
    exact fun axis => ⟨⟨by omega, hdef⟩, (axisIn_all_iff _ hdef).mpr h7 axis⟩
  · intro h
    obtain ⟨⟨-, hdef⟩, -⟩ := h .x
    exact (axisIn_all_iff _ hdef).mp fun axis => (h axis).2

/-! ## TCHK, ANGCHK and RNGSEL (R203 to R205) -/

/-- TCHK reads bit 0, T_CH_EN. -/
theorem tchkReply_eq (a : Operand) :
    tchkReply tables a = if a.toNat % 2 = 1 then .ok 1#128 else .error .channelDisabled := by
  have hbit : ((fieldCodeIn tables .tChEn (byteAt a 0)).extractLsb' 0 1).toNat = a.toNat % 2 := by
    rw [fieldCodeIn_byteAt_toNat]
    change a.toNat / 1 % 256 / 1 % 2 % 2 = _
    omega
  have henabled : enabled ((fieldCodeIn tables .tChEn (byteAt a 0)).extractLsb' 0 1) = true ↔ a.toNat % 2 = 1 := by
    rw [enabled, decide_eq_true_eq, ← BitVec.toNat_inj, hbit, BitVec.toNat_ofNat]
  exact if_congr henabled rfl rfl

theorem angleOff_iff : ∀ c : BitVec 2, angleOff tables c = true ↔ c.toNat = 0 := by
  decide

theorem angchkReply_eq (a : Operand) :
    angchkReply tables a =
      if a.toNat / 1024 % 4 = 0 then .error .channelDisabled else .ok (BitVec.ofNat 128 (a.toNat / 1024 % 4)) := by
  rw [angchkReply, zext128_eq_ofNat, scAngle_toNat]
  exact if_congr ((angleOff_iff _).trans (by rw [scAngle_toNat])) rfl rfl

/-- Settles O33: by the enable field. -/
theorem enableGuardResults : Obligations.EnableGuardResults := by
  unfold Obligations.EnableGuardResults
  intro s
  have htemp := tchkReply_eq s.cmd.a
  have hangle := angchkReply_eq s.cmd.a
  exact ⟨⟨rfl, rfl⟩, fun h => exec_of_ok (htemp.trans (if_pos h)),
    fun h => exec_of_error (htemp.trans (if_neg (by omega))) rfl,
    fun h => exec_of_ok (hangle.trans (if_neg h)), fun h => exec_of_error (hangle.trans (if_pos h)) rfl⟩

/-- X and Y share a range bit, Z has its own (R205). -/
theorem scRange_toNat (axis : Axis) (a : Operand) :
    (scRange tables axis (halfOf a)).toNat = if axis = .z then a.toNat / 256 % 2 else a.toNat / 512 % 2 := by
  cases axis with
  | x => exact scXYRange_toNat a
  | y => exact scXYRange_toNat a
  | z => exact scZRange_toNat a

/-- Settles O34: the range bit of the axis, on the port. -/
theorem rngselResult : Obligations.RngselResult := by
  unfold Obligations.RngselResult
  intro axis s
  refine ⟨append_axisSel _ _ _, ?_⟩
  rw [← scRange_toNat, ← zext128_eq_ofNat]
  exact exec_of_ok rfl

/-! ## Reading the guard's registers (R240, R247) -/

/-- A block command inside a sequence that the block answers with a value (R240). -/
theorem ask_of_ok {i : Instr} (hi : i.wellFormed = true) {a : Operand} {s : State} {q : Result}
    (h : replyOf s.thrQuant a i = .ok q) : ask i a s = .value q (s.answered i a { status := 0#4, q := q }) := by
  rw [ask_eq (decode_encode hi), h]
  rfl

theorem respond_status_of_error {r : Reply} {f : FaultKind} (h : r = .error f) : (respond r).status = statusCode f := by
  rw [h, respond_error]

/-- A block command inside a sequence that the block answers with a fault ends it with the fault's status (R240). -/
theorem ask_of_fault {i : Instr} (hi : i.wellFormed = true) {a : Operand} {s : State} {st : BitVec 4}
    (hst : (respond (replyOf s.thrQuant a i)).status = st) (hne : st ≠ 0#4) :
    ask i a s = .ended st (s.answered i a { status := st, q := 0#128 }) := by
  rw [ask_eq (decode_encode hi)]
  cases hreply : replyOf s.thrQuant a i with
  | ok q => rw [hreply, respond_ok] at hst; exact absurd hst.symm hne
  | error f => rw [hreply, respond_error] at hst; subst hst; rfl

/-- The composite `sc` that the coming read of the sensor configuration finds. -/
def State.comingSc (s : State) : Half := le16 (s.settle.regs.read 0x02) (s.settle.regs.read 0x03)

/-- What that read leaves behind where the transport carries it. -/
def State.scRead (s : State) (w : BitVec 7) : State :=
  (s.readOut w .sensorConfig1 .two).answered .pk16le (operandOf [s.settle.regs.read 0x02, s.settle.regs.read 0x03])
    { status := 0#4, q := zext128 s.comingSc }

theorem halfOf_operandOf (b0 b1 : Byte) : halfOf (operandOf [b0, b1]) = le16 b0 b1 := by
  have h0 : byteAt (operandOf [b0, b1]) 0 = b0 := byteAt_operandOf _ _ (by omega)
  have h1 : byteAt (operandOf [b0, b1]) 1 = b1 := byteAt_operandOf _ _ (by omega)
  rw [← le16_byteAt, h0, h1]

theorem resultHalf_zext128 (h : Half) : resultHalf (zext128 h) = h := by
  apply BitVec.eq_of_toNat_eq
  rw [resultHalf, BitVec.extractLsb'_toNat, zext128, BitVec.toNat_setWidth_of_le (by omega), Nat.shiftRight_zero]
  exact Nat.mod_eq_of_lt h.isLt

/-- The sensor configuration read where the transport carries it (R247). -/
theorem readSc_carried (w : BitVec 7) {s : State} (hbus : s.envEvent.fails = false) :
    readSc w s = .value s.comingSc (s.scRead w) := by
  have hread : memRead w .sensorConfig1 .two s =
      .value [s.settle.regs.read 0x02, s.settle.regs.read 0x03] (s.readOut w .sensorConfig1 .two) :=
    memRead_carried w rfl hbus
  have hpack : ask .pk16le (operandOf [s.settle.regs.read 0x02, s.settle.regs.read 0x03]) (s.readOut w .sensorConfig1 .two) =
      .value (zext128 s.comingSc) (s.scRead w) :=
    ask_of_ok rfl (by rw [pk16le_mapsHalf, halfOf_operandOf, id, State.comingSc])
  rw [readSc, readPair, hread, HostRun.andThen_value, hpack, HostRun.andThen_value, resultHalf_zext128]

/-- The temperature configuration read where the transport carries it (R253). -/
theorem readTConfig_carried (w : BitVec 7) {s : State} (hbus : s.envEvent.fails = false) :
    memRead w .tConfig .one s = .value [s.settle.regs.read 0x07] (s.readOut w .tConfig .one) :=
  memRead_carried w rfl hbus

/-! ## What the guards see in these registers -/

theorem halfOperand_comingSc_toNat (s : State) :
    (halfOperand s.comingSc).toNat = (s.settle.regs.read 0x02).toNat + 256 * (s.settle.regs.read 0x03).toNat := by
  rw [halfOperand, BitVec.toNat_setWidth_of_le (by omega), State.comingSc, le16_toNat]

/-- The guards on MAG_CH_EN look at the low byte of `sc` alone. -/
theorem channelCode_comingSc (s : State) :
    channelCode (halfOperand s.comingSc) = channelCode ((s.settle.regs.read 0x02).setWidth 64) := by
  have hlt := (s.settle.regs.read 0x02).isLt
  rw [channelCode, channelCode, halfOperand_comingSc_toNat, BitVec.toNat_setWidth_of_le (by omega)]
  omega

theorem channelCode_setWidth (b : Byte) : channelCode (b.setWidth 64) = (b.extractLsb' 4 4).toNat := by
  rw [channelCode, BitVec.toNat_setWidth_of_le (by omega), BitVec.extractLsb'_toNat, Nat.shiftRight_eq_div_pow]

/-- CHAXIS and CHALL answer by the code of MAG_CH_EN alone. -/
theorem scChannels_congr {a b : Operand} (h : channelCode a = channelCode b) :
    scChannels tables (halfOf a) = scChannels tables (halfOf b) :=
  BitVec.eq_of_toNat_eq (by rw [scChannels_toNat, scChannels_toNat, h])

theorem chaxisReply_congr (axis : Axis) {a b : Operand} (h : channelCode a = channelCode b) :
    chaxisReply tables axis a = chaxisReply tables axis b := by
  rw [chaxisReply, chaxisReply, withChannels, withChannels, scChannels_congr h]

theorem challReply_congr {a b : Operand} (h : channelCode a = channelCode b) :
    challReply tables a = challReply tables b := by
  rw [challReply, challReply, withChannels, withChannels, scChannels_congr h]

/-- CHALL where SENSOR_CONFIG_1 holds code 7 (R201). -/
theorem challReply_comingSc {s : State} (h : (s.settle.regs.read 0x02).extractLsb' 4 4 = 7#4) :
    challReply tables (halfOperand s.comingSc) = .ok 7#128 := by
  have hcode : channelCode (halfOperand s.comingSc) = 7 := by
    rw [channelCode_comingSc, channelCode_setWidth, h]
    rfl
  exact challReply_all hcode

/-- TCHK on a wire byte with bit 0 clear (R203). -/
theorem tchkReply_clear {b : Byte} (h : b.getLsbD 0 = false) :
    tchkReply tables (operandOf [b]) = .error .channelDisabled := by
  have hbyte : (byteAt (operandOf [b]) 0).toNat = b.toNat := congrArg _ (byteAt_operandOf [b] 0 (by omega))
  have hbit : b.toNat % 2 ≠ 1 := by simpa [BitVec.getLsbD] using h
  rw [byteAt_toNat, operandLane] at hbyte
  rw [tchkReply_eq, if_neg (by omega)]

/-- ANGCHK where the angle is disabled in SENSOR_CONFIG_2 (R204). -/
theorem angchkReply_comingSc {s : State} (h : (s.settle.regs.read 0x03).extractLsb' 2 2 = 0#2) :
    angchkReply tables (halfOperand s.comingSc) = .error .channelDisabled := by
  have hfield : (s.settle.regs.read 0x03).toNat / 2 ^ 2 % 2 ^ 2 = 0 := by
    simpa [Nat.shiftRight_eq_div_pow] using congrArg BitVec.toNat h
  have hlt := (s.settle.regs.read 0x02).isLt
  rw [angchkReply_eq, halfOperand_comingSc_toNat, if_pos (by omega)]

/-! ## Getters whose guard faults (R284, R295) -/

/-- Started in `s`, the sequence ends with status `st`, and the bus transactions it made are `tr`. -/
def HostRun.EndsAfter {α : Type} (y : HostRun α) (s : State) (st : BitVec 4) (tr : List BusEvent) : Prop :=
  ∃ t, y = .ended st t ∧ t.results = s.results ∧ t.trace = s.trace ++ tr

/-- A step of a sequence that ends with a fault's status (R240). -/
theorem step_of_endsAfter {s : State} {x : Session} {h : HostCall} {rest : List HostAction}
    {k : State → Session → HostRun HostValue} {st : BitVec 4} {tr : List BusEvent}
    (hcall : ∀ u, runCall h u = withSession u (k u)) (hx : s.session = some x) (hin : s.inputs = .call h :: rest)
    (hend : (k (s.waiting rest) x).EndsAfter (s.waiting rest) st tr) :
    ∃ t, step s = .next t ∧ t.results = s.results ++ [.failed st] ∧ t.trace = s.trace ++ tr := by
  obtain ⟨t, hrun, hresults, htrace⟩ := hend
  exact ⟨t.pushResult (.failed st), by rw [step_call_of_session hcall hin hx, hrun, finish],
    congrArg (fun rs => rs ++ [HostResult.failed st]) hresults, htrace⟩

/-- The record of the sensor configuration read that is coming. -/
abbrev State.scEvent (s : State) (w : BitVec 7) : BusEvent :=
  .read w [0x02#8] 2 (some [s.settle.regs.read 0x02, s.settle.regs.read 0x03])

/-- A sequence that reads `sc` and whose guard on it faults ends there: the only transaction is that read. -/
theorem scGuard_endsAfter {w : BitVec 7} {s : State} {i : Instr} {st : BitVec 4}
    {k : Half → Result → State → HostRun HostValue} (hbus : s.envEvent.fails = false) (hi : i.wellFormed = true)
    (hst : (respond (replyOf s.thrQuant (halfOperand s.comingSc) i)).status = st) (hne : st ≠ 0#4) :
    ((readSc w s).andThen fun sc t => (ask i (halfOperand sc) t).andThen (k sc)).EndsAfter s st [s.scEvent w] := by
  have hguard := ask_of_fault (s := s.scRead w) hi hst hne
  rw [readSc_carried w hbus, HostRun.andThen_value, hguard, HostRun.andThen_ended]
  exact ⟨_, rfl, rfl, rfl⟩

/-- GetTemperature where the temperature channel is disabled (R253). -/
theorem getTemperature_endsAfter (x : Session) {s : State} (hbus : s.envEvent.fails = false)
    (hclear : (s.settle.regs.read 0x07).getLsbD 0 = false) :
    (getTemperature x s).EndsAfter s 6#4 [.read x.addr7 [0x07#8] 1 (some [s.settle.regs.read 0x07])] := by
  have hguard := ask_of_fault (s := s.readOut x.addr7 .tConfig .one) (i := .tchk) rfl
    (respond_status_of_error (tchkReply_clear hclear)) (by decide)
  rw [getTemperature, readTConfig_carried _ hbus, HostRun.andThen_value, hguard, HostRun.andThen_ended]
  exact ⟨_, rfl, rfl, rfl⟩

/-- GetAllData where the first guard holds and the second does not: two transactions, then the second guard's fault
(R255). -/
theorem getAllData_endsAfter (x : Session) {s : State} (hbus : s.envEvent.fails = false)
    (hall : (s.settle.regs.read 0x02).extractLsb' 4 4 = 7#4) (hbus' : s.settle.envEvent.fails = false)
    (hclear : (s.settle.settle.regs.read 0x07).getLsbD 0 = false) :
    (getAllData x s).EndsAfter s 6#4
      [s.scEvent x.addr7, .read x.addr7 [0x07#8] 1 (some [s.settle.settle.regs.read 0x07])] := by
  have hfirst := ask_of_ok (s := s.scRead x.addr7) (i := .chall) rfl (challReply_comingSc hall)
  have hread := readTConfig_carried x.addr7
    (s := (s.scRead x.addr7).answered .chall (halfOperand s.comingSc) { status := 0#4, q := 7#128 }) hbus'
  have hsecond := ask_of_fault (i := .tchk) rfl (respond_status_of_error (tchkReply_clear hclear)) (by decide)
    (s := ((s.scRead x.addr7).answered .chall (halfOperand s.comingSc) { status := 0#4, q := 7#128 }).readOut
      x.addr7 .tConfig .one)
  rw [getAllData, readSc_carried _ hbus, HostRun.andThen_value, hfirst, HostRun.andThen_value, hread, HostRun.andThen_value]
  exact ⟨_, congrArg (HostRun.andThen · _) hsecond, rfl, List.append_assoc ..⟩

/-- Settles O54: each getter ends at its guard; CHAXIS and CHALL see in `sc` what they see in its low byte. -/
theorem guardFaultPreventsDataRead : Obligations.GuardFaultPreventsDataRead := by
  unfold Obligations.GuardFaultPreventsDataRead
  intro s x rest hx hbus
  refine ⟨fun hin hclear => ?_, fun hin hangle => ?_, fun axis hin hfault => ?_, fun hin hcode => ?_,
    fun hin hall hbus' hclear => ?_⟩
  · exact step_of_endsAfter (fun _ => rfl) hx hin (getTemperature_endsAfter x (s := s.waiting rest) hbus hclear)
  · exact step_of_endsAfter (fun _ => rfl) hx hin (scGuard_endsAfter (s := s.waiting rest) (i := .angchk) hbus rfl
      (respond_status_of_error (angchkReply_comingSc hangle)) (by decide))
  · rw [responseOf_eq, replyOf, ← chaxisReply_congr axis (channelCode_comingSc s)] at hfault ⊢
    exact step_of_endsAfter (fun _ => rfl) hx hin
      (scGuard_endsAfter (s := s.waiting rest) (i := .chaxis axis) hbus rfl rfl hfault)
  · have hfault : (responseOf .chall ((s.settle.regs.read 0x02).setWidth 64) s).status ≠ 0#4 := by
      rw [Ne, chall_status_iff, channelCode_setWidth]
      exact fun h => hcode (BitVec.eq_of_toNat_eq h)
    rw [responseOf_eq, replyOf, ← challReply_congr (channelCode_comingSc s)] at hfault ⊢
    exact step_of_endsAfter (fun _ => rfl) hx hin
      (scGuard_endsAfter (s := s.waiting rest) (i := .chall) hbus rfl rfl hfault)
  · exact step_of_endsAfter (fun _ => rfl) hx hin (getAllData_endsAfter x (s := s.waiting rest) hbus hall hbus' hclear)

end Sys2Proof.Machine

/-! O36, O37, O38, O39, O40, O42, O47. The converters (R216 to R228): what each operation of binary32 gives in units of
2^-149, exactly where the result fits in 24 bits; then each converter as a chain of such operations. -/

namespace Sys2Proof.Machine

/-! ## A quotient of units, rounded (R10) -/

/-- The units of the binary32 value nearest to `e / d` units. -/
def roundUnits (e : Int) (d : Nat) : Int := signed (decide (e < 0)) (patternMag (roundMag e.natAbs d))

/-- The rounded quotient does not overflow. -/
abbrev RoundsFinite (e : Int) (d : Nat) : Prop := roundMag e.natAbs d < 0x7F800000

/-- A magnitude of 24 significant bits, at most that of the largest finite value. -/
def Representable (v : Int) : Prop := ∃ j p : Nat, j < 2 ^ 24 ∧ p ≤ 253 ∧ v.natAbs = j * 2 ^ p

theorem f32One_pos : 0 < f32One := Nat.two_pow_pos 149

theorem f32One_eq_mul {p q : Nat} (h : p + q = 149) : f32One = 2 ^ p * 2 ^ q := by
  rw [← Nat.pow_add, h]; rfl

theorem representable_scaled {k : Int} {p : Nat} (hk : k.natAbs < 2 ^ 24) (hp : p ≤ 253) :
    Representable (k * (2 ^ p : Nat)) :=
  ⟨k.natAbs, p, hk, hp, by rw [Int.natAbs_mul, Int.natAbs_natCast]⟩

theorem natAbs_signed (neg : Bool) (n : Nat) : (signed neg n).natAbs = n := by
  cases neg <;> simp [signed]

/-- Zero is rounded to zero, under either sign. -/
theorem patternMag_roundMag_zero (d : Nat) : patternMag (roundMag 0 d) = 0 := by
  simp [roundMag, roundNearestEven, patternMag]

/-- Of a quotient with a sign the magnitude is rounded. -/
theorem roundUnits_signed (neg : Bool) (n d : Nat) :
    roundUnits (signed neg n) d = signed neg (patternMag (roundMag n d)) := by
  rw [roundUnits, natAbs_signed]
  rcases Nat.eq_zero_or_pos n with rfl | hpos
  · rw [patternMag_roundMag_zero]
    cases neg <;> rfl
  · have hsign : decide (signed neg n < 0) = neg := by cases neg <;> simp [signed, hpos]
    rw [hsign]

theorem f32Units_pack_roundMag (neg : Bool) (n d : Nat) :
    f32Units (f32Pack neg (roundMag n d)) = roundUnits (signed neg n) d := by
  rw [f32Units_eq_signed, f32Sign_pack neg (roundMag_lt n d), f32Mag_pack neg (roundMag_lt n d), roundUnits_signed]

theorem roundsFinite_exact {v : Int} {d : Nat} (hd : 0 < d) (hv : Representable v) : RoundsFinite (v * d) d := by
  obtain ⟨j, p, hj, hp, habs⟩ := hv
  rw [RoundsFinite, Int.natAbs_mul, Int.natAbs_natCast, habs]
  exact (roundMag_exact hd hj hp).1

/-- A value of 24 significant bits is not rounded. -/
theorem roundUnits_exact {v : Int} {d : Nat} (hd : 0 < d) (hv : Representable v) : roundUnits (v * d) d = v := by
  obtain ⟨j, p, hj, hp, habs⟩ := hv
  calc roundUnits (v * d) d
      = roundUnits (signed (decide (v < 0)) (v.natAbs * d)) d := by rw [← signed_mul_nat, signed_natAbs]
    _ = signed (decide (v < 0)) v.natAbs := by rw [roundUnits_signed, habs, (roundMag_exact hd hj hp).2]
    _ = v := signed_natAbs v

/-- Rounding keeps the order: each of two results is nearest to its own quotient. -/
theorem roundUnits_mono {e e' : Int} {d : Nat} (hd : 0 < d) (hfin : RoundsFinite e d) (hfin' : RoundsFinite e' d)
    (h : e ≤ e') : roundUnits e d ≤ roundUnits e' d := by
  rcases h.eq_or_lt with rfl | hlt
  · exact le_refl _
  have hnear : ∀ {a b : Int}, RoundsFinite a d → RoundsFinite b d →
      (roundUnits a d * d - a).natAbs ≤ (roundUnits b d * d - a).natAbs := fun {a b} ha hb => by
    have hn := nearestEven_pack_roundMag (decide (a < 0)) hd a.natAbs (f32Pack (decide (b < 0)) (roundMag b.natAbs d))
      ⟨isNaN_pack _ hb, isInf_pack _ hb⟩ (isInf_pack _ ha)
    simpa only [f32Units_pack_roundMag, signed_natAbs] using hn.1
  by_contra hgt
  have hscaled := mul_lt_mul_of_pos_right (not_le.mp hgt) (show (0 : Int) < d by exact_mod_cast hd)
  have hnear₁ := hnear hfin hfin'
  have hnear₂ := hnear hfin' hfin
  omega

/-! ## The three operations in units (R10) -/

theorem f32Units_fadd {x y : F32} (hx : f32Finite x) (hy : f32Finite y) :
    f32Units (fadd x y) = roundUnits (f32Units x + f32Units y) 1 := by
  obtain ⟨neg, hadd, hsigned⟩ := fadd_eq_pack hx hy
  rw [hadd, f32Units_pack_roundMag, hsigned]

theorem f32Units_fmul {x y : F32} (hx : f32Finite x) (hy : f32Finite y) :
    f32Units (fmul x y) = roundUnits (f32Units x * f32Units y) f32One := by
  rw [fmul_finite hx hy, ← f32One, f32Units_pack_roundMag, ← signed_mul_signed]
  rfl

/-- The divisor positive. -/
theorem f32Units_fdiv {x y : F32} (hx : f32Finite x) (hy : f32Finite y) (hpos : f32Sign y = false)
    (h0 : f32Mag y ≠ 0) : f32Units (fdiv x y) = roundUnits (f32Units x * f32One) (f32Mag y) := by
  rw [fdiv_finite hx hy h0, ← f32One, f32Units_pack_roundMag, hpos, Bool.bne_false, ← signed_mul_nat]
  rfl

/-! ## Results that stay finite, and their order (R216) -/

theorem f32Exp_lt (x : F32) : f32Exp x < 256 := (x.extractLsb' 23 8).isLt

theorem f32Frac_lt (x : F32) : f32Frac x < 2 ^ 23 := (x.extractLsb' 0 23).isLt

/-- The largest exponent is that of the infinities and NaNs. -/
theorem f32Finite_iff (x : F32) : f32Finite x ↔ f32Exp x ≠ 255 := by
  rw [f32Finite, isNaN, isInf]
  by_cases h : f32Exp x = 255 <;> by_cases h' : f32Frac x = 0 <;> simp [h, h']

/-- A finite magnitude is one of 24 significant bits. -/
theorem representable_f32Mag {x : F32} (hx : f32Finite x) :
    ∃ j p : Nat, j < 2 ^ 24 ∧ p ≤ 253 ∧ (p = 0 ∨ 2 ^ 23 ≤ j) ∧ f32Mag x = j * 2 ^ p := by
  have hexp := f32Exp_lt x
  have hfrac := f32Frac_lt x
  have hne := (f32Finite_iff x).mp hx
  by_cases h0 : f32Exp x = 0
  · exact ⟨f32Frac x, 0, by omega, by omega, .inl rfl, by rw [f32Mag, if_pos h0, Nat.pow_zero, Nat.mul_one]⟩
  · exact ⟨2 ^ 23 + f32Frac x, f32Exp x - 1, by omega, by omega, .inr (by omega), by rw [f32Mag, if_neg h0]⟩

/-- The largest finite magnitude. -/
theorem f32Mag_le {x : F32} (hx : f32Finite x) : f32Mag x ≤ (2 ^ 24 - 1) * 2 ^ 253 := by
  obtain ⟨j, p, hj, hp, -, hmag⟩ := representable_f32Mag hx
  rw [hmag]
  exact Nat.mul_le_mul (by omega) (Nat.pow_le_pow_right (by omega) hp)

theorem roundsFinite_of_lt {e : Int} {d : Nat} (hd : 0 < d) (h : 2 * e.natAbs < (2 ^ 25 - 1) * 2 ^ 253 * d) :
    RoundsFinite e d :=
  Nat.lt_of_le_of_ne (roundMag_le _ _) fun heq => Nat.not_le_of_lt h ((roundMag_overflows_iff hd _).mp heq)

/-- Divided by 1 or more, a finite value stays finite. -/
theorem roundsFinite_div {x : F32} (hx : f32Finite x) {d : Nat} (hd : f32One ≤ d) :
    RoundsFinite (f32Units x * f32One) d := by
  have hpos := f32One_pos
  have hmag := f32Mag_le hx
  refine roundsFinite_of_lt (by omega) ?_
  rw [Int.natAbs_mul, natAbs_f32Units, Int.natAbs_natCast, ← Nat.mul_assoc]
  calc 2 * f32Mag x * f32One
      < (2 ^ 25 - 1) * 2 ^ 253 * f32One := Nat.mul_lt_mul_of_pos_right (by omega) hpos
    _ ≤ (2 ^ 25 - 1) * 2 ^ 253 * d := Nat.mul_le_mul_left _ hd

/-- A value below half the step of the top binade added, a finite value stays finite. -/
theorem roundsFinite_add {x y : F32} (hy : f32Finite y) (hsmall : f32Mag x < 2 ^ 252) :
    RoundsFinite (f32Units x + f32Units y) 1 := by
  have hmag := f32Mag_le hy
  have hxabs := natAbs_f32Units x
  have hyabs := natAbs_f32Units y
  exact roundsFinite_of_lt Nat.one_pos (by omega)

theorem f32Finite_pack {neg : Bool} {m : Nat} (h : m < 0x7F800000) : f32Finite (f32Pack neg m) :=
  ⟨isNaN_pack neg h, isInf_pack neg h⟩

theorem f32Finite_fadd {x y : F32} (hx : f32Finite x) (hy : f32Finite y)
    (h : RoundsFinite (f32Units x + f32Units y) 1) : f32Finite (fadd x y) := by
  obtain ⟨neg, hadd, -⟩ := fadd_eq_pack hx hy
  rw [hadd]
  exact f32Finite_pack h

theorem f32Finite_fmul {x y : F32} (hx : f32Finite x) (hy : f32Finite y)
    (h : RoundsFinite (f32Units x * f32Units y) f32One) : f32Finite (fmul x y) := by
  rw [RoundsFinite, Int.natAbs_mul, natAbs_f32Units, natAbs_f32Units] at h
  rw [fmul_finite hx hy]
  exact f32Finite_pack h

theorem f32Finite_fdiv {x y : F32} (hx : f32Finite x) (hy : f32Finite y) (h0 : f32Mag y ≠ 0)
    (h : RoundsFinite (f32Units x * f32One) (f32Mag y)) : f32Finite (fdiv x y) := by
  rw [RoundsFinite, Int.natAbs_mul, natAbs_f32Units, Int.natAbs_natCast] at h
  rw [fdiv_finite hx hy h0]
  exact f32Finite_pack h

/-- Divided by 1 or more, a finite value gives a finite one. -/
theorem f32Finite_fdiv_of_one_le {x y : F32} (hx : f32Finite x) (hy : f32Finite y) (h1 : f32One ≤ f32Mag y) :
    f32Finite (fdiv x y) :=
  f32Finite_fdiv hx hy (Nat.ne_of_gt (Nat.lt_of_lt_of_le f32One_pos h1)) (roundsFinite_div hx h1)

/-- A quotient keeps the order of the dividends. -/
theorem f32Units_fdiv_mono {x x' y : F32} (hx : f32Finite x) (hx' : f32Finite x') (hy : f32Finite y)
    (hpos : f32Sign y = false) (h1 : f32One ≤ f32Mag y) (h : f32Units x ≤ f32Units x') :
    f32Units (fdiv x y) ≤ f32Units (fdiv x' y) := by
  have hd : 0 < f32Mag y := Nat.lt_of_lt_of_le f32One_pos h1
  rw [f32Units_fdiv hx hy hpos (by omega), f32Units_fdiv hx' hy hpos (by omega)]
  exact roundUnits_mono hd (roundsFinite_div hx h1) (roundsFinite_div hx' h1)
    (Int.mul_le_mul_of_nonneg_right h (Int.natCast_nonneg _))

/-- A sum keeps the order of its second term. -/
theorem f32Units_fadd_mono {x y y' : F32} (hx : f32Finite x) (hy : f32Finite y) (hy' : f32Finite y')
    (hsmall : f32Mag x < 2 ^ 252) (h : f32Units y ≤ f32Units y') : f32Units (fadd x y) ≤ f32Units (fadd x y') := by
  rw [f32Units_fadd hx hy, f32Units_fadd hx hy']
  exact roundUnits_mono Nat.one_pos (roundsFinite_add hy hsmall) (roundsFinite_add hy' hsmall)
    (Int.add_le_add_left h _)

/-! ## Exact results (R216) -/

/-- A finite value, by its sign bit and its units: together they fix the pattern, the sign of a zero included. -/
structure IsFloat (x : F32) (neg : Bool) (v : Int) : Prop where
  finite : f32Finite x
  sign : f32Sign x = neg
  units : f32Units x = v

theorem isFloat_ofInt {k : Int} (hk : k.natAbs < 2 ^ 24) : IsFloat (f32OfInt k) (decide (k < 0)) (k * f32One) := by
  obtain ⟨hnan, hinf, hsign, hmag⟩ := f32OfInt_exact hk
  refine ⟨⟨hnan, hinf⟩, hsign, ?_⟩
  rw [f32Units_eq_signed, hsign, hmag, ← signed_mul_nat, signed_natAbs, f32One]

theorem isFloat_fneg {x : F32} {neg : Bool} {v : Int} (hx : IsFloat x neg v) : IsFloat (fneg x) (!neg) (-v) := by
  obtain ⟨hfin, rfl, rfl⟩ := hx
  refine ⟨⟨(isNaN_fneg x).trans hfin.1, (isInf_fneg x).trans hfin.2⟩, f32Sign_fneg x, ?_⟩
  rw [f32Units_eq_signed, f32Units_eq_signed, f32Sign_fneg, f32Mag_fneg]
  cases f32Sign x <;> simp [signed]

/-- A product that fits is exact. -/
theorem isFloat_fmul {x y : F32} {s t : Bool} {a b v : Int} (hx : IsFloat x s a) (hy : IsFloat y t b)
    (hv : Representable v) (h : a * b = v * f32One) : IsFloat (fmul x y) (s != t) v := by
  obtain ⟨hxfin, rfl, rfl⟩ := hx
  obtain ⟨hyfin, rfl, rfl⟩ := hy
  refine ⟨f32Finite_fmul hxfin hyfin ?_, ?_, ?_⟩
  · rw [h]
    exact roundsFinite_exact f32One_pos hv
  · rw [fmul_finite hxfin hyfin, f32Sign_pack _ (roundMag_lt _ _)]
  · rw [f32Units_fmul hxfin hyfin, h, roundUnits_exact f32One_pos hv]

theorem f32Mag_of_isFloat {x : F32} {neg : Bool} {n : Nat} (hx : IsFloat x neg n) : f32Mag x = n := by
  rw [← natAbs_f32Units, hx.units, Int.natAbs_natCast]

/-- A quotient that fits is exact, the divisor positive. -/
theorem isFloat_fdiv {x y : F32} {s : Bool} {a v : Int} {d : Nat} (hd : 0 < d) (hx : IsFloat x s a)
    (hy : IsFloat y false d) (hv : Representable v) (h : a * f32One = v * d) : IsFloat (fdiv x y) s v := by
  have hmag : f32Mag y = d := f32Mag_of_isFloat hy
  have h0 : f32Mag y ≠ 0 := by omega
  obtain ⟨hxfin, rfl, rfl⟩ := hx
  refine ⟨f32Finite_fdiv hxfin hy.finite h0 ?_, ?_, ?_⟩
  · rw [h, hmag]
    exact roundsFinite_exact hd hv
  · rw [fdiv_finite hxfin hy.finite h0, f32Sign_pack _ (roundMag_lt _ _), hy.sign, Bool.bne_false]
  · rw [f32Units_fdiv hxfin hy.finite hy.sign h0, h, hmag, roundUnits_exact hd hv]

/-- A sum that fits is exact. -/
theorem isFloat_fadd {x y : F32} {s t : Bool} {a b : Int} (hx : IsFloat x s a) (hy : IsFloat y t b)
    (hv : Representable (a + b)) :
    IsFloat (fadd x y) (if a + b = 0 then s && t else decide (a + b < 0)) (a + b) := by
  obtain ⟨hxfin, rfl, rfl⟩ := hx
  obtain ⟨hyfin, rfl, rfl⟩ := hy
  have hfin := roundsFinite_exact Nat.one_pos hv
  have hunits := roundUnits_exact Nat.one_pos hv
  rw [Nat.cast_one, mul_one] at hfin hunits
  refine ⟨f32Finite_fadd hxfin hyfin hfin, ?_, ?_⟩
  · rw [fadd_finite hxfin hyfin]
    split
    · exact f32Sign_pack _ (by omega)
    · exact f32Sign_pack _ (roundMag_lt _ _)
  · rw [f32Units_fadd hxfin hyfin, hunits]

theorem isFloat_rangeF32 (c : RangeClass) (r : RangeBit) :
    IsFloat (rangeF32 c r) false (rangeMt c r * f32One : Nat) := by
  refine ⟨rangeF32_finite c r, ?_, by rw [f32Units_rangeF32, Nat.cast_mul]⟩
  cases c <;> cases r <;> rfl

theorem rangeMt_bounds (c : RangeClass) (r : RangeBit) : 40 ≤ rangeMt c r ∧ rangeMt c r ≤ 266 := by
  cases c <;> cases r <;> decide

/-! ## Steps of the converters: a factor of the range, a divisor that is a power of 2 -/

theorem natAbs_toInt_le {w : Nat} (v : BitVec (w + 1)) : v.toInt.natAbs ≤ 2 ^ w := by
  have hlo := v.le_toInt
  have hhi := v.toInt_lt
  rw [Nat.add_sub_cancel] at hlo hhi
  have hcast : ((2 ^ w : Nat) : Int) = 2 ^ w := by push_cast; rfl
  omega

/-- A raw value times the range has 24 bits. -/
theorem natAbs_mul_rangeMt_lt {k : Int} (c : RangeClass) (r : RangeBit) (hk : k.natAbs ≤ 2 ^ 15) :
    (k * rangeMt c r).natAbs < 2 ^ 24 := by
  rw [Int.natAbs_mul, Int.natAbs_natCast]
  calc k.natAbs * rangeMt c r ≤ 2 ^ 15 * 266 := Nat.mul_le_mul hk (rangeMt_bounds c r).2
    _ < 2 ^ 24 := by decide

theorem isFloat_fmul_rangeF32 {x : F32} {neg : Bool} {k : Int} {p : Nat} (c : RangeClass) (r : RangeBit)
    (hx : IsFloat x neg (k * (2 ^ p : Nat))) (hk : k.natAbs ≤ 2 ^ 15) (hp : p ≤ 253) :
    IsFloat (fmul x (rangeF32 c r)) neg (k * rangeMt c r * (2 ^ p : Nat)) := by
  have h := isFloat_fmul hx (isFloat_rangeF32 c r) (representable_scaled (natAbs_mul_rangeMt_lt c r hk) hp)
    (by push_cast; ring)
  rwa [Bool.bne_false] at h

theorem isFloat_fdiv_two_pow {x y : F32} {neg : Bool} {k : Int} {p q : Nat} (hx : IsFloat x neg (k * (2 ^ (p + q) : Nat)))
    (hy : IsFloat y false (2 ^ q * f32One : Nat)) (hk : k.natAbs < 2 ^ 24) (hp : p ≤ 253) :
    IsFloat (fdiv x y) neg (k * (2 ^ p : Nat)) :=
  isFloat_fdiv (Nat.mul_pos (Nat.two_pow_pos q) f32One_pos) hx hy (representable_scaled hk hp) (by push_cast; ring)

theorem isFloat_f32_32768 : IsFloat f32_32768 false (2 ^ 15 * f32One : Nat) := ⟨by decide, rfl, rfl⟩

theorem isFloat_f32_128 : IsFloat f32_128 false (2 ^ 7 * f32One : Nat) := ⟨by decide, rfl, rfl⟩

theorem isFloat_f32_16 : IsFloat f32_16 false (2 ^ 4 * f32One : Nat) := ⟨by decide, rfl, rfl⟩

theorem isFloat_f32_17508 : IsFloat f32_17508 false (17508 * f32One : Nat) := ⟨by decide, rfl, rfl⟩

/-! ## Binary32 lanes of a result (R127) -/

/-- The lowest lane is the first value packed. -/
theorem extractLsb'_packFloats_zero (x : F32) (xs : List F32) : (packFloats (x :: xs)).extractLsb' 0 32 = x := by
  apply BitVec.eq_of_getLsbD_eq
  intro j hj
  have hlane : j < 128 := by omega
  simp [packFloats, hj, hlane]

/-- A higher lane is a lane of the rest. -/
theorem extractLsb'_packFloats_succ (x : F32) (xs : List F32) {k : Nat} (hk : k < 3) :
    (packFloats (x :: xs)).extractLsb' (32 * (k + 1)) 32 = (packFloats xs).extractLsb' (32 * k) 32 := by
  apply BitVec.eq_of_getLsbD_eq
  intro j hj
  have hlane : 32 * (k + 1) + j < 128 := by omega
  have habove : ¬ 32 * (k + 1) + j < 32 := by omega
  have hbelow : 32 * (k + 1) + j - 32 = 32 * k + j := by omega
  have hx : x.getLsbD (32 * (k + 1) + j) = false := BitVec.getLsbD_of_ge x _ (by omega)
  simp only [packFloats, BitVec.getLsbD_extractLsb', BitVec.getLsbD_or, BitVec.getLsbD_setWidth, BitVec.getLsbD_shiftLeft,
    hj, hlane, habove, hbelow, hx]
  simp

/-- Lane `k` of packed binary32 values, four to a result. -/
theorem extractLsb'_packFloats {k : Nat} (hk : k < 4) (xs : List F32) :
    (packFloats xs).extractLsb' (32 * k) 32 = xs.getD k 0#32 := by
  induction xs generalizing k with
  | nil => simp [packFloats]
  | cons x xs ih =>
    cases k with
    | zero => exact extractLsb'_packFloats_zero x xs
    | succ k => rw [extractLsb'_packFloats_succ x xs (by omega), ih (by omega), List.getD_cons_succ]

theorem extractLsb'_zext128_f32 (x : F32) : (zext128 x).extractLsb' 0 32 = x := by
  apply BitVec.eq_of_getLsbD_eq
  intro j hj
  have hlane : j < 128 := by omega
  simp [zext128, hj, hlane]

theorem setWidth_zext128_f32 (x : F32) : (zext128 x).setWidth 32 = x := by
  rw [zext128, BitVec.setWidth_setWidth_of_le x (by omega), BitVec.setWidth_eq]

/-! ## CVMAG (R217) -/

/-- CVMAG before the negation for X. -/
theorem isFloat_scaledRaw (c : RangeClass) (r : RangeBit) (raw : Half) :
    IsFloat (fdiv (fmul (f32OfInt raw.toInt) (rangeF32 c r)) f32_32768) (decide (raw.toInt < 0))
      (raw.toInt * rangeMt c r * (2 ^ 134 : Nat)) := by
  have hraw := natAbs_toInt_le raw
  have hint : IsFloat (f32OfInt raw.toInt) _ (raw.toInt * (2 ^ 149 : Nat)) := isFloat_ofInt (by omega)
  exact isFloat_fdiv_two_pow (isFloat_fmul_rangeF32 c r hint hraw (by omega)) isFloat_f32_32768
    (natAbs_mul_rangeMt_lt c r hraw) (by omega)

theorem isFloat_axisToMt (c : RangeClass) (r : RangeBit) (axis : Axis) (raw : Half) :
    IsFloat (axisToMt c r axis raw) (if axis = .x then decide (0 ≤ raw.toInt) else decide (raw.toInt < 0))
      ((if axis = .x then -raw.toInt else raw.toInt) * rangeMt c r * (2 ^ 134 : Nat)) := by
  have hval := isFloat_scaledRaw c r raw
  cases axis with
  | x =>
    have hsign : (!decide (raw.toInt < 0)) = decide (0 ≤ raw.toInt) := by simp [← decide_not]
    have h := isFloat_fneg hval
    rw [hsign, ← Int.neg_mul, ← Int.neg_mul] at h
    exact h
  | y => exact hval
  | z => exact hval

/-- The selector of CVMAG: four zeros, class, range bit, axis (R122). -/
theorem encode_cvmag (c : RangeClass) (r : RangeBit) (axis : Axis) :
    encode (.cvmag c r axis) = 0x20#8 ++ 0#4 ++ classCode c ++ rangeBitCode r ++ axisCode axis := by
  cases c <;> cases r <;> cases axis <;> rfl

/-- Settles O36: every step of the conversion is exact. -/
theorem cvmagResult : Obligations.CvmagResult := by
  unfold Obligations.CvmagResult
  intro c r axis s
  obtain ⟨hfin, hsign, hunits⟩ := isFloat_axisToMt c r axis (halfOf s.cmd.a)
  refine ⟨encode_cvmag c r axis, _, exec_of_ok rfl, hfin, ?_, hsign⟩
  rw [hunits, f32One_eq_mul (p := 134) (q := 15) rfl, halfOf]
  push_cast
  ring

/-! ## CVTEMP (R219) -/

/-- The difference `raw - 17508`. -/
theorem isFloat_tempDifference (raw : Half) :
    ∃ neg, IsFloat (fsub (f32OfInt raw.toNat) f32_17508) neg ((raw.toNat - 17508 : Int) * f32One) := by
  have hraw : raw.toNat < 2 ^ 16 := raw.isLt
  have hsum : (raw.toNat : Int) * f32One + -(17508 * f32One : Nat) = (raw.toNat - 17508 : Int) * f32One := by
    push_cast
    ring
  have hv : Representable ((raw.toNat - 17508 : Int) * f32One) := representable_scaled (p := 149) (by omega) (by omega)
  rw [← hsum] at hv ⊢
  exact ⟨_, isFloat_fadd (isFloat_ofInt (by omega)) (isFloat_fneg isFloat_f32_17508) hv⟩

/-- The divisor of R219 is above 1. -/
theorem f32_60_1_bounds : f32Finite f32_60_1 ∧ f32Sign f32_60_1 = false ∧ f32One ≤ f32Mag f32_60_1 := by
  decide

theorem f32_25_bounds : f32Finite f32_25 ∧ f32Mag f32_25 < 2 ^ 252 := by
  decide

/-- Settles O37: `fsub` gives the exact difference; at 17508 it is +0, and so is the quotient. -/
theorem cvtempResult : Obligations.CvtempResult := by
  unfold Obligations.CvtempResult
  intro s
  obtain ⟨neg, hfin, -, hunits⟩ := isFloat_tempDifference (halfOf s.cmd.a)
  rw [halfOf_toNat] at hfin hunits
  refine ⟨rfl, _, hfin, hunits, fun h => by rw [h]; decide, ?_, fun h => ?_⟩
  · rw [← halfOf_toNat]
    exact exec_of_ok rfl
  · have hhalf : halfOf s.cmd.a = 17508#16 := BitVec.eq_of_toNat_eq ((halfOf_toNat _).trans h)
    refine exec_of_ok ?_
    rw [replyOf, cvtempReply, hhalf]
    decide

theorem f32Finite_tempQuotient (raw : Half) : f32Finite (fdiv (fsub (f32OfInt raw.toNat) f32_17508) f32_60_1) := by
  obtain ⟨hfin, -, h1⟩ := f32_60_1_bounds
  obtain ⟨_, hdiff⟩ := isFloat_tempDifference raw
  exact f32Finite_fdiv_of_one_le hdiff.finite hfin h1

theorem f32Finite_rawToCelsius (raw : Half) : f32Finite (rawToCelsius raw) := by
  obtain ⟨hfin, hsmall⟩ := f32_25_bounds
  have hquot := f32Finite_tempQuotient raw
  exact f32Finite_fadd hfin hquot (roundsFinite_add hquot hsmall)

/-- Difference, quotient and sum each keep the order. -/
theorem rawToCelsius_mono {raw raw' : Half} (h : raw.toNat ≤ raw'.toNat) :
    f32Units (rawToCelsius raw) ≤ f32Units (rawToCelsius raw') := by
  obtain ⟨hfin25, hsmall⟩ := f32_25_bounds
  obtain ⟨hfin60, hpos, h1⟩ := f32_60_1_bounds
  obtain ⟨_, hdiff⟩ := isFloat_tempDifference raw
  obtain ⟨_, hdiff'⟩ := isFloat_tempDifference raw'
  have hle : f32Units (fsub (f32OfInt raw.toNat) f32_17508) ≤ f32Units (fsub (f32OfInt raw'.toNat) f32_17508) := by
    rw [hdiff.units, hdiff'.units]
    exact Int.mul_le_mul_of_nonneg_right (by omega) (Int.natCast_nonneg _)
  exact f32Units_fadd_mono hfin25 (f32Finite_tempQuotient raw) (f32Finite_tempQuotient raw') hsmall
    (f32Units_fdiv_mono hdiff.finite hdiff'.finite hfin60 hpos h1 hle)

theorem cvtemp_response (a : Operand) (s : State) :
    responseOf .cvtemp a s = { status := 0#4, q := zext128 (rawToCelsius (halfOf a)) } := by
  rw [responseOf_eq, replyOf, cvtempReply, respond_ok]

/-- Settles O38: each step of the conversion keeps the order. -/
theorem cvtempIsMonotone : Obligations.CvtempIsMonotone := by
  unfold Obligations.CvtempIsMonotone
  intro a b s h
  rw [cvtemp_response, cvtemp_response, setWidth_zext128_f32, setWidth_zext128_f32]
  exact rawToCelsius_mono (by rwa [halfOf_toNat, halfOf_toNat])

/-! ## CVANG (R221) -/

theorem isFloat_rawToDegrees (raw : Half) : IsFloat (rawToDegrees raw) false (raw.toNat * (2 ^ 145 : Nat)) := by
  have hraw : raw.toNat < 2 ^ 16 := raw.isLt
  have hip : (raw.extractLsb' 4 12).toNat = raw.toNat / 16 := by
    rw [BitVec.extractLsb'_toNat, Nat.shiftRight_eq_div_pow]
    omega
  have hfp : (raw.extractLsb' 0 4).toNat = raw.toNat % 16 := by simp
  have hunit : f32One = 2 ^ 145 * 16 := f32One_eq_mul (q := 4) rfl
  have hsum : ((raw.toNat / 16 : Nat) : Int) * f32One + ((raw.toNat % 16 : Nat) : Int) * (2 ^ 145 : Nat) =
      raw.toNat * (2 ^ 145 : Nat) := by
    have hdiv : ((raw.toNat / 16 : Nat) : Int) * 16 + (raw.toNat % 16 : Nat) = raw.toNat := by omega
    rw [← hdiv, hunit]
    push_cast
    ring
  have hv : Representable (raw.toNat * (2 ^ 145 : Nat)) := representable_scaled (by omega) (by omega)
  have hint : IsFloat (f32OfInt (raw.toNat / 16 : Nat)) _ _ := isFloat_ofInt (by omega)
  have hfrac : IsFloat (f32OfInt (raw.toNat % 16 : Nat)) _ (((raw.toNat % 16 : Nat) : Int) * (2 ^ (145 + 4) : Nat)) :=
    isFloat_ofInt (by omega)
  have h := isFloat_fadd hint (isFloat_fdiv_two_pow hfrac isFloat_f32_16 (by omega) (by omega)) (by rwa [hsum])
  have hsign : ∀ n : Nat, decide ((n : Int) < 0) = false := fun n => decide_eq_false (by omega)
  rw [hsum, hsign, hsign, ← Nat.cast_mul, hsign, Bool.and_self, ite_self] at h
  rw [rawToDegrees, hip, hfp]
  exact_mod_cast h

/-- Settles O39: both parts are sixteenths of a degree. -/
theorem cvangResult : Obligations.CvangResult := by
  unfold Obligations.CvangResult
  intro s
  obtain ⟨hfin, hsign, hunits⟩ := isFloat_rawToDegrees (halfOf s.cmd.a)
  refine ⟨rfl, _, exec_of_ok rfl, hfin, ?_, hsign⟩
  rw [hunits, halfOf_toNat, f32One_eq_mul (p := 145) (q := 4) rfl]
  push_cast
  ring

/-! ## CVBURST (R223) -/

/-- The selector of CVBURST: four zeros, class, a zero, the range bit of X and Y, that of Z (R122). -/
theorem encode_cvburst (c : RangeClass) (rxy rz : RangeBit) :
    encode (.cvburst c rxy rz) = 0x23#8 ++ 0#4 ++ classCode c ++ 0#1 ++ rangeBitCode rxy ++ rangeBitCode rz := by
  cases c <;> cases rxy <;> cases rz <;> rfl

theorem cvtemp_lane (a : Operand) (s : State) :
    (responseOf .cvtemp a s).q.extractLsb' 0 32 = rawToCelsius (halfOf a) := by
  rw [cvtemp_response, extractLsb'_zext128_f32]

theorem cvmag_lane (c : RangeClass) (r : RangeBit) (axis : Axis) (a : Operand) (s : State) :
    (responseOf (.cvmag c r axis) a s).q.extractLsb' 0 32 = axisToMt c r axis (halfOf a) := by
  rw [responseOf_eq, replyOf, cvmagReply, respond_ok, extractLsb'_zext128_f32]

/-- The four values of the burst, from the lowest lane up. -/
def burstValues (c : RangeClass) (rxy rz : RangeBit) (a : Operand) : List F32 :=
  [rawToCelsius (burstHalf a 0), axisToMt c rxy .x (burstHalf a 1), axisToMt c rxy .y (burstHalf a 2),
    axisToMt c rz .z (burstHalf a 3)]

theorem cvburstReply_eq (c : RangeClass) (rxy rz : RangeBit) (a : Operand) :
    cvburstReply c rxy rz a = .ok (packFloats (burstValues c rxy rz a)) := rfl

theorem cvburst_lane (c : RangeClass) (rxy rz : RangeBit) (a : Operand) (s : State) {k : Nat} (hk : k < 4) :
    (responseOf (.cvburst c rxy rz) a s).q.extractLsb' (32 * k) 32 = (burstValues c rxy rz a).getD k 0#32 := by
  rw [responseOf_eq, replyOf, cvburstReply_eq, respond_ok, extractLsb'_packFloats hk]

/-- The pairs of the burst, high byte first (R104, R223). -/
theorem burstHalf_eq (a : Operand) :
    a.extractLsb' 0 8 ++ a.extractLsb' 8 8 = burstHalf a 0 ∧ a.extractLsb' 16 8 ++ a.extractLsb' 24 8 = burstHalf a 1 ∧
    a.extractLsb' 32 8 ++ a.extractLsb' 40 8 = burstHalf a 2 ∧ a.extractLsb' 48 8 ++ a.extractLsb' 56 8 = burstHalf a 3 :=
  ⟨rfl, rfl, rfl, rfl⟩

/-- Lane by lane. -/
theorem burstValues_getD (c : RangeClass) (rxy rz : RangeBit) (a : Operand) :
    (burstValues c rxy rz a).getD 0 0#32 = rawToCelsius (burstHalf a 0) ∧
    (burstValues c rxy rz a).getD 1 0#32 = axisToMt c rxy .x (burstHalf a 1) ∧
    (burstValues c rxy rz a).getD 2 0#32 = axisToMt c rxy .y (burstHalf a 2) ∧
    (burstValues c rxy rz a).getD 3 0#32 = axisToMt c rz .z (burstHalf a 3) := by
  simp only [burstValues, List.getD_cons_zero, List.getD_cons_succ, and_self]

/-- Settles O40: each lane is the conversion of its own pair. -/
theorem cvburstResult : Obligations.CvburstResult := by
  unfold Obligations.CvburstResult
  intro c rxy rz s
  obtain ⟨htemp, hx, hy, hz⟩ := burstHalf_eq s.cmd.a
  simp only [cvtemp_lane, cvmag_lane, halfOf_setWidth, htemp, hx, hy, hz]
  obtain ⟨h0, h1, h2, h3⟩ := burstValues_getD c rxy rz s.cmd.a
  exact ⟨encode_cvburst c rxy rz, _, exec_of_ok (cvburstReply_eq ..),
    (extractLsb'_packFloats (k := 0) (by omega) _).trans h0, (extractLsb'_packFloats (k := 1) (by omega) _).trans h1,
    (extractLsb'_packFloats (k := 2) (by omega) _).trans h2, (extractLsb'_packFloats (k := 3) (by omega) _).trans h3⟩

/-! ## THRDEC (R228) -/

theorem isFloat_byteToMt (c : RangeClass) (r : RangeBit) (raw : Byte) :
    IsFloat (byteToMt c r raw) (decide (raw.toInt < 0)) (raw.toInt * rangeMt c r * (2 ^ 142 : Nat)) := by
  have hraw := natAbs_toInt_le raw
  have hint : IsFloat (f32OfInt raw.toInt) _ (raw.toInt * (2 ^ (142 + 7) : Nat)) := isFloat_ofInt (by omega)
  exact isFloat_fmul_rangeF32 c r (isFloat_fdiv_two_pow hint isFloat_f32_128 (by omega) (by omega)) (by omega) (by omega)

/-- The selectors of THRENC and THRDEC: four zeros, class, range bit, two zeros (R122). -/
theorem encode_threnc (c : RangeClass) (r : RangeBit) :
    encode (.threnc c r) = 0x24#8 ++ 0#4 ++ classCode c ++ rangeBitCode r ++ 0#2 := by
  cases c <;> cases r <;> rfl

theorem encode_thrdec (c : RangeClass) (r : RangeBit) :
    encode (.thrdec c r) = 0x25#8 ++ 0#4 ++ classCode c ++ rangeBitCode r ++ 0#2 := by
  cases c <;> cases r <;> rfl

theorem byteAt_zero (a : Operand) : byteAt a 0 = a.extractLsb' 0 8 := rfl

/-- Settles O42: both steps of the conversion are exact. -/
theorem thrdecResult : Obligations.ThrdecResult := by
  unfold Obligations.ThrdecResult
  intro c r s
  obtain ⟨hfin, hsign, hunits⟩ := isFloat_byteToMt c r (byteAt s.cmd.a 0)
  refine ⟨encode_thrdec c r, _, exec_of_ok rfl, hfin, ?_, hsign⟩
  rw [hunits, f32One_eq_mul (p := 142) (q := 7) rfl, byteAt_zero]
  push_cast
  ring

/-! ## No converter forms a NaN or an infinity (R216) -/

theorem f32Finite_burstValues (c : RangeClass) (rxy rz : RangeBit) (a : Operand) :
    ∀ x ∈ burstValues c rxy rz a, f32Finite x := by
  intro x hx
  simp only [burstValues, List.mem_cons, List.not_mem_nil, or_false] at hx
  rcases hx with rfl | rfl | rfl | rfl
  · exact f32Finite_rawToCelsius _
  · exact (isFloat_axisToMt ..).finite
  · exact (isFloat_axisToMt ..).finite
  · exact (isFloat_axisToMt ..).finite

/-- Settles O47: the results that are not exact are those of CVTEMP. -/
theorem convertersFormFiniteValues : Obligations.ConvertersFormFiniteValues := by
  unfold Obligations.ConvertersFormFiniteValues
  intro a s
  refine ⟨?_, ?_, fun c r axis => ?_, fun c r => ?_, fun c rxy rz k hk => ?_⟩
  · rw [cvtemp_lane]
    exact f32Finite_rawToCelsius _
  · rw [responseOf_eq, replyOf, cvangReply, respond_ok, extractLsb'_zext128_f32]
    exact (isFloat_rawToDegrees _).finite
  · rw [cvmag_lane]
    exact (isFloat_axisToMt ..).finite
  · rw [responseOf_eq, replyOf, thrdecReply, respond_ok, extractLsb'_zext128_f32]
    exact (isFloat_byteToMt ..).finite
  · have hlen : k < (burstValues c rxy rz a).length := hk
    rw [cvburst_lane c rxy rz a s hk, List.getD_eq_getElem _ _ hlen]
    exact f32Finite_burstValues c rxy rz a _ (List.getElem_mem hlen)

end Sys2Proof.Machine

/-! O41, O43, O44, O45, O46. Thresholds (R225 to R229): the clamp of R225 never acts on a value within the range, the product
with 128 is exact, and both settings of the quantiser keep to whole numbers; then the operations that form no binary32 value
(R231 to R234). -/

namespace Sys2Proof.Machine

/-! ## Magnitudes and comparisons (R10) -/

theorem f32Exp_fabs (x : F32) : f32Exp (fabs x) = f32Exp x := by
  have hmask : (0x7FFFFFFF#32).extractLsb' 23 8 = BitVec.allOnes 8 := by decide
  rw [f32Exp, fabs, BitVec.extractLsb'_and, hmask, BitVec.and_allOnes, f32Exp]

theorem f32Frac_fabs (x : F32) : f32Frac (fabs x) = f32Frac x := by
  have hmask : (0x7FFFFFFF#32).extractLsb' 0 23 = BitVec.allOnes 23 := by decide
  rw [f32Frac, fabs, BitVec.extractLsb'_and, hmask, BitVec.and_allOnes, f32Frac]

theorem isNaN_fabs (x : F32) : isNaN (fabs x) = isNaN x := by
  rw [isNaN, f32Exp_fabs, f32Frac_fabs, isNaN]

theorem f32Units_fabs (x : F32) : f32Units (fabs x) = f32Mag x := by
  have hsign : f32Sign (fabs x) = false := by simp [f32Sign, fabs]
  have hmag : f32Mag (fabs x) = f32Mag x := by rw [f32Mag, f32Exp_fabs, f32Frac_fabs, f32Mag]
  rw [f32Units_eq_signed, hsign, hmag]
  rfl

/-- An infinity is one step above the largest finite value. -/
theorem f32Mag_of_isInf {x : F32} (h : isInf x = true) : f32Mag x = 2 ^ 23 * 2 ^ 254 := by
  rw [isInf, Bool.and_eq_true, beq_iff_eq, beq_iff_eq] at h
  obtain ⟨hexp, hfrac⟩ := h
  rw [f32Mag, hexp, hfrac]
  rfl

theorem isNaN_of_isInf {x : F32} (h : isInf x = true) : isNaN x = false := by
  rw [isInf, Bool.and_eq_true, beq_iff_eq, beq_iff_eq] at h
  simp [isNaN, h.2]

theorem fmax_of_le {x y : F32} (h : f32Units x ≤ f32Units y) : fmax x y = y := by
  simp [fmax, fgt, not_lt.mpr h]

theorem fmin_of_le {x y : F32} (h : f32Units y ≤ f32Units x) : fmin x y = y := by
  simp [fmin, fgt, not_lt.mpr h]

/-! ## The range (R90, R225) -/

/-- The units of the range. -/
abbrev rangeUnits (c : RangeClass) (r : RangeBit) : Nat := rangeMt c r * f32One

theorem rangeUnits_bounds (c : RangeClass) (r : RangeBit) :
    f32One ≤ rangeUnits c r ∧ rangeUnits c r < 2 ^ 23 * 2 ^ 254 := by
  obtain ⟨hlow, hhigh⟩ := rangeMt_bounds c r
  refine ⟨Nat.le_mul_of_pos_left _ (by omega), ?_⟩
  calc rangeMt c r * f32One ≤ 266 * f32One := Nat.mul_le_mul_right _ hhigh
    _ < 2 ^ 23 * 2 ^ 254 := by decide

/-- An infinity is beyond every range. -/
theorem range_lt_of_isInf {m : F32} (h : isInf m = true) (c : RangeClass) (r : RangeBit) : rangeUnits c r < f32Mag m := by
  rw [f32Mag_of_isInf h]
  exact (rangeUnits_bounds c r).2

theorem f32Finite_of_within {c : RangeClass} {r : RangeBit} {m : F32} (hnan : isNaN m = false)
    (hle : f32Mag m ≤ rangeUnits c r) : f32Finite m :=
  ⟨hnan, Bool.eq_false_iff.mpr fun h => Nat.not_le_of_lt (range_lt_of_isInf h c r) hle⟩

/-- The test of R225. -/
theorem fgt_fabs_rangeF32 (c : RangeClass) (r : RangeBit) {m : F32} (hnan : isNaN m = false) :
    fgt (fabs m) (rangeF32 c r) = true ↔ rangeUnits c r < f32Mag m := by
  obtain ⟨hrnan, -⟩ := rangeF32_finite c r
  rw [fgt, isNaN_fabs, hnan, hrnan, f32Units_fabs, (isFloat_rangeF32 c r).units]
  simp only [Bool.not_false, Bool.true_and, decide_eq_true_eq, gt_iff_lt, Nat.cast_lt]

/-! ## The quantiser (R226) -/

/-- The quantiser on a magnitude. -/
def quantMag (t : Config.ThrQuant) (n : Nat) : Nat :=
  match t with
  | .trunc => n / f32One
  | .roundHalfAway => (2 * n + f32One) / (2 * f32One)

theorem quantMag_zero (t : Config.ThrQuant) : quantMag t 0 = 0 := by
  cases t <;> decide

theorem quantMag_near (t : Config.ThrQuant) (n : Nat) :
    n < quantMag t n * f32One + f32One ∧ quantMag t n * f32One < n + f32One := by
  cases t with
  | trunc => rw [quantMag, f32One]; omega
  | roundHalfAway => rw [quantMag, f32One]; omega

theorem nearestAway_signed (neg : Bool) (n : Nat) :
    nearestAway (signed neg n) = signed neg (quantMag .roundHalfAway n) := by
  rw [nearestAway, natAbs_signed]
  rcases Nat.eq_zero_or_pos n with rfl | hpos
  · rw [quantMag_zero]
    cases neg <;> rfl
  · have hquot : (2 * (n : Int) + f32One) / (2 * f32One) = (quantMag .roundHalfAway n : Nat) := by
      rw [quantMag]
      push_cast
      rfl
    rw [hquot]
    cases neg with
    | false => rw [signed, signed, if_neg (by decide), if_neg (by decide), Int.sign_eq_one_of_pos (by omega), Int.one_mul]
    | true =>
      rw [signed, signed, if_pos rfl, if_pos rfl, Int.sign_eq_neg_one_of_neg (by omega), Int.neg_mul, Int.one_mul]

/-- The quantiser keeps the sign, under either setting. -/
theorem quantUnits_signed (t : Config.ThrQuant) (neg : Bool) (n : Nat) :
    quantUnits t (signed neg n) = signed neg (quantMag t n) := by
  cases t with
  | trunc =>
    cases neg with
    | false => exact (Int.ofNat_tdiv n f32One).symm
    | true => exact (Int.neg_tdiv ..).trans (congrArg Neg.neg (Int.ofNat_tdiv n f32One).symm)
  | roundHalfAway => exact nearestAway_signed neg n

/-- The quantiser sees the value, not the pattern. -/
theorem quant_eq (t : Config.ThrQuant) (x : F32) : quant t x = quantUnits t (f32Units x) := by
  cases t with
  | trunc => rfl
  | roundHalfAway =>
    rw [quantUnits, f32Units_eq_signed, nearestAway_signed]
    rfl

/-- A value's quantum is less than 1 away from it, under either setting. -/
theorem quantUnits_near (t : Config.ThrQuant) (u : Int) : (quantUnits t u * f32One - u).natAbs < f32One := by
  obtain ⟨hup, hdown⟩ := quantMag_near t u.natAbs
  rw [← signed_natAbs u, quantUnits_signed, natAbs_signed_sub, if_pos rfl, distTo]
  omega

/-- A whole number at most a value is at most its quantum. -/
theorem le_quantUnits {t : Config.ThrQuant} {i u : Int} (h : i * f32One ≤ u) : i ≤ quantUnits t u := by
  have hnear := quantUnits_near t u
  rw [f32One] at h hnear
  omega

/-- A whole number at least a value is at least its quantum. -/
theorem quantUnits_le {t : Config.ThrQuant} {i u : Int} (h : u ≤ i * f32One) : quantUnits t u ≤ i := by
  have hnear := quantUnits_near t u
  rw [f32One] at h hnear
  omega

/-! ## The quotient by the range (R225) -/

theorem f32Mag_rangeF32 (c : RangeClass) (r : RangeBit) : f32Mag (rangeF32 c r) = rangeUnits c r :=
  f32Mag_of_isFloat (isFloat_rangeF32 c r)

theorem f32Finite_fdiv_rangeF32 {m : F32} (hm : f32Finite m) (c : RangeClass) (r : RangeBit) :
    f32Finite (fdiv m (rangeF32 c r)) :=
  f32Finite_fdiv_of_one_le hm (rangeF32_finite c r) (by rw [f32Mag_rangeF32]; exact (rangeUnits_bounds c r).1)

theorem f32Units_fdiv_rangeF32 {m : F32} (hm : f32Finite m) (c : RangeClass) (r : RangeBit) :
    f32Units (fdiv m (rangeF32 c r)) = roundUnits (f32Units m * f32One) (rangeUnits c r) := by
  obtain ⟨hfin, hpos, -⟩ := isFloat_rangeF32 c r
  have hone := (rangeUnits_bounds c r).1
  have hmag := f32Mag_rangeF32 c r
  rw [f32Units_fdiv hm hfin hpos (by have := f32One_pos; omega), hmag]

theorem representable_128ths {i : Int} (hi : i.natAbs < 2 ^ 24) : Representable (i * (2 ^ 142 : Nat)) :=
  representable_scaled hi (by omega)

/-- A threshold in units, and a number of 128ths of the range, before the quotient is rounded. -/
theorem scaled_128ths (i u : Int) (d : Nat) :
    (i * (2 ^ 142 : Nat) * d ≤ u * f32One ↔ i * d ≤ u * 128) ∧ (u * f32One ≤ i * (2 ^ 142 : Nat) * d ↔ u * 128 ≤ i * d) := by
  have hpos : (0 : Int) < (2 ^ 142 : Nat) := by exact_mod_cast Nat.two_pow_pos 142
  have hi : i * (2 ^ 142 : Nat) * d = i * d * (2 ^ 142 : Nat) := by ring
  have hu : u * f32One = u * 128 * (2 ^ 142 : Nat) := by
    rw [f32One_eq_mul (p := 142) (q := 7) rfl]
    push_cast
    ring
  rw [hi, hu]
  exact ⟨Int.mul_le_mul_right hpos, Int.mul_le_mul_right hpos⟩

theorem mul_two_pow_142_mul_128 (i : Int) : i * (2 ^ 142 : Nat) * 128 = i * f32One := by
  rw [f32One_eq_mul (p := 142) (q := 7) rfl]
  push_cast
  ring

/-- The rounded quotient does not pass a 128th of the range: those are binary32 values. -/
theorem le_quotient {c : RangeClass} {r : RangeBit} {m : F32} (hm : f32Finite m) {i : Int} (hi : i.natAbs < 2 ^ 24)
    (h : i * rangeUnits c r ≤ f32Units m * 128) : i * f32One ≤ f32Units (fdiv m (rangeF32 c r)) * 128 := by
  have hone := (rangeUnits_bounds c r).1
  have hd : 0 < rangeUnits c r := Nat.lt_of_lt_of_le f32One_pos hone
  have hv := representable_128ths hi
  have hle := roundUnits_mono hd (roundsFinite_exact hd hv) (roundsFinite_div hm hone) ((scaled_128ths _ _ _).1.mpr h)
  rw [roundUnits_exact hd hv, ← f32Units_fdiv_rangeF32 hm] at hle
  rw [← mul_two_pow_142_mul_128]
  exact Int.mul_le_mul_of_nonneg_right hle (by decide)

theorem quotient_le {c : RangeClass} {r : RangeBit} {m : F32} (hm : f32Finite m) {i : Int} (hi : i.natAbs < 2 ^ 24)
    (h : f32Units m * 128 ≤ i * rangeUnits c r) : f32Units (fdiv m (rangeF32 c r)) * 128 ≤ i * f32One := by
  have hone := (rangeUnits_bounds c r).1
  have hd : 0 < rangeUnits c r := Nat.lt_of_lt_of_le f32One_pos hone
  have hv := representable_128ths hi
  have hle := roundUnits_mono hd (roundsFinite_div hm hone) (roundsFinite_exact hd hv) ((scaled_128ths _ _ _).2.mpr h)
  rw [roundUnits_exact hd hv, ← f32Units_fdiv_rangeF32 hm] at hle
  rw [← mul_two_pow_142_mul_128]
  exact Int.mul_le_mul_of_nonneg_right hle (by decide)

/-- Within the range the quotient is within 1. -/
theorem quotient_within {c : RangeClass} {r : RangeBit} {m : F32} (hm : f32Finite m) (hle : f32Mag m ≤ rangeUnits c r) :
    -128 * f32One ≤ f32Units (fdiv m (rangeF32 c r)) * 128 ∧ f32Units (fdiv m (rangeF32 c r)) * 128 ≤ 128 * f32One := by
  have habs := natAbs_f32Units m
  exact ⟨le_quotient hm (by decide) (by omega), quotient_le hm (by decide) (by omega)⟩

/-! ## THRENC (R225, R226) -/

/-- A product of 128 and a value up to 1 is exact. -/
theorem f32Units_fmul_128 {x : F32} (hx : f32Finite x) (hle : f32Mag x ≤ f32One) :
    f32Units (fmul x f32_128) = f32Units x * 128 := by
  obtain ⟨j, p, hj, -, hnormal, hmag⟩ := representable_f32Mag hx
  have hp : p ≤ 246 := by
    by_contra hlarge
    have hj23 : 2 ^ 23 ≤ j := hnormal.resolve_left (by omega)
    have hbig : 2 ^ 23 * 2 ^ 247 ≤ j * 2 ^ p := Nat.mul_le_mul hj23 (Nat.pow_le_pow_right (by omega) (by omega))
    rw [f32One] at hle
    omega
  have hv : Representable (f32Units x * 128) := by
    refine ⟨j, p + 7, hj, by omega, ?_⟩
    rw [Int.natAbs_mul, natAbs_f32Units, hmag, Nat.pow_add, ← Nat.mul_assoc]
    rfl
  exact (isFloat_fmul ⟨hx, rfl, rfl⟩ isFloat_f32_128 hv (by push_cast; ring)).units

/-- The number THRENC makes a byte of, before the upper limit. -/
def thresholdCount (t : Config.ThrQuant) (c : RangeClass) (r : RangeBit) (m : F32) : Int :=
  quantUnits t (f32Units (fdiv m (rangeF32 c r)) * 128)

theorem thresholdCount_bounds (t : Config.ThrQuant) {c : RangeClass} {r : RangeBit} {m : F32} (hm : f32Finite m)
    (hle : f32Mag m ≤ rangeUnits c r) : -128 ≤ thresholdCount t c r m ∧ thresholdCount t c r m ≤ 128 := by
  obtain ⟨hlow, hhigh⟩ := quotient_within hm hle
  exact ⟨le_quantUnits hlow, quantUnits_le hhigh⟩

/-- Within the range the clamp passes the quotient on. -/
theorem mtToByte_within (t : Config.ThrQuant) {c : RangeClass} {r : RangeBit} {m : F32} (hm : f32Finite m)
    (hle : f32Mag m ≤ rangeUnits c r) : mtToByte t c r m = BitVec.ofInt 8 (min 127 (thresholdCount t c r m)) := by
  obtain ⟨hlow, hhigh⟩ := quotient_within hm hle
  have habs := natAbs_f32Units (fdiv m (rangeF32 c r))
  have hmax : fmax f32_neg1 (fdiv m (rangeF32 c r)) = fdiv m (rangeF32 c r) := by
    have hunits : f32Units f32_neg1 = -f32One := rfl
    exact fmax_of_le (by omega)
  have hmin : fmin f32_1 (fdiv m (rangeF32 c r)) = fdiv m (rangeF32 c r) := by
    have hunits : f32Units f32_1 = f32One := rfl
    exact fmin_of_le (by omega)
  have hprod := f32Units_fmul_128 (f32Finite_fdiv_rangeF32 hm c r) (by omega)
  have hsat : max (-128) (thresholdCount t c r m) = thresholdCount t c r m :=
    max_eq_right (thresholdCount_bounds t hm hle).1
  rw [mtToByte, hmax, hmin, quant_eq, hprod, ← thresholdCount, sat8, hsat, tc8]

theorem threncReply_nan (t : Config.ThrQuant) (c : RangeClass) (r : RangeBit) {a : Operand}
    (h : isNaN (floatOf a) = true) : threncReply t c r a = .error .badOperand :=
  if_pos h

theorem threncReply_beyond (t : Config.ThrQuant) {c : RangeClass} {r : RangeBit} {a : Operand}
    (hnan : isNaN (floatOf a) = false) (h : rangeUnits c r < f32Mag (floatOf a)) :
    threncReply t c r a = .error .outOfRange :=
  (if_neg (by rw [hnan]; decide)).trans (if_pos ((fgt_fabs_rangeF32 c r hnan).mpr h))

theorem threncReply_within (t : Config.ThrQuant) {c : RangeClass} {r : RangeBit} {a : Operand}
    (hnan : isNaN (floatOf a) = false) (hle : f32Mag (floatOf a) ≤ rangeUnits c r) :
    threncReply t c r a = .ok (zext128 (BitVec.ofInt 8 (min 127 (thresholdCount t c r (floatOf a))))) := by
  have hfgt : ¬ fgt (fabs (floatOf a)) (rangeF32 c r) = true := by
    rw [fgt_fabs_rangeF32 c r hnan]
    omega
  rw [← mtToByte_within t (f32Finite_of_within hnan hle) hle]
  exact (if_neg (by rw [hnan]; decide)).trans (if_neg hfgt)

/-- Settles O41: the two refusals, an infinity being beyond every range, and the byte. -/
theorem threncResult : Obligations.ThrencResult := by
  unfold Obligations.ThrencResult
  intro c r s
  refine ⟨encode_threnc c r, fun h => exec_of_error (threncReply_nan _ c r h) rfl,
    fun hnan h => exec_of_error (threncReply_beyond _ hnan h) rfl,
    fun h => exec_of_error (threncReply_beyond _ (isNaN_of_isInf h) (range_lt_of_isInf h c r)) rfl, fun hnan hle => ?_⟩
  have hbounds := thresholdCount_bounds s.thrQuant (f32Finite_of_within hnan hle) hle
  rw [thresholdCount] at hbounds
  exact ⟨_, rfl, by omega, by omega, exec_of_ok (threncReply_within _ hnan hle)⟩

/-! ## Both ways round (R229) -/

theorem floatOf_setWidth (x : F32) : floatOf (x.setWidth 64) = x := by
  apply BitVec.eq_of_getLsbD_eq
  intro j hj
  have hword : j < 64 := by omega
  simp [floatOf, hj, hword]

theorem byteAt_setWidth_byte (b : Byte) : byteAt (b.setWidth 64) 0 = b := by
  apply BitVec.eq_of_getLsbD_eq
  intro j hj
  have hword : j < 64 := by omega
  simp [byteAt, hj, hword]

theorem thrdec_response (c : RangeClass) (r : RangeBit) (b : Byte) (s : State) :
    responseOf (.thrdec c r) (b.setWidth 64) s = { status := 0#4, q := zext128 (byteToMt c r b) } := by
  rw [responseOf_eq, replyOf, thrdecReply, respond_ok, byteAt_setWidth_byte]

theorem threnc_response {c : RangeClass} {r : RangeBit} {m : F32} (hnan : isNaN m = false)
    (hle : f32Mag m ≤ rangeUnits c r) (s : State) :
    responseOf (.threnc c r) (m.setWidth 64) s =
      { status := 0#4, q := zext128 (BitVec.ofInt 8 (min 127 (thresholdCount s.thrQuant c r m))) } := by
  have hfloat := floatOf_setWidth m
  have hreply := threncReply_within s.thrQuant (c := c) (r := r) (a := m.setWidth 64) (by rwa [hfloat]) (by rwa [hfloat])
  rw [responseOf_eq, replyOf, hreply, respond_ok, hfloat]

/-- A decoded byte is within the range. -/
theorem f32Mag_byteToMt_le (c : RangeClass) (r : RangeBit) (b : Byte) : f32Mag (byteToMt c r b) ≤ rangeUnits c r := by
  have hb := natAbs_toInt_le b
  rw [← natAbs_f32Units, (isFloat_byteToMt c r b).units, rangeUnits, f32One_eq_mul (p := 142) (q := 7) rfl]
  rw [Int.natAbs_mul, Int.natAbs_mul, Int.natAbs_natCast, Int.natAbs_natCast]
  calc b.toInt.natAbs * rangeMt c r * 2 ^ 142
      ≤ 2 ^ 7 * rangeMt c r * 2 ^ 142 := Nat.mul_le_mul_right _ (Nat.mul_le_mul_right _ hb)
    _ = rangeMt c r * (2 ^ 142 * 2 ^ 7) := by ring

/-- The quotient of a decoded byte is exact, and the byte its quantum. -/
theorem thresholdCount_byteToMt (t : Config.ThrQuant) (c : RangeClass) (r : RangeBit) (b : Byte) :
    thresholdCount t c r (byteToMt c r b) = b.toInt := by
  have hb := natAbs_toInt_le b
  have hd : 0 < rangeUnits c r := Nat.lt_of_lt_of_le f32One_pos (rangeUnits_bounds c r).1
  have hquot := isFloat_fdiv hd (isFloat_byteToMt c r b) (isFloat_rangeF32 c r) (representable_128ths (i := b.toInt) (by omega))
    (by rw [rangeUnits]; push_cast; ring)
  rw [thresholdCount, hquot.units, mul_two_pow_142_mul_128]
  exact le_antisymm (quantUnits_le (le_refl _)) (le_quantUnits (le_refl _))

/-- Settles O43: the byte is below the upper limit. -/
theorem thresholdByteRoundTrip : Obligations.ThresholdByteRoundTrip := by
  unfold Obligations.ThresholdByteRoundTrip
  intro c r b s
  have hlimit : min 127 b.toInt = b.toInt := min_eq_right (by have := b.toInt_lt; omega)
  have hoperand : (zext128 (byteToMt c r b)).setWidth 64 = (byteToMt c r b).setWidth 64 :=
    BitVec.setWidth_setWidth_of_le _ (by omega)
  rw [thrdec_response, hoperand, threnc_response (isFloat_byteToMt c r b).finite.1 (f32Mag_byteToMt_le c r b),
    thresholdCount_byteToMt, hlimit, BitVec.ofInt_toInt, zext128]

/-- The count is within 1 of the threshold in 128ths of the range, held at 127 or not. -/
theorem thresholdCount_near (t : Config.ThrQuant) {c : RangeClass} {r : RangeBit} {m : F32} (hm : f32Finite m)
    (hle : f32Mag m ≤ rangeUnits c r) :
    (min 127 (thresholdCount t c r m) * rangeUnits c r - f32Units m * 128).natAbs ≤ rangeUnits c r := by
  obtain ⟨hlow, hhigh⟩ := thresholdCount_bounds t hm hle
  have habs := natAbs_f32Units m
  -- the count passes no whole number that the threshold does not pass
  have hbelow : ∀ i : Int, i.natAbs < 2 ^ 24 → i * rangeUnits c r ≤ f32Units m * 128 → i ≤ thresholdCount t c r m :=
    fun i hi h => le_quantUnits (le_quotient hm hi h)
  have habove : ∀ i : Int, i.natAbs < 2 ^ 24 → f32Units m * 128 ≤ i * rangeUnits c r → thresholdCount t c r m ≤ i :=
    fun i hi h => quantUnits_le (quotient_le hm hi h)
  generalize thresholdCount t c r m = count at *
  generalize hk : min 127 count = k
  have hnext := hbelow (k + 1) (by omega)
  have hprev := habove (k - 1) (by omega)
  rw [Int.add_mul, Int.one_mul] at hnext
  rw [Int.sub_mul, Int.one_mul] at hprev
  rcases eq_or_ne k 127 with rfl | hne
  · omega
  · omega

theorem toInt_ofInt_byte {k : Int} (hlow : -128 ≤ k) (hhigh : k ≤ 127) : (BitVec.ofInt 8 k).toInt = k := by
  rw [BitVec.toInt_ofInt, Int.bmod_eq_of_le] <;> omega

/-- Settles O44: decoding is exact, so the distance is that of the count. -/
theorem thresholdRoundTripBound : Obligations.ThresholdRoundTripBound := by
  unfold Obligations.ThresholdRoundTripBound
  intro c r m s hnan hle
  have hm := f32Finite_of_within hnan hle
  obtain ⟨hlow, hhigh⟩ := thresholdCount_bounds s.thrQuant hm hle
  refine ⟨_, _, threnc_response hnan hle s, thrdec_response c r _ s, ?_⟩
  have hunits : f32Units (byteToMt c r (BitVec.ofInt 8 (min 127 (thresholdCount s.thrQuant c r m)))) * 128 =
      min 127 (thresholdCount s.thrQuant c r m) * rangeUnits c r := by
    rw [(isFloat_byteToMt c r _).units, toInt_ofInt_byte (by omega) (by omega), mul_two_pow_142_mul_128]
    push_cast
    ring
  rw [show (128 : Nat) = (128 : Int).natAbs from rfl, ← Int.natAbs_mul, Int.sub_mul, hunits]
  exact thresholdCount_near s.thrQuant hm hle

/-! ## GAIN and MAGN, OFFENC and OFFDEC (R231 to R234) -/

theorem zext128_byteAt_zero (a : Operand) : zext128 (byteAt a 0) = BitVec.ofNat 128 (a.toNat % 256) := by
  rw [zext128_eq_ofNat, byteAt_toNat, operandLane, Nat.mul_zero, Nat.pow_zero, Nat.div_one]

/-- Settles O45: both answer byte 0 of the operand. -/
theorem gainMagnResults : Obligations.GainMagnResults := by
  unfold Obligations.GainMagnResults
  intro s
  rw [← zext128_byteAt_zero]
  exact ⟨rfl, rfl, exec_of_ok rfl, exec_of_ok rfl⟩

/-- The angle field decides which fault it is. -/
theorem offsetReply_eq (a : Operand) :
    offsetReply tables (halfOf a) =
      if a.toNat / 1024 % 4 = 0 then .error .wrongMode else .error .unimplemented :=
  if_congr ((angleOff_iff _).trans (by rw [scAngle_toNat])) rfl rfl

/-- Settles O46: both operations keep the angle check and form no value. -/
theorem offsetOperationsFault : Obligations.OffsetOperationsFault := by
  unfold Obligations.OffsetOperationsFault
  intro s
  have hreply := offsetReply_eq s.cmd.a
  exact ⟨rfl, rfl,
    fun h => ⟨exec_of_error (hreply.trans (if_pos h)) rfl, exec_of_error (hreply.trans (if_pos h)) rfl⟩,
    fun h => ⟨exec_of_error (hreply.trans (if_neg h)) rfl, exec_of_error (hreply.trans (if_neg h)) rfl⟩⟩

end Sys2Proof.Machine

/-! O55, O56, O57, O58. What a host sequence does but for the block's ports, composed from what its parts do; then the burst of
GetAllData (R255, R296), the refusal of a threshold beyond the range (R247, R284), and the sequences that build registers and
write them, InitDefault (R244) and a group `set` (R258, R297). -/

namespace Sys2Proof.Machine

/-! ## What a sequence comes to, but for the ports (R120, R240) -/

/-- The state with other contents of the block's ports. -/
def State.withPorts (s : State) (c : Command) (rs : List Response) : State := { s with cmd := c, responses := rs }

/-- Whatever stands on the ports, the sequence leads from `s` to the value `v` and the state `t`. -/
def Yields {α : Type} (k : State → HostRun α) (s : State) (v : α) (t : State) : Prop :=
  ∀ c rs, ∃ c' rs', k (s.withPorts c rs) = .value v (t.withPorts c' rs')

/-- Whatever stands on the ports, the sequence leads from `s` to an end with the status `st` and the state `t`. -/
def EndsWith {α : Type} (k : State → HostRun α) (s : State) (st : BitVec 4) (t : State) : Prop :=
  ∀ c rs, ∃ c' rs', k (s.withPorts c rs) = .ended st (t.withPorts c' rs')

section Composition

variable {α β : Type} {k : State → HostRun α} {m : α → State → HostRun β} {s t u : State} {v : α} {st : BitVec 4}

theorem yields_value (v : α) (s : State) : Yields (.value v) s v s := fun _ _ => ⟨_, _, rfl⟩

theorem Yields.andThen {v' : β} (hk : Yields k s v t) (hm : Yields (m v) t v' u) :
    Yields (fun s => (k s).andThen m) s v' u := by
  intro c rs
  obtain ⟨c', rs', heq⟩ := hk c rs
  obtain ⟨c'', rs'', heq'⟩ := hm c' rs'
  exact ⟨c'', rs'', (congrArg (HostRun.andThen · m) heq).trans heq'⟩

theorem Yields.andThen_ends (hk : Yields k s v t) (hm : EndsWith (m v) t st u) :
    EndsWith (fun s => (k s).andThen m) s st u := by
  intro c rs
  obtain ⟨c', rs', heq⟩ := hk c rs
  obtain ⟨c'', rs'', heq'⟩ := hm c' rs'
  exact ⟨c'', rs'', (congrArg (HostRun.andThen · m) heq).trans heq'⟩

/-- The first fault ends the sequence (R240). -/
theorem EndsWith.andThen (hk : EndsWith k s st t) : EndsWith (fun s => (k s).andThen m) s st t := by
  intro c rs
  obtain ⟨c', rs', heq⟩ := hk c rs
  exact ⟨c', rs', congrArg (HostRun.andThen · m) heq⟩

end Composition

section Step

variable {s t : State} {x : Session} {h : HostCall} {rest : List HostAction} {k : State → Session → HostRun HostValue}

/-- A step of a sequence that comes to a value. -/
theorem step_of_yields {v : HostValue} (hcall : ∀ u, runCall h u = withSession u (k u)) (hx : s.session = some x)
    (hin : s.inputs = .call h :: rest) (hk : Yields (k · x) (s.waiting rest) v t) :
    ∃ u, step s = .next u ∧ u.results = t.results ++ [.returned v] ∧ u.trace = t.trace ∧ u.regs = t.regs := by
  obtain ⟨c, rs, hrun⟩ := hk s.cmd s.responses
  exact ⟨_, (step_call_of_session hcall hin hx).trans (congrArg finish hrun), rfl, rfl, rfl⟩

/-- A step of a sequence that ends with a fault's status. -/
theorem step_of_endsWith {st : BitVec 4} (hcall : ∀ u, runCall h u = withSession u (k u)) (hx : s.session = some x)
    (hin : s.inputs = .call h :: rest) (hk : EndsWith (k · x) (s.waiting rest) st t) :
    ∃ u, step s = .next u ∧ u.results = t.results ++ [.failed st] ∧ u.trace = t.trace ∧ u.regs = t.regs := by
  obtain ⟨c, rs, hrun⟩ := hk s.cmd s.responses
  exact ⟨_, (step_call_of_session hcall hin hx).trans (congrArg finish hrun), rfl, rfl, rfl⟩

end Step

/-! ## The parts of the sequences -/

/-- What holds of every coming event holds of those after the next. -/
theorem forall_mem_tail {α : Type} {p : α → Prop} {l : List α} (h : ∀ e ∈ l, p e) : ∀ e ∈ l.tail, p e :=
  fun e he => h e (List.mem_of_mem_tail he)

theorem ask_yields {i : Instr} (hi : i.wellFormed = true) {a : Operand} {s : State} {q : Result}
    (h : replyOf s.thrQuant a i = .ok q) : Yields (ask i a) s q s :=
  fun _ _ => ⟨_, _, ask_of_ok hi h⟩

theorem ask_endsWith {i : Instr} (hi : i.wellFormed = true) {a : Operand} {s : State} {f : FaultKind}
    (h : replyOf s.thrQuant a i = .error f) : EndsWith (ask i a) s (statusCode f) s :=
  fun _ _ => ⟨_, _, ask_of_fault hi (respond_status_of_error h) (statusCode_ne_zero f)⟩

theorem memRead_yields (w : BitVec 7) {reg : Reg} {len : ReadLen} {s : State} (hr : readAllowed tables len reg = true)
    (hbus : s.envEvent.fails = false) :
    Yields (memRead w reg len) s (s.settle.regs.readBytes (addrByte tables reg).toNat (lenBytes len))
      (s.readOut w reg len) :=
  fun _ _ => ⟨_, _, memRead_carried w hr hbus⟩

theorem readSc_yields (w : BitVec 7) {s : State} (hbus : s.envEvent.fails = false) :
    Yields (readSc w) s s.comingSc (s.scRead w) :=
  fun _ _ => ⟨_, _, readSc_carried w hbus⟩

theorem memWrite_yields (w : BitVec 7) {reg : Reg} (v : Byte) {s : State} (hrw : (regCode reg).toNat < 0x0D)
    (hbus : s.envEvent.fails = false) : Yields (memWrite w reg v) s () (s.written w reg v) :=
  fun _ _ => ⟨_, _, memWrite_carried w v hrw hbus⟩

/-- What a write frame leaves behind that the transport does not carry: nothing but its record (R297). -/
def State.lost (s : State) (w : BitVec 7) (reg : Reg) (v : Byte) : State :=
  s.settle.logBus (.wrote w [addrByte tables reg, v] false)

theorem memWrite_endsWith (w : BitVec 7) {reg : Reg} (v : Byte) {s : State} (hrw : (regCode reg).toNat < 0x0D)
    (hbus : s.envEvent.fails = true) : EndsWith (memWrite w reg v) s 7#4 (s.lost w reg v) := by
  intro c rs
  have hro : isReadOnly tables reg = false := by simp [isReadOnly_tables, hrw]
  rw [memWrite_eq, if_neg (by simp [hro]), busWrite_frame w v (addrByte_le_of_writable hro)]
  exact ⟨_, _, if_pos hbus⟩

/-! ## The bits of the sensor configuration that the sequences look at (R69 to R71, R203, R205) -/

/-- A bit of SENSOR_CONFIG_2 in the composite that the coming read finds. -/
theorem halfOperand_comingSc_bit (s : State) (k : Nat) :
    (halfOperand s.comingSc).toNat / 2 ^ (8 + k) % 2 = ((s.settle.regs.read 0x03).extractLsb' k 1).toNat := by
  have hhigh : (halfOperand s.comingSc).toNat / 2 ^ 8 = (s.settle.regs.read 0x03).toNat := by
    have hlt := (s.settle.regs.read 0x02).isLt
    rw [halfOperand_comingSc_toNat]
    omega
  rw [pow_add, ← Nat.div_div_eq_div_mul, hhigh, BitVec.extractLsb'_toNat, Nat.shiftRight_eq_div_pow, pow_one]

theorem scXYRange_comingSc (s : State) :
    scXYRange tables s.comingSc = (s.settle.regs.read 0x03).extractLsb' 1 1 := by
  have hsc := scXYRange_toNat (halfOperand s.comingSc)
  rw [halfOperand, halfOf_setWidth] at hsc
  exact BitVec.eq_of_toNat_eq (hsc.trans (halfOperand_comingSc_bit s 1))

theorem scZRange_comingSc (s : State) :
    scZRange tables s.comingSc = (s.settle.regs.read 0x03).extractLsb' 0 1 := by
  have hsc := scZRange_toNat (halfOperand s.comingSc)
  rw [halfOperand, halfOf_setWidth] at hsc
  exact BitVec.eq_of_toNat_eq (hsc.trans (halfOperand_comingSc_bit s 0))

/-- A range is the high one exactly where its bit is set (R70, R71). -/
theorem rangeBitOfCode_extractLsb' (b : Byte) (k : Nat) :
    rangeBitOfCode (b.extractLsb' k 1) = if b.getLsbD k then .high else .low := by
  have hcode : ∀ c : BitVec 1, rangeBitOfCode c = if c.getLsbD 0 then .high else .low := by decide
  rw [hcode]
  simp

/-- The range of an axis that the coming read of the sensor configuration selects. -/
def State.comingRange (s : State) (axis : Axis) : RangeBit := rangeBitOfCode (scRange tables axis s.comingSc)

/-- X and Y share a range bit, Z has its own (R205). -/
theorem State.comingRange_eq (s : State) (axis : Axis) :
    s.comingRange axis =
      if axis = .z then (if (s.settle.regs.read 0x03).getLsbD 0 then .high else .low)
      else (if (s.settle.regs.read 0x03).getLsbD 1 then .high else .low) := by
  rw [comingRange, ← rangeBitOfCode_extractLsb', ← rangeBitOfCode_extractLsb', ← scXYRange_comingSc, ← scZRange_comingSc]
  cases axis with
  | x | y | z => rfl

/-- RNGSEL inside a sequence never faults (R205). -/
theorem selectRange_yields (axis : Axis) (sc : Half) (s : State) :
    Yields (selectRange axis sc) s (rangeBitOfCode (scRange tables axis sc)) s := by
  have hreply : replyOf s.thrQuant (halfOperand sc) (.rngsel axis) = .ok (zext128 (scRange tables axis sc)) := by
    rw [replyOf, rngselReply, halfOperand, halfOf_setWidth]
  have hbit : ∀ c : BitVec 1, (zext128 c).extractLsb' 0 1 = c := by decide
  rw [← hbit (scRange tables axis sc)]
  exact (ask_yields rfl hreply).andThen (yields_value _ s)

/-- TCHK on a wire byte with bit 0 set (R203). -/
theorem tchkReply_set {b : Byte} (h : b.getLsbD 0 = true) : tchkReply tables (operandOf [b]) = .ok 1#128 := by
  have hbyte : (byteAt (operandOf [b]) 0).toNat = b.toNat := congrArg _ (byteAt_operandOf [b] 0 (by omega))
  have hbit : b.toNat % 2 = 1 := by simpa [BitVec.getLsbD] using h
  rw [byteAt_toNat, operandLane] at hbyte
  rw [tchkReply_eq, if_pos (by omega)]

/-! ## GetAllData (R255, R296) -/

/-- What GetAllData leaves behind where both guards hold: three reads. -/
def State.allDataRead (s : State) (w : BitVec 7) : State :=
  ((s.scRead w).readOut w .tConfig .one).readOut w .tMsbResult .eight

theorem State.allDataRead_trace (s : State) (w : BitVec 7) :
    (s.allDataRead w).trace = s.trace ++
      [s.scEvent w, .read w [0x07#8] 1 (some [s.settle.settle.regs.read 0x07]),
        .read w [0x10#8] 8 (some (s.settle.settle.settle.regs.readBytes 0x10 8))] :=
  (List.append_assoc ..).trans (List.append_assoc ..)

/-- The eight bytes of the burst, which is the third read from now. -/
def State.burstOperand (s : State) : Operand := operandOf (s.settle.settle.settle.regs.readBytes 0x10 8)

/-- GetAllData where both guards hold: the lanes of one CVBURST. -/
theorem getAllData_yields (x : Session) {s : State} (hworks : ∀ e ∈ s.env, e.fails = false)
    (hall : (s.settle.regs.read 0x02).extractLsb' 4 4 = 7#4) (hset : (s.settle.settle.regs.read 0x07).getLsbD 0 = true)
    {q : Result}
    (hq : cvburstReply (variantClass x.variant) (rangeBitOfCode (scXYRange tables s.comingSc))
      (rangeBitOfCode (scZRange tables s.comingSc)) s.burstOperand = .ok q) :
    Yields (getAllData x) s (.quad (resultFloat q 1) (resultFloat q 2) (resultFloat q 3) (resultFloat q 0))
      (s.allDataRead x.addr7) := by
  have hworks₂ := forall_mem_tail hworks
  have hworks₃ := forall_mem_tail hworks₂
  have hconfig := readSc_yields x.addr7 (State.envEvent_not_fails hworks)
  have htemp := memRead_yields x.addr7 (reg := .tConfig) (len := .one) (s := s.scRead x.addr7) rfl
    (State.envEvent_not_fails hworks₂)
  have hburst := memRead_yields x.addr7 (reg := .tMsbResult) (len := .eight)
    (s := (s.scRead x.addr7).readOut x.addr7 .tConfig .one) rfl (State.envEvent_not_fails hworks₃)
  exact hconfig.andThen <| (ask_yields (i := .chall) rfl (challReply_comingSc hall)).andThen <|
    htemp.andThen <| (ask_yields (i := .tchk) rfl (tchkReply_set hset)).andThen <|
    hburst.andThen <| (ask_yields (i := .cvburst _ _ _) rfl hq).andThen <| yields_value _ _

/-- Settles O55: the range bits that CVBURST gets are those of the byte read with the guard's. -/
theorem getAllDataIsOneBurst : Obligations.GetAllDataIsOneBurst := by
  unfold Obligations.GetAllDataIsOneBurst
  intro s x rest hx hin hworks hall hset
  obtain ⟨t, hstep, hresults, htrace, -⟩ :=
    step_of_yields (fun _ => rfl) hx hin (getAllData_yields x (s := s.waiting rest) hworks hall hset (cvburstReply_eq ..))
  refine ⟨t, _, hstep, ?_, hresults, ?_⟩
  · rw [responseOf_eq, ← scXYRange_comingSc, ← scZRange_comingSc]
    rfl
  · exact htrace.trans (State.allDataRead_trace (s.waiting rest) x.addr7)

/-! ## SetMagThreshold beyond the range (R247, R284) -/

/-- THRENC ends the sequence after the read of the sensor configuration: no write has been framed. -/
theorem setMagThreshold_endsWith (x : Session) {s : State} {m : F32} {axis : Axis} (hbus : s.envEvent.fails = false)
    (hnan : isNaN m = false) (hbeyond : rangeUnits (variantClass x.variant) (s.comingRange axis) < f32Mag m) :
    EndsWith (setMagThreshold x m axis) s (statusCode .outOfRange) (s.scRead x.addr7) := by
  have hfloat := floatOf_setWidth m
  have hreply := threncReply_beyond s.thrQuant (a := m.setWidth 64) (by rwa [hfloat]) (by rwa [hfloat])
  exact (readSc_yields _ hbus).andThen_ends <| (selectRange_yields _ _ _).andThen_ends <|
    (ask_endsWith (i := .threnc _ (s.comingRange axis)) (s := s.scRead x.addr7) rfl hreply).andThen

/-- Settles O56: RNGSEL selects the range of the axis, and THRENC refuses what lies beyond it. -/
theorem outOfRangeThresholdWritesNothing : Obligations.OutOfRangeThresholdWritesNothing := by
  unfold Obligations.OutOfRangeThresholdWritesNothing
  intro s x rest m axis hx hbus hin hnan hbeyond
  rw [← State.comingRange_eq] at hbeyond
  obtain ⟨t, hstep, hresults, htrace, hregs⟩ := step_of_endsWith (fun _ => rfl) hx hin
    (setMagThreshold_endsWith x (s := s.waiting rest) hbus hnan hbeyond)
  exact ⟨t, hstep, hresults, hregs, htrace⟩

/-! ## Building a register (R150, R157, R258) -/

/-- A register's byte with codes put into fields, one after the other. -/
def insertCodes (sets : List (Field × Byte)) (raw : Byte) : Byte :=
  sets.foldl (fun b fc => setSpan (fieldSpan fc.1) b fc.2) raw

theorem resultByte_zext128 (b : Byte) : resultByte (zext128 b) 0 = b := extractLsb'_zext128 b

/-- FSET takes a code below a bound up to which every code fits and is defined (R86, R157). -/
theorem fsetAccepts_of_lt {f : Field} {c : Byte} {n : Nat} (hc : c.toNat < n)
    (h : ∀ code < n, code < fieldSize f ∧ ¬ malformedCode f code) : FsetAccepts tables f c :=
  fsetAccepts_iff.mpr (h _ hc)

/-- FSET inside a sequence, with a code it takes (R157). -/
theorem ask_fset_yields {f : Field} {c : Byte} (h : FsetAccepts tables f c) (raw : Byte) (s : State) :
    Yields (ask (.fset f) (operandOf [raw, c])) s (zext128 (setSpan (fieldSpan f) raw c)) s := by
  have hraw : byteAt (operandOf [raw, c]) 0 = raw := byteAt_operandOf _ _ (by omega)
  have hcode : byteAt (operandOf [raw, c]) 1 = c := byteAt_operandOf _ _ (by omega)
  refine ask_yields rfl (fsetReply_eq_ok_iff.mpr ?_)
  rw [hraw, hcode]
  exact ⟨h, rfl⟩

theorem applySets_yields {sets : List (Field × Byte)} (h : ∀ fc ∈ sets, FsetAccepts tables fc.1 fc.2) (raw : Byte)
    (s : State) : Yields (applySets sets raw) s (insertCodes sets raw) s := by
  induction sets generalizing raw with
  | nil => exact yields_value raw s
  | cons fc rest ih =>
    obtain ⟨hfc, hrest⟩ := List.forall_mem_cons.mp h
    refine (ask_fset_yields hfc raw s).andThen ?_
    rw [resultByte_zext128]
    exact ih hrest _

/-- RDEF, then FSETs of codes that are taken (R150). -/
theorem buildRaw_yields (reg : Reg) {sets : List (Field × Byte)} (h : ∀ fc ∈ sets, FsetAccepts tables fc.1 fc.2)
    (s : State) : Yields (buildRaw reg sets) s (insertCodes sets (regDefault reg)) s :=
  (ask_yields (i := .rdef reg) rfl rfl).andThen (by rw [resultByte_zext128]; exact applySets_yields h _ s)

/-- A register built and written where the transport carries the frame (R258). -/
theorem writeBuilt_yields (w : BitVec 7) {reg : Reg} {sets : List (Field × Byte)} {b : Byte} {s : State}
    (h : ∀ fc ∈ sets, FsetAccepts tables fc.1 fc.2) (hb : insertCodes sets (regDefault reg) = b)
    (hrw : (regCode reg).toNat < 0x0D) (hbus : s.envEvent.fails = false) :
    Yields (writeBuilt w reg sets) s () (s.written w reg b) := by
  subst hb
  exact (buildRaw_yields reg h s).andThen (memWrite_yields w _ hrw hbus)

/-- A register built whose frame the transport does not carry (R297). -/
theorem writeBuilt_endsWith (w : BitVec 7) {reg : Reg} {sets : List (Field × Byte)} {b : Byte} {s : State}
    (h : ∀ fc ∈ sets, FsetAccepts tables fc.1 fc.2) (hb : insertCodes sets (regDefault reg) = b)
    (hrw : (regCode reg).toNat < 0x0D) (hbus : s.envEvent.fails = true) :
    EndsWith (writeBuilt w reg sets) s 7#4 (s.lost w reg b) := by
  subst hb
  exact (buildRaw_yields reg h s).andThen_ends (memWrite_endsWith w _ hrw hbus)

/-! ## A built register as a number -/

/-- A code put above all that the byte holds adds its units. -/
theorem setSpan_toNat_above {f : Field} {c raw : Byte} (h : FsetAccepts tables f c) (hraw : raw.toNat < fieldUnit f) :
    (setSpan (fieldSpan f) raw c).toNat = raw.toNat + c.toNat * fieldUnit f := by
  obtain ⟨hfit, -⟩ := h
  have hold : codeIn f raw.toNat = 0 := by rw [codeIn, Nat.div_eq_of_lt hraw, Nat.zero_mod]
  rw [setSpan_toNat_field f raw hfit, hold, Nat.zero_mul, Nat.sub_zero]

/-- The fields stand one above the other, the first no lower than the unit `n`. -/
def ascendFrom (n : Nat) : List Field → Bool
  | [] => true
  | f :: fs => decide (n ≤ fieldUnit f) && ascendFrom (fieldUnit f * fieldSize f) fs

/-- The fields of a register do (R151). -/
theorem regFields_ascend (reg : Reg) : ascendFrom 1 (regFields tables reg) = true := by
  cases reg <;> decide

/-- Codes put into fields that stand one above the other add their units. -/
theorem insertCodes_toNat {sets : List (Field × Byte)} {raw : Byte} {n : Nat}
    (h : ∀ fc ∈ sets, FsetAccepts tables fc.1 fc.2) (hasc : ascendFrom n (sets.map Prod.fst) = true)
    (hraw : raw.toNat < n) :
    (insertCodes sets raw).toNat = raw.toNat + (sets.map fun fc => fc.2.toNat * fieldUnit fc.1).sum := by
  induction sets generalizing raw n with
  | nil => rfl
  | cons fc rest ih =>
    obtain ⟨hfc, hrest⟩ := List.forall_mem_cons.mp h
    rw [List.map_cons, ascendFrom, Bool.and_eq_true, decide_eq_true_eq] at hasc
    obtain ⟨hle, hasc'⟩ := hasc
    have hnext := setSpan_toNat_above hfc (Nat.lt_of_lt_of_le hraw hle)
    have hbelow : (setSpan (fieldSpan fc.1) raw fc.2).toNat < fieldUnit fc.1 * fieldSize fc.1 := by
      obtain ⟨hsize, -⟩ := fsetAccepts_iff.mp hfc
      calc (setSpan (fieldSpan fc.1) raw fc.2).toNat
          < (fc.2.toNat + 1) * fieldUnit fc.1 := by rw [hnext, Nat.succ_mul]; omega
        _ ≤ fieldSize fc.1 * fieldUnit fc.1 := Nat.mul_le_mul_right _ hsize
        _ = fieldUnit fc.1 * fieldSize fc.1 := Nat.mul_comm ..
    rw [insertCodes, List.foldl_cons, ← insertCodes, ih hrest hasc' hbelow, hnext, List.map_cons, List.sum_cons,
      Nat.add_assoc]

/-- A register built from a default of 0, a code for each field: the sum of the codes' units (R150). -/
theorem insertCodes_regDefault {reg : Reg} {sets : List (Field × Byte)} (h : ∀ fc ∈ sets, FsetAccepts tables fc.1 fc.2)
    (hfields : sets.map Prod.fst = regFields tables reg) (hdefault : regDefault reg = 0#8) :
    insertCodes sets (regDefault reg) = BitVec.ofNat 8 (sets.map fun fc => fc.2.toNat * fieldUnit fc.1).sum := by
  have hsum := insertCodes_toNat (raw := 0#8) h (hfields ▸ regFields_ascend reg) Nat.zero_lt_one
  rw [BitVec.toNat_zero, Nat.zero_add] at hsum
  rw [hdefault, ← hsum, BitVec.ofNat_toNat, BitVec.setWidth_eq]

/-! ## Registers after writes to a device that changes nothing of its own (R113, R298) -/

theorem State.settle_regs_of_still {s : State} (h : s.envEvent.changes = []) : s.settle.regs = s.regs := by
  rw [settle_regs, h, List.foldl_nil]

theorem State.written_wf {s : State} (hwf : s.regs.wf = true) (w : BitVec 7) (reg : Reg) (v : Byte) :
    (s.written w reg v).regs.wf = true := by
  rw [written_regs]
  exact Memory.wf_write (settle_wf hwf) (regCode_le reg) v

/-- After a landed write the register holds the byte and every other what it held. -/
theorem State.written_read {s : State} (hwf : s.regs.wf = true) (hstill : s.envEvent.changes = []) (w : BitVec 7)
    (reg : Reg) (v : Byte) (addr : Nat) :
    (s.written w reg v).regs.read addr = if addr = (regCode reg).toNat then v else s.regs.read addr := by
  rw [written_regs, settle_regs_of_still hstill]
  by_cases haddr : addr = (regCode reg).toNat
  · rw [if_pos haddr, haddr, Memory.read_write_same hwf]
  · rw [if_neg haddr, Memory.read_write_other _ _ haddr]

/-- On a device that changes nothing of its own the coming transaction finds the registers unchanged. -/
theorem State.envEvent_still {s : State} (h : ∀ e ∈ s.env, e.changes = []) : s.envEvent.changes = [] := by
  cases henv : s.env with
  | nil => rw [State.envEvent_nil henv]
  | cons e es => rw [State.envEvent_cons henv]; exact h e (by simp [henv])

/-! ## InitDefault (R244) -/

/-- What InitDefault leaves behind on a transport that works: four writes. -/
def State.initialised (s : State) (w : BitVec 7) : State :=
  (((s.written w .sensorConfig1 0x7C#8).written w .sensorConfig2 0x03#8).written w .tConfig 0x01#8).written w
    .deviceConfig2 0x02#8

theorem initDefault_yields (w : BitVec 7) {s : State} (hworks : ∀ e ∈ s.env, e.fails = false) :
    Yields (initDefault w) s .unit (s.initialised w) := by
  have hworks₂ := forall_mem_tail hworks
  have hworks₃ := forall_mem_tail hworks₂
  have hworks₄ := forall_mem_tail hworks₃
  have hsensor1 := writeBuilt_yields w (reg := .sensorConfig1)
    (sets := [(.magChEn, codeAllThree tables), (.sleeptime, codeSleep20s tables)]) (s := s)
    (b := 0x7C#8) (by unfold FsetAccepts; decide) (by decide) (by decide) (State.envEvent_not_fails hworks)
  have hsensor2 := writeBuilt_yields w (reg := .sensorConfig2)
    (sets := [(.zRange, codeHigh tables), (.xyRange, codeHigh tables)]) (s := s.written w .sensorConfig1 0x7C#8)
    (b := 0x03#8) (by unfold FsetAccepts; decide) (by decide) (by decide) (State.envEvent_not_fails hworks₂)
  have htemp := writeBuilt_yields w (reg := .tConfig) (sets := [(.tChEn, codeEnabled tables)])
    (s := (s.written w .sensorConfig1 0x7C#8).written w .sensorConfig2 0x03#8)
    (b := 0x01#8) (by unfold FsetAccepts; decide) (by decide) (by decide) (State.envEvent_not_fails hworks₃)
  have hmode := writeBuilt_yields w (reg := .deviceConfig2) (sets := [(.operatingMode, codeContinuous tables)])
    (s := ((s.written w .sensorConfig1 0x7C#8).written w .sensorConfig2 0x03#8).written w .tConfig 0x01#8)
    (b := 0x02#8) (by unfold FsetAccepts; decide) (by decide) (by decide) (State.envEvent_not_fails hworks₄)
  exact hsensor1.andThen <| hsensor2.andThen <| htemp.andThen <| hmode.andThen <| yields_value _ _

theorem State.initialised_trace (s : State) (w : BitVec 7) :
    (s.initialised w).trace = s.trace ++
      [.wrote w [0x02#8, 0x7C#8] true, .wrote w [0x03#8, 0x03#8] true, .wrote w [0x07#8, 0x01#8] true,
        .wrote w [0x01#8, 0x02#8] true] :=
  (List.append_assoc ..).trans ((List.append_assoc ..).trans (List.append_assoc ..))

theorem State.initialised_read {s : State} (hwf : s.regs.wf = true) (hstill : ∀ e ∈ s.env, e.changes = [])
    (w : BitVec 7) (addr : Nat) :
    (s.initialised w).regs.read addr =
      if addr = 0x02 then 0x7C#8 else if addr = 0x03 then 0x03#8 else if addr = 0x07 then 0x01#8
      else if addr = 0x01 then 0x02#8 else s.regs.read addr := by
  have hstill₂ := forall_mem_tail hstill
  have hstill₃ := forall_mem_tail hstill₂
  have hstill₄ := forall_mem_tail hstill₃
  have hwf₂ := State.written_wf hwf w .sensorConfig1 0x7C#8
  have hwf₃ := State.written_wf hwf₂ w .sensorConfig2 0x03#8
  have hwf₄ := State.written_wf hwf₃ w .tConfig 0x01#8
  rw [initialised, written_read hwf₄ (envEvent_still hstill₄), written_read hwf₃ (envEvent_still hstill₃),
    written_read hwf₂ (envEvent_still hstill₂), written_read hwf (envEvent_still hstill)]
  -- no address is written twice, so the order in which they are asked for does not matter
  simp only [regCode]
  grind

/-- Settles O57: four registers built from their defaults and written, no address twice. -/
theorem initDefaultWritesFourFrames : Obligations.InitDefaultWritesFourFrames := by
  unfold Obligations.InitDefaultWritesFourFrames
  intro s x rest hx hin hworks
  obtain ⟨t, hstep, hresults, htrace, hregs⟩ :=
    step_of_yields (fun _ => rfl) hx hin (initDefault_yields x.addr7 (s := s.waiting rest) hworks)
  refine ⟨t, hstep, hresults, htrace.trans (State.initialised_trace ..), fun hwf hstill addr => ?_⟩
  rw [hregs]
  exact State.initialised_read (s := s.waiting rest) hwf hstill x.addr7 addr

/-! ## A Device group `set` whose second write fails (R258, R260, R297) -/

theorem setGroup_endsWith {x : Session} {c : GroupConfig} {s t : State} {st : BitVec 4}
    (hc : c.codes.length = (groupFields c.group).length)
    (h : EndsWith (setRegs x.addr7 (groupRegs c.group) c.codes) s st t) : EndsWith (setGroup x c) s st t := by
  have heq : setGroup x c = fun s => (setRegs x.addr7 (groupRegs c.group) c.codes s).andThen fun _ s => .value .unit s :=
    funext fun _ => if_pos hc
  rw [heq]
  exact h.andThen

/-- What a Device group `set` leaves behind whose second write the transport does not carry. -/
def State.halfSet (s : State) (w : BitVec 7) (b0 b1 : Byte) : State :=
  (s.written w .deviceConfig1 b0).lost w .deviceConfig2 b1

theorem setRegs_device_endsWith (w : BitVec 7) {codes : List Byte} {b0 b1 : Byte} {s : State}
    (hacc0 : ∀ fc ∈ (regFields tables .deviceConfig1).zip codes, FsetAccepts tables fc.1 fc.2)
    (hacc1 : ∀ fc ∈ (regFields tables .deviceConfig2).zip (codes.drop 3), FsetAccepts tables fc.1 fc.2)
    (hb0 : insertCodes ((regFields tables .deviceConfig1).zip codes) (regDefault .deviceConfig1) = b0)
    (hb1 : insertCodes ((regFields tables .deviceConfig2).zip (codes.drop 3)) (regDefault .deviceConfig2) = b1)
    (hbus : s.envEvent.fails = false) (hbus' : s.settle.envEvent.fails = true) :
    EndsWith (setRegs w (groupRegs .device) codes) s 7#4 (s.halfSet w b0 b1) :=
  (writeBuilt_yields w hacc0 hb0 (by decide) hbus).andThen_ends
    (writeBuilt_endsWith w (s := s.written w .deviceConfig1 b0) hacc1 hb1 (by decide) hbus').andThen

theorem State.halfSet_trace (s : State) (w : BitVec 7) (b0 b1 : Byte) :
    (s.halfSet w b0 b1).trace = s.trace ++ [.wrote w [0x00#8, b0] true, .wrote w [0x01#8, b1] false] :=
  List.append_assoc ..

/-- The lost write leaves DEVICE_CONFIG_2 as it was (R297). -/
theorem State.halfSet_read {s : State} (hwf : s.regs.wf = true) (hstill : s.envEvent.changes = [])
    (hstill' : s.settle.envEvent.changes = []) (w : BitVec 7) (b0 b1 : Byte) (addr : Nat) :
    (s.halfSet w b0 b1).regs.read addr = if addr = 0x00 then b0 else s.regs.read addr := by
  have hlost : (s.halfSet w b0 b1).regs = (s.written w .deviceConfig1 b0).regs :=
    settle_regs_of_still (s := s.written w .deviceConfig1 b0) hstill'
  rw [hlost, written_read hwf hstill]
  rfl

/-- DEVICE_CONFIG_1 from defined codes of its fields (R30, R86). -/
theorem deviceConfig1_built {c0 c1 c2 : Byte} (h0 : c0.toNat < 4) (h1 : c1.toNat < 6) (h2 : c2.toNat < 4) :
    (∀ fc ∈ [(Field.i2cRd, c0), (.convAvg, c1), (.magTempco, c2)], FsetAccepts tables fc.1 fc.2) ∧
      insertCodes [(.i2cRd, c0), (.convAvg, c1), (.magTempco, c2)] (regDefault .deviceConfig1) =
        BitVec.ofNat 8 (c0.toNat + 4 * c1.toNat + 32 * c2.toNat) := by
  have hacc : ∀ fc ∈ [(Field.i2cRd, c0), (.convAvg, c1), (.magTempco, c2)], FsetAccepts tables fc.1 fc.2 := by
    simp only [List.forall_mem_cons]
    exact ⟨fsetAccepts_of_lt h0 (by decide), fsetAccepts_of_lt h1 (by decide), fsetAccepts_of_lt h2 (by decide), nofun⟩
  have hsum : c0.toNat * 1 + (c1.toNat * 4 + (c2.toNat * 32 + 0)) = c0.toNat + 4 * c1.toNat + 32 * c2.toNat := by omega
  exact ⟨hacc, (insertCodes_regDefault hacc rfl rfl).trans (congrArg (BitVec.ofNat 8) hsum)⟩

/-- DEVICE_CONFIG_2 from defined codes of its fields (R31, R86). -/
theorem deviceConfig2_built {c3 c4 c5 c6 c7 : Byte} (h3 : c3.toNat < 4) (h4 : c4.toNat < 2) (h5 : c5.toNat < 2)
    (h6 : c6.toNat < 2) (h7 : c7.toNat < 2) :
    (∀ fc ∈ [(Field.operatingMode, c3), (.triggerMode, c4), (.i2cGlitchFilter, c5), (.lpLn, c6), (.thrHyst, c7)],
        FsetAccepts tables fc.1 fc.2) ∧
      insertCodes [(.operatingMode, c3), (.triggerMode, c4), (.i2cGlitchFilter, c5), (.lpLn, c6), (.thrHyst, c7)]
          (regDefault .deviceConfig2) =
        BitVec.ofNat 8 (c3.toNat + 4 * c4.toNat + 8 * c5.toNat + 16 * c6.toNat + 32 * c7.toNat) := by
  have hacc : ∀ fc ∈ [(Field.operatingMode, c3), (.triggerMode, c4), (.i2cGlitchFilter, c5), (.lpLn, c6), (.thrHyst, c7)],
      FsetAccepts tables fc.1 fc.2 := by
    simp only [List.forall_mem_cons]
    exact ⟨fsetAccepts_of_lt h3 (by decide), fsetAccepts_of_lt h4 (by decide), fsetAccepts_of_lt h5 (by decide),
      fsetAccepts_of_lt h6 (by decide), fsetAccepts_of_lt h7 (by decide), nofun⟩
  have hsum : c3.toNat * 1 + (c4.toNat * 4 + (c5.toNat * 8 + (c6.toNat * 16 + (c7.toNat * 32 + 0)))) =
      c3.toNat + 4 * c4.toNat + 8 * c5.toNat + 16 * c6.toNat + 32 * c7.toNat := by omega
  exact ⟨hacc, (insertCodes_regDefault hacc rfl rfl).trans (congrArg (BitVec.ofNat 8) hsum)⟩

/-- Settles O58: the first register is built from the first three codes and written, the second from the other five and
lost. -/
theorem groupSetIsNotAtomic : Obligations.GroupSetIsNotAtomic := by
  unfold Obligations.GroupSetIsNotAtomic
  intro s x rest c0 c1 c2 c3 c4 c5 c6 c7 es hx hwf hin henv h0 h1 h2 h3 h4 h5 h6 h7
  obtain ⟨hacc0, hbyte0⟩ := deviceConfig1_built h0 h1 h2
  obtain ⟨hacc1, hbyte1⟩ := deviceConfig2_built h3 h4 h5 h6 h7
  have hfirst := State.envEvent_cons henv
  have hsecond := State.envEvent_cons (s := s.settle) (congrArg List.tail henv)
  have hset := setRegs_device_endsWith x.addr7 (s := s.waiting rest) (codes := [c0, c1, c2, c3, c4, c5, c6, c7])
    hacc0 hacc1 hbyte0 hbyte1 (congrArg EnvEvent.fails hfirst) (congrArg EnvEvent.fails hsecond)
  obtain ⟨t, hstep, hresults, htrace, hregs⟩ := step_of_endsWith (fun _ => rfl) hx hin (setGroup_endsWith rfl hset)
  refine ⟨t, hstep, hresults, htrace.trans (State.halfSet_trace ..), fun addr => ?_⟩
  rw [hregs]
  exact State.halfSet_read (s := s.waiting rest) hwf (congrArg EnvEvent.changes hfirst)
    (congrArg EnvEvent.changes hsecond) x.addr7 _ _ addr

end Sys2Proof.Machine


/-! O53. Every host sequence but a construction is a body run on the session, so without one it is refused (R292). -/

namespace Sys2Proof.Machine

/-- A host sequence other than a construction is a body that runs on the session (R292): what `step_call_of_session` and
`step_call_of_noSession` ask of a call. -/
theorem runCall_eq_withSession {h : HostCall} (hc : ∀ v, h ≠ .construct v)
    (hca : ∀ w v, h ≠ .constructWithAddress w v) :
    ∃ k : State → Session → HostRun HostValue, ∀ u, runCall h u = withSession u (k u) := by
  cases h with
  | construct v => exact absurd rfl (hc v)
  | constructWithAddress w v => exact absurd rfl (hca w v)
  | _ => exact ⟨_, fun _ => rfl⟩

/-- Without a session no body runs (R292, log entry 13). -/
theorem withSession_of_noSession {s : State} (hs : s.session = none) (k : Session → HostRun HostValue) :
    withSession s k = .refused .noSession := by
  rw [withSession, hs]

/-- A step of a host sequence that needs a session is refused without one, as `step_call_of_session` runs it with one. -/
theorem step_call_of_noSession {s : State} {h : HostCall} {rest : List HostAction}
    {k : State → Session → HostRun HostValue} (hcall : ∀ u, runCall h u = withSession u (k u))
    (hin : s.inputs = .call h :: rest) (hs : s.session = none) : step s = .refused .noSession := by
  have hw : (s.waiting rest).session = none := hs
  rw [step_call hin, ← State.waiting, hcall, withSession_of_noSession hw, finish]

/-- Settles O53: only the two constructions run without a session. -/
theorem sequencesNeedSession : Obligations.SequencesNeedSession := by
  unfold Obligations.SequencesNeedSession
  intro s h rest hin hs hc hca
  obtain ⟨k, hcall⟩ := runCall_eq_withSession hc hca
  exact step_call_of_noSession hcall hin hs

end Sys2Proof.Machine
